-- ==== Sys2Proof/Word.lean ====
section
/-! DEFINITION. The word types of the engine: what the spec treats as bits (00_scope.md R12, R15). -/

namespace Sys2Proof

/-- One byte of an array or string (00_scope.md R14). -/
abbrev Byte := BitVec 8

/-- One 32-bit bus word, command word or Belt word (00_scope.md R15). -/
abbrev Word := BitVec 32

/-- One 64-bit lane of the Bash state (00_scope.md R15). -/
abbrev Lane := BitVec 64

/-- A byte offset in the 4096-byte register window (20_memory.md R80). -/
abbrev Offset := BitVec 12

end Sys2Proof
end

