-- ==== Sys2Proof/Syntax.lean ====
section
/-! DEFINITION. The 21 commands of the engine, one constructor per row of opcode_table.json (30_encoding.md R118).
Counts, levels and lengths are naturals, as the spec uses them; which of them fit their fields is WellFormed's business. -/

namespace Sys2Proof

/-- A decoded command (00_scope.md R18: "an instruction of this engine is a command"). -/
inductive Instr where
  /-- NOP, format A, `0x00` (44_control.md R340). -/
  | nop
  /-- CLRERR, format A, `0x01` (44_control.md R341). -/
  | clrerr
  /-- SRESET, format A, `0x02` (44_control.md R342). -/
  | sreset
  /-- BASHF, format A, `0x08` (40_bashf.md R161). -/
  | bashf
  /-- HASH_INIT, format H, `0x10`: the level `l` (41_hash.md R200). -/
  | hashInit (l : Nat)
  /-- HASH_STEP, format N, `0x11`: the byte count `n` (41_hash.md R202). -/
  | hashStep (n : Nat)
  /-- HASH_FINAL, format A, `0x12` (41_hash.md R206). -/
  | hashFinal
  /-- HASH_VERIFY, format A, `0x13` (41_hash.md R207). -/
  | hashVerify
  /-- PRG_START, format S, `0x20`: level, capacity, annotation and key lengths (42_prg.md R250). -/
  | prgStart (l d ann key : Nat)
  /-- PRG_RESTART, format R, `0x21`: annotation and key lengths (42_prg.md R251). -/
  | prgRestart (ann key : Nat)
  /-- PRG_ABSORB_START, format A, `0x22` (42_prg.md R252). -/
  | prgAbsorbStart
  /-- PRG_ABSORB, format N, `0x23` (42_prg.md R253). -/
  | prgAbsorb (n : Nat)
  /-- PRG_SQUEEZE_START, format A, `0x24` (42_prg.md R254). -/
  | prgSqueezeStart
  /-- PRG_SQUEEZE, format N, `0x25` (42_prg.md R255). -/
  | prgSqueeze (n : Nat)
  /-- PRG_ENCR_START, format A, `0x26` (42_prg.md R256). -/
  | prgEncrStart
  /-- PRG_ENCR, format N, `0x27` (42_prg.md R257). -/
  | prgEncr (n : Nat)
  /-- PRG_DECR_START, format A, `0x28` (42_prg.md R258). -/
  | prgDecrStart
  /-- PRG_DECR, format N, `0x29` (42_prg.md R259). -/
  | prgDecr (n : Nat)
  /-- PRG_RATCHET, format A, `0x2A` (42_prg.md R260). -/
  | prgRatchet
  /-- BELT_ENC, format A, `0x30` (43_belt.md R309). -/
  | beltEnc
  /-- BELT_DEC, format A, `0x31` (43_belt.md R310). -/
  | beltDec
  deriving DecidableEq, Repr

end Sys2Proof
end

