-- ==== Sys2Proof/WellFormed.lean ====
section
/-! DEFINITION. Which commands fit their encoding: each field value fits its field's width (30_encoding.md R112,
R114 to R117; R123: "An assembler refuses a value that does not fit its field"). A value that fits but that the
command rejects (a count above 192, a level the source refuses) is well-formed: it raises its own error (R121). -/

namespace Sys2Proof

/-- Every field of the command fits its field of the word. -/
def Instr.wellFormed : Instr → Bool
  | .nop => true
  | .clrerr => true
  | .sreset => true
  | .bashf => true
  | .hashInit l => decide (l < 512)
  | .hashStep n => decide (n < 256)
  | .hashFinal => true
  | .hashVerify => true
  | .prgStart l d ann key => decide (l < 512) && decide (d < 4) && decide (ann < 64) && decide (key < 64)
  | .prgRestart ann key => decide (ann < 64) && decide (key < 64)
  | .prgAbsorbStart => true
  | .prgAbsorb n => decide (n < 256)
  | .prgSqueezeStart => true
  | .prgSqueeze n => decide (n < 256)
  | .prgEncrStart => true
  | .prgEncr n => decide (n < 256)
  | .prgDecrStart => true
  | .prgDecr n => decide (n < 256)
  | .prgRatchet => true
  | .beltEnc => true
  | .beltDec => true

/-- The command can be written as a command word. -/
abbrev Instr.WellFormed (i : Instr) : Prop := i.wellFormed = true

end Sys2Proof
end

