-- ==== Sys2Proof/Decode.lean ====
section
/-! DEFINITION. The command encoding (30_encoding.md): the decoder from a 32-bit command word, total and rejecting by
name, the opcode table of opcode_table.json, and the encoder and assembler written from the same formats. -/

namespace Sys2Proof

/-- Why a word is no command; both raise ILLEGAL_COMMAND (30_encoding.md R119, R120). -/
inductive DecodeReject where
  /-- `OP` is not in the map of 30_encoding.md R118. -/
  | reservedOp (op : Byte)
  /-- `OP` is defined, and a reserved bit of its format is 1. -/
  | reservedBits (op : Byte)
  deriving DecidableEq, Repr

/-! ### Fields of a command word (30_encoding.md R111, R112) -/

/-- `OP = word[7:0]`. -/
def opByte (w : Word) : Byte := w.extractLsb' 0 8

/-- `N = word[15:8]` (30_encoding.md R114). -/
def fieldN (w : Word) : Nat := (w.extractLsb' 8 8).toNat

/-- `L = word[16:8]` (30_encoding.md R115, R116). -/
def fieldL (w : Word) : Nat := (w.extractLsb' 8 9).toNat

/-- `D = word[18:17]` (30_encoding.md R116). -/
def fieldD (w : Word) : Nat := (w.extractLsb' 17 2).toNat

/-- `A = word[24:19]` (30_encoding.md R116, R117). -/
def fieldA (w : Word) : Nat := (w.extractLsb' 19 6).toNat

/-- `K = word[30:25]` (30_encoding.md R116, R117). -/
def fieldK (w : Word) : Nat := (w.extractLsb' 25 6).toNat

/-- The command, when the format's reserved bits are all 0 (30_encoding.md R120). -/
def whenReservedZero (w : Word) (reservedZero : Bool) (i : Instr) : Except DecodeReject Instr :=
  if reservedZero then .ok i else .error (.reservedBits (opByte w))

/-- Format A: bits 31:8 are reserved. -/
def formatA (w : Word) (i : Instr) : Except DecodeReject Instr :=
  whenReservedZero w (w.extractLsb' 8 24 == 0) i

/-- Format N: bits 31:16 are reserved. -/
def formatN (w : Word) (mk : Nat → Instr) : Except DecodeReject Instr :=
  whenReservedZero w (w.extractLsb' 16 16 == 0) (mk (fieldN w))

/-- Format H: bits 31:17 are reserved. -/
def formatH (w : Word) (mk : Nat → Instr) : Except DecodeReject Instr :=
  whenReservedZero w (w.extractLsb' 17 15 == 0) (mk (fieldL w))

/-- Format S: bit 31 is reserved. -/
def formatS (w : Word) (mk : Nat → Nat → Nat → Nat → Instr) : Except DecodeReject Instr :=
  whenReservedZero w (w.extractLsb' 31 1 == 0) (mk (fieldL w) (fieldD w) (fieldA w) (fieldK w))

/-- Format R: bit 31 and bits 18:8 are reserved. -/
def formatR (w : Word) (mk : Nat → Nat → Instr) : Except DecodeReject Instr :=
  whenReservedZero w (w.extractLsb' 31 1 == 0 && w.extractLsb' 8 11 == 0) (mk (fieldA w) (fieldK w))

/-! ### The decoder -/

/-- The decoder: `OP` alone chooses the format (30_encoding.md R110, R118). -/
def decode (w : Word) : Except DecodeReject Instr :=
  match (opByte w).toNat with
  | 0x00 => formatA w .nop
  | 0x01 => formatA w .clrerr
  | 0x02 => formatA w .sreset
  | 0x08 => formatA w .bashf
  | 0x10 => formatH w .hashInit
  | 0x11 => formatN w .hashStep
  | 0x12 => formatA w .hashFinal
  | 0x13 => formatA w .hashVerify
  | 0x20 => formatS w .prgStart
  | 0x21 => formatR w .prgRestart
  | 0x22 => formatA w .prgAbsorbStart
  | 0x23 => formatN w .prgAbsorb
  | 0x24 => formatA w .prgSqueezeStart
  | 0x25 => formatN w .prgSqueeze
  | 0x26 => formatA w .prgEncrStart
  | 0x27 => formatN w .prgEncr
  | 0x28 => formatA w .prgDecrStart
  | 0x29 => formatN w .prgDecr
  | 0x2A => formatA w .prgRatchet
  | 0x30 => formatA w .beltEnc
  | 0x31 => formatA w .beltDec
  | _ => .error (.reservedOp (opByte w))

/-- The command word whose table bits are `w`: `nbits` bits, every bit above them 0. A command is one 32-bit word
(30_encoding.md R110), so it needs no laying out in memory. -/
def commandWord (nbits w : Nat) : Word := BitVec.ofNat 32 (w % 2 ^ nbits)

/-- What the decoder reads from a word numbered as opcode_table.json numbers it. -/
def decodeTableWord (nbits w : Nat) : Option Instr :=
  match decode (commandWord nbits w) with
  | .ok i => some i
  | .error _ => none

/-! ### The encoder -/

/-- The `OP` byte of a command (30_encoding.md R118). -/
def opcode : Instr → Byte
  | .nop => 0x00
  | .clrerr => 0x01
  | .sreset => 0x02
  | .bashf => 0x08
  | .hashInit _ => 0x10
  | .hashStep _ => 0x11
  | .hashFinal => 0x12
  | .hashVerify => 0x13
  | .prgStart _ _ _ _ => 0x20
  | .prgRestart _ _ => 0x21
  | .prgAbsorbStart => 0x22
  | .prgAbsorb _ => 0x23
  | .prgSqueezeStart => 0x24
  | .prgSqueeze _ => 0x25
  | .prgEncrStart => 0x26
  | .prgEncr _ => 0x27
  | .prgDecrStart => 0x28
  | .prgDecr _ => 0x29
  | .prgRatchet => 0x2A
  | .beltEnc => 0x30
  | .beltDec => 0x31

/-- `value << lo`, a field put at its place in the word (30_encoding.md R123). -/
def fieldAt (lo value : Nat) : Word := BitVec.ofNat 32 value <<< lo

/-- The field bits of a command, by its format (30_encoding.md R112, R123). -/
def fieldBits : Instr → Word
  | .nop => 0
  | .clrerr => 0
  | .sreset => 0
  | .bashf => 0
  | .hashInit l => fieldAt 8 l
  | .hashStep n => fieldAt 8 n
  | .hashFinal => 0
  | .hashVerify => 0
  | .prgStart l d ann key => fieldAt 8 l ||| fieldAt 17 d ||| fieldAt 19 ann ||| fieldAt 25 key
  | .prgRestart ann key => fieldAt 19 ann ||| fieldAt 25 key
  | .prgAbsorbStart => 0
  | .prgAbsorb n => fieldAt 8 n
  | .prgSqueezeStart => 0
  | .prgSqueeze n => fieldAt 8 n
  | .prgEncrStart => 0
  | .prgEncr n => fieldAt 8 n
  | .prgDecrStart => 0
  | .prgDecr n => fieldAt 8 n
  | .prgRatchet => 0
  | .beltEnc => 0
  | .beltDec => 0

/-- The command word of a well-formed command: `OP | fields` (30_encoding.md R123). -/
def encode (i : Instr) : Word := (opcode i).setWidth 32 ||| fieldBits i

/-- The assembler, which "refuses a value that does not fit its field" (30_encoding.md R123). -/
def assemble (i : Instr) : Option Word := if i.WellFormed then some (encode i) else none

/-! ### The opcode table (30_encoding.md R120: `(w & mask) = match`) -/

/-- The mnemonic of a command, letter for letter as opcode_table.json has it. -/
def mnemonic : Instr → String
  | .nop => "NOP"
  | .clrerr => "CLRERR"
  | .sreset => "SRESET"
  | .bashf => "BASHF"
  | .hashInit _ => "HASH_INIT"
  | .hashStep _ => "HASH_STEP"
  | .hashFinal => "HASH_FINAL"
  | .hashVerify => "HASH_VERIFY"
  | .prgStart _ _ _ _ => "PRG_START"
  | .prgRestart _ _ => "PRG_RESTART"
  | .prgAbsorbStart => "PRG_ABSORB_START"
  | .prgAbsorb _ => "PRG_ABSORB"
  | .prgSqueezeStart => "PRG_SQUEEZE_START"
  | .prgSqueeze _ => "PRG_SQUEEZE"
  | .prgEncrStart => "PRG_ENCR_START"
  | .prgEncr _ => "PRG_ENCR"
  | .prgDecrStart => "PRG_DECR_START"
  | .prgDecr _ => "PRG_DECR"
  | .prgRatchet => "PRG_RATCHET"
  | .beltEnc => "BELT_ENC"
  | .beltDec => "BELT_DEC"

/-- One row of opcode_table.json. -/
structure OpcodeRow where
  mnemonic : String
  pattern : Word
  mask : Word
  deriving DecidableEq, Repr

/-- A word matches a row when its masked bits are the row's pattern (30_encoding.md R120). -/
def OpcodeRow.hit (r : OpcodeRow) (w : Word) : Bool := (w &&& r.mask) == r.pattern

/-- The rows of opcode_table.json, in its order. -/
def opcodeTable : List OpcodeRow :=
  [⟨"NOP", 0x00000000, 0xFFFFFFFF⟩, ⟨"CLRERR", 0x00000001, 0xFFFFFFFF⟩,
   ⟨"SRESET", 0x00000002, 0xFFFFFFFF⟩, ⟨"BASHF", 0x00000008, 0xFFFFFFFF⟩,
   ⟨"HASH_INIT", 0x00000010, 0xFFFE00FF⟩, ⟨"HASH_STEP", 0x00000011, 0xFFFF00FF⟩,
   ⟨"HASH_FINAL", 0x00000012, 0xFFFFFFFF⟩, ⟨"HASH_VERIFY", 0x00000013, 0xFFFFFFFF⟩,
   ⟨"PRG_START", 0x00000020, 0x800000FF⟩, ⟨"PRG_RESTART", 0x00000021, 0x8007FFFF⟩,
   ⟨"PRG_ABSORB_START", 0x00000022, 0xFFFFFFFF⟩, ⟨"PRG_ABSORB", 0x00000023, 0xFFFF00FF⟩,
   ⟨"PRG_SQUEEZE_START", 0x00000024, 0xFFFFFFFF⟩, ⟨"PRG_SQUEEZE", 0x00000025, 0xFFFF00FF⟩,
   ⟨"PRG_ENCR_START", 0x00000026, 0xFFFFFFFF⟩, ⟨"PRG_ENCR", 0x00000027, 0xFFFF00FF⟩,
   ⟨"PRG_DECR_START", 0x00000028, 0xFFFFFFFF⟩, ⟨"PRG_DECR", 0x00000029, 0xFFFF00FF⟩,
   ⟨"PRG_RATCHET", 0x0000002A, 0xFFFFFFFF⟩, ⟨"BELT_ENC", 0x00000030, 0xFFFFFFFF⟩,
   ⟨"BELT_DEC", 0x00000031, 0xFFFFFFFF⟩]

end Sys2Proof
end

