-- ==== Sys2Proof/Machine/Bytes.lean ====
section
/-! DEFINITION. Byte arrays, lanes and words: access by index, half-open ranges, and the little-endian views
(00_scope.md R14, R15; 20_memory.md R81, R82). Indices are naturals; an index outside an array, which no legal context
reaches (assumption 8), reads 0 and is not written. -/

namespace Sys2Proof.Machine

open Sys2Proof

variable {w n : Nat}

/-- `A[i]`. -/
def elemAt (A : Vector (BitVec w) n) (i : Nat) : BitVec w := A.toList.getD i 0

/-- `A[i] <- x`. -/
def putAt (A : Vector (BitVec w) n) (i : Nat) (x : BitVec w) : Vector (BitVec w) n :=
  ⟨(A.toList.set i x).toArray, by simp⟩

/-- The array whose element `i` is `f i`. -/
def tabulate (n : Nat) (f : Nat → BitVec w) : Vector (BitVec w) n :=
  ⟨((List.range n).map f).toArray, by simp⟩

/-- `A[lo .. lo+len] <- f 0, f 1, …` and every other element unchanged (00_scope.md R14). -/
def overlay (A : Vector (BitVec w) n) (lo len : Nat) (f : Nat → BitVec w) : Vector (BitVec w) n :=
  tabulate n fun i => if lo ≤ i ∧ i < lo + len then f (i - lo) else elemAt A i

/-- The exclusive or of two arrays, element by element. -/
def xorArrays (A B : Vector (BitVec w) n) : Vector (BitVec w) n :=
  tabulate n fun i => elemAt A i ^^^ elemAt B i

/-- `word32(A, k)`: byte `4k` is the least significant (00_scope.md R15, 20_memory.md R82). -/
def word32 (A : Vector Byte n) (k : Nat) : Word :=
  elemAt A (4 * k + 3) ++ elemAt A (4 * k + 2) ++ elemAt A (4 * k + 1) ++ elemAt A (4 * k)

/-- `lane64(A, j)`: byte `8j` is the least significant (00_scope.md R15). -/
def lane64 (A : Vector Byte n) (j : Nat) : Lane :=
  elemAt A (8 * j + 7) ++ elemAt A (8 * j + 6) ++ elemAt A (8 * j + 5) ++ elemAt A (8 * j + 4) ++
  elemAt A (8 * j + 3) ++ elemAt A (8 * j + 2) ++ elemAt A (8 * j + 1) ++ elemAt A (8 * j)

/-- Byte `k` of a word or lane, byte 0 the least significant. -/
def leByte (x : BitVec w) (k : Nat) : Byte := x.extractLsb' (8 * k) 8

/-- Write a word back: the bytes `A[4k], …, A[4k+3]` become those of `v` (20_memory.md R82). -/
def putWord32 (A : Vector Byte n) (k : Nat) (v : Word) : Vector Byte n :=
  overlay A (4 * k) 4 (leByte v)

/-- The 24-lane view of a 192-byte array (40_bashf.md R150). -/
def lanesOf (A : Vector Byte 192) : Vector Lane 24 := tabulate 24 (lane64 A)

/-- The 192 bytes of 24 lanes, little-endian (40_bashf.md R160). -/
def bytesOf (W : Vector Lane 24) : Vector Byte 192 :=
  tabulate 192 fun i => leByte (elemAt W (i / 8)) (i % 8)

end Sys2Proof.Machine
end

