-- ==== Sys2Proof/Machine/BashF.lean ====
section
/-! DEFINITION. The Bash-f permutation (40_bashf.md): the S-transform, its rotation table, the round constants, the
lane maps, the round, the 24-round permutation on lanes and on bytes. -/

namespace Sys2Proof.Machine

open Sys2Proof

/-- The rotation counts `(m1, n1, m2, n2)` of one S-transform (40_bashf.md R151). -/
structure Rot where
  m1 : Nat
  n1 : Nat
  m2 : Nat
  n2 : Nat
  deriving DecidableEq, Repr

/-- `rotl64` (00_scope.md R16). -/
def rotl64 (x : Lane) (r : Nat) : Lane := x.rotateLeft r

/-- `bashS` (40_bashf.md R151): its lines in their order, each reading the values of the lines above it. The value the
spec's line k gives to `w0`, `w1`, `w2` before the last three lines is `x0`, `x1`, `x2` here. -/
def bashS (w0 w1 w2 : Lane) (r : Rot) : Lane × Lane × Lane :=
  let t2 := rotl64 w0 r.m1
  let x0 := w0 ^^^ w1 ^^^ w2
  let t1 := w1 ^^^ rotl64 x0 r.n1
  let x1 := t1 ^^^ t2
  let x2 := w2 ^^^ rotl64 w2 r.m2 ^^^ rotl64 t1 r.n2
  let u1 := x0 ||| x2
  let u2 := x0 &&& x1
  let u0 := ~~~x2 ||| x1
  (x0 ^^^ u0, x1 ^^^ u1, x2 ^^^ u2)

/-- The rotation table `ROT[0..7]` (40_bashf.md R152). -/
def rotTable : List Rot :=
  [⟨8, 53, 14, 1⟩, ⟨56, 51, 34, 7⟩, ⟨8, 37, 46, 49⟩, ⟨56, 3, 2, 23⟩,
   ⟨8, 21, 14, 33⟩, ⟨56, 19, 34, 39⟩, ⟨8, 5, 46, 17⟩, ⟨56, 35, 2, 55⟩]

/-- `ROT[j]`, `j = 0..7`. -/
def rot (j : Nat) : Rot := rotTable.getD j ⟨0, 0, 0, 0⟩

/-- The round constants `C[0..23]` (40_bashf.md R153). -/
def roundConstants : List Lane :=
  [0x3BF5080AC8BA94B1, 0xC1D1659C1BBD92F6, 0x60E8B2CE0DDEC97B, 0xEC5FB8FE790FBC13,
   0xAA043DE6436706A7, 0x8929FF6A5E535BFD, 0x98BF1E2C50C97550, 0x4C5F8F162864BAA8,
   0x262FC78B14325D54, 0x1317E3C58A192EAA, 0x098BF1E2C50C9755, 0xD8EE19681D669304,
   0x6C770CB40EB34982, 0x363B865A0759A4C1, 0xC73622B47C4C0ACE, 0x639B115A3E260567,
   0xEDE6693460F3DA1D, 0xAAD8D5034F9935A0, 0x556C6A81A7CC9AD0, 0x2AB63540D3E64D68,
   0x155B1AA069F326B4, 0x0AAD8D5034F9935A, 0x0556C6A81A7CC9AD, 0xDE8082CD72DEBC78]

/-- `C[i−1]`, the constant of round `i = 1..24`. -/
def roundConst (i : Nat) : Lane := roundConstants.getD (i - 1) 0

/-- The lane map `P1` (40_bashf.md R154). -/
def laneMap1 (x : Nat) : Nat :=
  if x < 8 then 8 + (x + 2 * (x % 2) + 7) % 8
  else if x < 16 then 8 + (x ^^^ 1)
  else (5 * x + 6) % 8

/-- The lane map `P3` (40_bashf.md R154). -/
def laneMap3 (x : Nat) : Nat := 8 * (x / 8) + (x % 8 + 4) % 8

/-- The lane maps `P0 … P5` (40_bashf.md R154); the schedule uses no other index (R157). -/
def laneMap (k x : Nat) : Nat :=
  match k with
  | 0 => x
  | 1 => laneMap1 x
  | 2 => laneMap1 (laneMap1 x)
  | 3 => laneMap3 x
  | 4 => laneMap1 (laneMap3 x)
  | 5 => laneMap1 (laneMap1 (laneMap3 x))
  | _ => x

/-- One `bashS` call of a round, on the lane triple `(p(j), p(j+8), p(j+16))` (40_bashf.md R156). -/
def sboxTriple (p : Nat → Nat) (W : Vector Lane 24) (j : Nat) : Vector Lane 24 :=
  let out := bashS (elemAt W (p j)) (elemAt W (p (j + 8))) (elemAt W (p (j + 16))) (rot j)
  putAt (putAt (putAt W (p j) out.1) (p (j + 8)) out.2.1) (p (j + 16)) out.2.2

/-- The eight `bashS` calls of a round. -/
def sboxLayer (p : Nat → Nat) (W : Vector Lane 24) : Vector Lane 24 :=
  (List.range 8).foldl (sboxTriple p) W

/-- One round `bashR(W, p, p_next, i)` (40_bashf.md R156). -/
def bashR (W : Vector Lane 24) (p pNext : Nat → Nat) (i : Nat) : Vector Lane 24 :=
  let W' := sboxLayer p W
  putAt W' (pNext 23) (elemAt W' (pNext 23) ^^^ roundConst i)

/-- `bash_f0(W)`: rounds 1 to 24, round `i` with `P_((i−1) mod 6)` and `P_(i mod 6)` (40_bashf.md R157, R158). -/
def bashF0 (W : Vector Lane 24) : Vector Lane 24 :=
  (List.range 24).foldl (fun W k => bashR W (laneMap (k % 6)) (laneMap ((k + 1) % 6)) (k + 1)) W

/-- `bash_f(A)` on 192 bytes: decode to lanes, `bash_f0`, encode back (40_bashf.md R150, R160). -/
def bashF (A : Vector Byte 192) : Vector Byte 192 := bytesOf (bashF0 (lanesOf A))

end Sys2Proof.Machine
end

