-- ==== Sys2Proof/Machine/State.lean ====
section
/-! DEFINITION. The state of the engine and of its surroundings (10_state.md R30), the reasons a step can stop, and
the state after reset (10_state.md R53). -/

namespace Sys2Proof.Machine

open Sys2Proof

/-- The codes `STATUS.err` can hold (60_exceptions.md R360); codes 6 to 15 are "never written". -/
inductive ErrCode where
  /-- 0: no error. -/
  | ok
  /-- 1: a precondition on `l`, `d`, `|ann|` or `|key|` fails. -/
  | invalidLength
  /-- 2: encryption or decryption on a context not in key mode. -/
  | invalidCommand
  /-- 3: a reserved `OP`, or a reserved bit of the format set. -/
  | illegalCommand
  /-- 4: a byte count above 192. -/
  | badCount
  /-- 5: the command needs another `CTX.mode`. -/
  | wrongMode
  deriving DecidableEq, Repr

/-- `CTX.mode`: which driver owns S (10_state.md R36); value 3 is reserved and never held. -/
inductive Mode where
  | none
  | hash
  | prg
  deriving DecidableEq, Repr

/-- `CTX.phase`: the last phase set (10_state.md R36, R39); values 6 and 7 are reserved and never held. -/
inductive Phase where
  | none
  | fresh
  | absorb
  | squeeze
  | encr
  | decr
  deriving DecidableEq, Repr

/-- The context register CTX, by fields (10_state.md R36). -/
structure Ctx where
  /-- bits 7:0, the current offset in the rate -/
  pos : BitVec 8
  /-- bits 15:8, the rate in bytes -/
  buffLen : BitVec 8
  /-- bits 24:16, the security level -/
  l : BitVec 9
  /-- bits 26:25, the capacity parameter -/
  d : BitVec 2
  /-- bits 28:27 -/
  mode : Mode
  /-- bits 31:29 -/
  phase : Phase
  deriving DecidableEq, Repr

/-- CTX after reset: the whole word is 0 (10_state.md R53). -/
def Ctx.zero : Ctx := { pos := 0, buffLen := 0, l := 0, d := 0, mode := .none, phase := .none }

/-- One action of the host or the platform (70_reset_and_hazards.md R400, R411). -/
inductive HostEvent where
  /-- Nothing is done to the engine in this step. -/
  | idle
  /-- A bus read of `width` bits at offset `off` (20_memory.md R80). -/
  | read (off : Offset) (width : Nat)
  /-- A bus write of `width` bits at offset `off` (20_memory.md R80). -/
  | write (off : Offset) (width : Nat) (value : Word)
  /-- The polling loop WAIT: STATUS is read until its bit 0 is 0 (30_encoding.md R125). -/
  | wait
  /-- The hardware reset input is asserted (70_reset_and_hazards.md R400). -/
  | hwReset
  deriving DecidableEq, Repr

/-- The machine. The first fields are the state of 10_state.md R30; `delay`, `inbox`, `readLog` and `draws` are the
model's own (INVENTORY.md, "State"). ID and the constant tables are constants, CMD holds no value, and
`STATUS.keymode` is computed. -/
structure State where
  /-- `STATUS.busy` (10_state.md R33) -/
  busy : Bool
  /-- `STATUS.vok` (10_state.md R33) -/
  vok : Bool
  /-- `STATUS.err` (10_state.md R33) -/
  err : ErrCode
  /-- `STATUS.errop` (10_state.md R33) -/
  errop : BitVec 8
  /-- CTX (10_state.md R36) -/
  ctx : Ctx
  /-- the Bash state S (10_state.md R40) -/
  S : Vector Byte 192
  /-- the scratch T (10_state.md R44) -/
  T : Vector Byte 192
  /-- the data window DBUF (10_state.md R46) -/
  dbuf : Vector Byte 192
  /-- the Belt key KEY (10_state.md R48) -/
  key : Vector Word 8
  /-- the Belt block BLK (10_state.md R49) -/
  blk : Vector Word 4
  /-- PENDING, the command accepted and not yet completed (10_state.md R43) -/
  pending : Option Word
  /-- the model's: how many steps pass before the pending command completes (assumption 2) -/
  delay : Nat
  /-- the model's: the coming actions of the host and the platform (assumption 1) -/
  inbox : List HostEvent
  /-- the model's: the values the host has read, oldest first (assumption 1) -/
  readLog : List Word
  /-- the model's: the number of the next unspecified read (assumption 3) -/
  draws : Nat
  deriving DecidableEq, Repr

/-- The reasons the machine stops with a fault. -/
inductive Fault where
  /-- A bus access of a width other than 32 bits, or at an offset that is not a multiple of 4. The spec: "The model
  treats an access error as a fault of the host program" (20_memory.md R83, 60_exceptions.md R368). Raised only by a
  host access, never by a command. Safe: the engine itself would go on with its state unchanged. -/
  | accessError (off : Offset) (width : Nat)
  deriving DecidableEq, Repr

/-- The reasons an instruction has no meaning. -/
inductive Refusal where
  /-- Raised by an arm of `exec` for an instruction not reached yet; safe. No arm raises it: all 21 are modelled. -/
  | notModelled (mnemonic : String)
  deriving DecidableEq, Repr

/-- Every byte array after reset: 192 bytes `0x00` (10_state.md R53). -/
def zeroBytes : Vector Byte 192 := Vector.replicate 192 0

/-- The state after a hardware reset (10_state.md R53, 70_reset_and_hazards.md R400): every element of the spec at the
value R53 gives. The model's own fields start empty and at 0 (DESIGN CHOICE, assumption 15). -/
def State.reset : State where
  busy := false
  vok := false
  err := .ok
  errop := 0
  ctx := Ctx.zero
  S := zeroBytes
  T := zeroBytes
  dbuf := zeroBytes
  key := Vector.replicate 8 0
  blk := Vector.replicate 4 0
  pending := none
  delay := 0
  inbox := []
  readLog := []
  draws := 0

end Sys2Proof.Machine
end

