-- ==== Sys2Proof/Machine/Flags.lean ====
section
/-! DEFINITION. The flags of the engine: the STATUS word and its fields (10_state.md R33 to R35, R52). -/

namespace Sys2Proof.Machine

open Sys2Proof

/-- One flag bit. -/
def bit (b : Bool) : BitVec 1 := BitVec.ofBool b

/-- The error code as bits 7:4 of STATUS hold it (60_exceptions.md R360). -/
def ErrCode.toBits : ErrCode → BitVec 4
  | .ok => 0
  | .invalidLength => 1
  | .invalidCommand => 2
  | .illegalCommand => 3
  | .badCount => 4
  | .wrongMode => 5

/-- The key-mode predicate of CTX: PRG mode and `16·(192 − buff_len) = l·(2 + d)` (10_state.md R35), with the
subtraction moved to the other side, so that the equation is the one over the integers. -/
def keyMode (c : Ctx) : Bool :=
  c.mode == .prg && (16 * 192 == c.l.toNat * (2 + c.d.toNat) + 16 * c.buffLen.toNat)

/-- The STATUS word: `busy` 0, `keymode` 1, `vok` 2, reserved 3, `err` 7:4, `errop` 15:8, reserved 31:16
(10_state.md R33). -/
def statusWord (s : State) : Word :=
  (0#16 ++ s.errop ++ s.err.toBits ++ 0#1 ++ bit s.vok ++ bit (keyMode s.ctx) ++ bit s.busy :
    BitVec (16 + 8 + 4 + 1 + 1 + 1 + 1))

/-- Write `STATUS.vok` (41_hash.md R207). -/
def setVok (b : Bool) (s : State) : State := { s with vok := b }

/-- Write `STATUS.err` and `STATUS.errop`, which are always written together (10_state.md R52, 60_exceptions.md R364). -/
def setErr (code : ErrCode) (op : Byte) (s : State) : State := { s with err := code, errop := op }

/-- `STATUS.busy <- 0` and `PENDING <- none`, the completion of a command (60_exceptions.md R362). -/
def complete (s : State) : State := { s with busy := false, pending := none }

/-- `STATUS.busy <- 1` and `PENDING <- w`, the acceptance of a command (60_exceptions.md R361), to be completed after
`wait` further steps (assumption 2). -/
def accept (w : Word) (wait : Nat) (s : State) : State :=
  { s with busy := true, pending := some w, delay := wait }

end Sys2Proof.Machine
end

