-- ==== Sys2Proof/Config.lean ====
section
/-! DEFINITION. The parameters the spec leaves OPEN (00_scope.md R11). Each is a constant without a body: nothing
can be proved about its value, so a theorem holds for every choice of it. -/

namespace Sys2Proof

/-- BASE, the physical base address of the register window (00_scope.md R11, 20_memory.md R80, R86; 93 U12). -/
opaque Config.base : Nat

/-- T_CMD(w, CTX) − 1 for a command word and the CTX word it is accepted under: T_CMD itself is this value plus one,
so it is a positive integer, finite for every command (70_reset_and_hazards.md R410; 93 U13). -/
opaque Config.tCmd : Word → Word → Nat

/-- The value the n-th read of CTX, DBUF, S, KEY or BLK while busy returns: a fresh draw, free of any law
(20_memory.md R89; 93 U3). -/
opaque Config.busyRead : Nat → Word

end Sys2Proof
end

