-- ==== Sys2Proof/Machine/Operands.lean ====
section
/-! DEFINITION. What commands and host accesses name: the CTX word and its legality (10_state.md R36, R37), the
byte-string operands in DBUF (10_state.md R46, 30_encoding.md R114, R116, R117), and the places of the register window
(20_memory.md R84). -/

namespace Sys2Proof.Machine

open Sys2Proof

/-! ### The CTX word -/

/-- `mode` as bits 28:27 of CTX (10_state.md R36). -/
def Mode.toBits : Mode → BitVec 2
  | .none => 0
  | .hash => 1
  | .prg => 2

/-- The mode two bits stand for; 3 is reserved (10_state.md R36). -/
def Mode.ofBits (b : BitVec 2) : Option Mode :=
  match b.toNat with
  | 0 => some .none
  | 1 => some .hash
  | 2 => some .prg
  | _ => Option.none

/-- `phase` as bits 31:29 of CTX (10_state.md R36). -/
def Phase.toBits : Phase → BitVec 3
  | .none => 0
  | .fresh => 1
  | .absorb => 2
  | .squeeze => 3
  | .encr => 4
  | .decr => 5

/-- The phase three bits stand for; 6 and 7 are reserved (10_state.md R36). -/
def Phase.ofBits (b : BitVec 3) : Option Phase :=
  match b.toNat with
  | 0 => some .none
  | 1 => some .fresh
  | 2 => some .absorb
  | 3 => some .squeeze
  | 4 => some .encr
  | 5 => some .decr
  | _ => Option.none

/-- The CTX word of a context (10_state.md R36). -/
def Ctx.toWord (c : Ctx) : Word :=
  (c.phase.toBits ++ c.mode.toBits ++ c.d ++ c.l ++ c.buffLen ++ c.pos : BitVec (3 + 2 + 2 + 9 + 8 + 8))

/-- The context a CTX word stands for; none for a reserved mode or phase (93 U8). -/
def Ctx.ofWord (v : Word) : Option Ctx :=
  match Mode.ofBits (v.extractLsb' 27 2), Phase.ofBits (v.extractLsb' 29 3) with
  | some m, some p =>
    some { pos := v.extractLsb' 0 8, buffLen := v.extractLsb' 8 8, l := v.extractLsb' 16 9,
           d := v.extractLsb' 25 2, mode := m, phase := p }
  | _, _ => Option.none

/-- The rate of a Prg context, `192 − l·(2+d)/16` keyed and `192 − d·l/4` not (42_prg.md R241). -/
def rate (l d : Nat) (keyed : Bool) : Nat :=
  if keyed then 192 - l * (2 + d) / 16 else 192 - d * l / 4

/-- The levels of a Prg context (42_prg.md R250). -/
def prgLevel (l : Nat) : Bool := l == 128 || l == 192 || l == 256

/-- The capacity parameters of a Prg context (42_prg.md R250). -/
def prgCapacity (d : Nat) : Bool := d == 1 || d == 2

/-- The levels HASH_INIT accepts (41_hash.md R200; 90 C1). -/
def hashLevel (l : Nat) : Bool := l % 16 == 0 && decide (l ≤ 256)

/-- A CTX value is legal (10_state.md R37). -/
def Ctx.legal (c : Ctx) : Bool :=
  match c.mode with
  | .none => c == Ctx.zero
  | .hash =>
    hashLevel c.l.toNat && c.d == 0 && c.buffLen.toNat == 192 - c.l.toNat / 2 &&
      decide (c.pos.toNat < c.buffLen.toNat) && c.phase == .absorb
  | .prg =>
    prgLevel c.l.toNat && prgCapacity c.d.toNat &&
      (c.buffLen.toNat == rate c.l.toNat c.d.toNat false || c.buffLen.toNat == rate c.l.toNat c.d.toNat true) &&
      decide (c.pos.toNat < c.buffLen.toNat) && !(c.phase == .none)

/-- The context a legal CTX word stands for; none when the word is illegal (10_state.md R37, R38). -/
def Ctx.ofLegalWord (v : Word) : Option Ctx :=
  match Ctx.ofWord v with
  | some c => if c.legal then some c else Option.none
  | Option.none => Option.none

/-! ### Byte-string operands in DBUF -/

/-- Preconditions on the lengths of an annotation and a key at level `l` (42_prg.md R250, R251). -/
def headerLengths (l ann key : Nat) : Bool :=
  decide (ann ≤ 60) && ann % 4 == 0 && decide (key ≤ 60) && key % 4 == 0 && (key == 0 || decide (l / 8 ≤ key))

/-- A byte count that DBUF can hold (30_encoding.md R114). -/
def countFits (n : Nat) : Bool := decide (n ≤ 192)

/-- Byte `i` of the header `[4·A + K/4] ‖ DBUF[0 .. A+K]` of PRG_START and PRG_RESTART (42_prg.md R250, R251): the
annotation `DBUF[0..A]` and the key `DBUF[A..A+K]` follow the length byte. -/
def headerByte (dbuf : Vector Byte 192) (ann key i : Nat) : Byte :=
  if i = 0 then BitVec.ofNat 8 (4 * ann + key / 4) else elemAt dbuf (i - 1)

/-! ### Places of the register window -/

/-- What a 4-byte-aligned offset of the window names (20_memory.md R84); an array's word `k` is its bytes
`4k .. 4k+3`. -/
inductive Place where
  | id
  | cmd
  | status
  | ctx
  | dbuf (k : Nat)
  | S (k : Nat)
  | key (j : Nat)
  | blk (j : Nat)
  | reserved
  deriving DecidableEq, Repr

/-- The address map (20_memory.md R84). -/
def placeAt (off : Offset) : Place :=
  let o := off.toNat
  if o = 0x000 then .id
  else if o = 0x004 then .cmd
  else if o = 0x008 then .status
  else if o = 0x00C then .ctx
  else if 0x100 ≤ o ∧ o < 0x1C0 then .dbuf ((o - 0x100) / 4)
  else if 0x200 ≤ o ∧ o < 0x2C0 then .S ((o - 0x200) / 4)
  else if 0x400 ≤ o ∧ o < 0x420 then .key ((o - 0x400) / 4)
  else if 0x420 ≤ o ∧ o < 0x430 then .blk ((o - 0x420) / 4)
  else .reserved

/-- A defined access: 32 bits wide, at a multiple of 4 (20_memory.md R83). -/
def accessDefined (off : Offset) (width : Nat) : Bool := width == 32 && off.toNat % 4 == 0

/-- The physical address of an offset (20_memory.md R80). -/
def physAddr (off : Offset) : Nat := Config.base + off.toNat

/-- The offset a physical address falls on, when it lies in the window (10_state.md R54, 20_memory.md R86). -/
def offsetOf (addr : Nat) : Option Offset :=
  if Config.base ≤ addr ∧ addr < Config.base + 4096 then some (BitVec.ofNat 12 (addr - Config.base)) else Option.none

end Sys2Proof.Machine
end

