-- ==== Sys2Proof/Machine/Ops.lean ====
section
/-! DEFINITION. The shared operations of the commands: raising an error and returning from one, the check order, the
byte loop of the step commands, the sponge moves `adv` and `commit`, and reset. -/

namespace Sys2Proof.Machine

open Sys2Proof

/-- What a command ends in; no command of this engine ends in a fault or a refusal. -/
abbrev Outcome := Host.Outcome State Fault Refusal

/-! ### Errors: the engine's form of an exception -/

/-- `raise Error(code)` (60_exceptions.md R364): `err` takes the code, `errop` the failing word's `OP`, and no other
state element is written. There is no transfer of control (R366). -/
def raiseError (code : ErrCode) (op : Byte) (s : State) : Outcome := .next (setErr code op s)

/-- The return from an error (60_exceptions.md R366, 44_control.md R341): `err` and `errop` become 0. -/
def clearError (s : State) : State := setErr .ok 0 s

/-- The code of the first check that fails, in the order given; `ok` when none does (60_exceptions.md R363). -/
def firstFailure : List (Bool × ErrCode) → ErrCode
  | [] => .ok
  | (holds, code) :: rest => if holds then firstFailure rest else code

/-- A command with opcode `op`: every check comes before the first write, so it performs all of its effect or raises
one error and changes nothing else (60_exceptions.md R363, R365; 42_prg.md R246). -/
def checked (op : Byte) (checks : List (Bool × ErrCode)) (effect : State → State) (s : State) : Outcome :=
  match firstFailure checks with
  | .ok => .next (effect s)
  | code => raiseError code op s

/-- The mode check of the hash commands (41_hash.md preamble). -/
def needHash (s : State) : Bool × ErrCode := (s.ctx.mode == .hash, .wrongMode)

/-- The mode check of the Prg commands (42_prg.md R246). -/
def needPrg (s : State) : Bool × ErrCode := (s.ctx.mode == .prg, .wrongMode)

/-- The count check of the step commands (60_exceptions.md R360). -/
def needCount (n : Nat) : Bool × ErrCode := (countFits n, .badCount)

/-- The key-mode check of encryption and decryption (42_prg.md R246). -/
def needKeyMode (s : State) : Bool × ErrCode := (keyMode s.ctx, .invalidCommand)

/-! ### The sponge -/

/-- `for i in 0 .. n−1: body i`, the loop of a step command. -/
def forBytes : Nat → (Nat → State → State) → State → State
  | 0, _, s => s
  | n + 1, body, s => body n (forBytes n body s)

/-- `CTX.pos <- v`. -/
def setPos (v : BitVec 8) (s : State) : State := { s with ctx := { s.ctx with pos := v } }

/-- `CTX.phase <- p`. -/
def setPhase (p : Phase) (s : State) : State := { s with ctx := { s.ctx with phase := p } }

/-- `S[CTX.pos]`. -/
def rateByte (s : State) : Byte := elemAt s.S s.ctx.pos.toNat

/-- `S[CTX.pos] <- x`. -/
def setRateByte (x : Byte) (s : State) : State := { s with S := putAt s.S s.ctx.pos.toNat x }

/-- `DBUF[i] <- x`. -/
def setDbufByte (i : Nat) (x : Byte) (s : State) : State := { s with dbuf := putAt s.dbuf i x }

/-- `bash_f(S)`. -/
def permute (s : State) : State := { s with S := bashF s.S }

/-- `adv()` (42_prg.md R243, and the same lines of 41_hash.md R202): the permutation runs as soon as the last rate
byte has been used. -/
def adv (s : State) : State :=
  if s.ctx.pos + 1 = s.ctx.buffLen then setPos 0 (permute s) else setPos (s.ctx.pos + 1) s

/-- The commit codes (42_prg.md R240). -/
def codeNull : Byte := 0x01
def codeKey : Byte := 0x05
def codeData : Byte := 0x09
def codeText : Byte := 0x0D
def codeOut : Byte := 0x11

/-- S with a commit code and the capacity padding XORed in: `S[pos]` and then `S[buff_len]` (42_prg.md R242). -/
def commitBlock (code : Byte) (A : Vector Byte 192) (c : Ctx) : Vector Byte 192 :=
  let A1 := putAt A c.pos.toNat (elemAt A c.pos.toNat ^^^ code)
  putAt A1 c.buffLen.toNat (elemAt A1 c.buffLen.toNat ^^^ 0x80)

/-- `commit(code)` (42_prg.md R242). -/
def commit (code : Byte) (s : State) : State :=
  setPos 0 (permute { s with S := commitBlock code s.S s.ctx })

/-! ### Reset -/

/-- Every state element of the engine takes its value of 10_state.md R53, for SRESET and for a hardware reset
(44_control.md R342, 70_reset_and_hazards.md R400, R401). The host's and the model's own fields are no part of it
(assumption 12). -/
def resetEngine (s : State) : State :=
  { State.reset with inbox := s.inbox, readLog := s.readLog, draws := s.draws }

end Sys2Proof.Machine
end

