-- ==== Sys2Proof/Machine/Bus.lean ====
section
/-! DEFINITION. The host's side: reads and writes of the register window, the acceptance of a command, hardware reset,
and one action of the host or the platform (20_memory.md, 60_exceptions.md R361, 70_reset_and_hazards.md R400). -/

namespace Sys2Proof.Machine

open Sys2Proof

/-- The constant the ID register reads (10_state.md R31). -/
def idValue : Word := 0x42454532

/-- The place is one whose reads are unspecified while busy: CTX, DBUF, S, KEY, BLK (20_memory.md R89). -/
def unreadableWhileBusy : Place → Bool
  | .id => false
  | .cmd => false
  | .status => false
  | .ctx => true
  | .dbuf _ => true
  | .S _ => true
  | .key _ => true
  | .blk _ => true
  | .reserved => false

/-- The word a place holds (20_memory.md R82, R84, R85; 10_state.md R31, R32). -/
def placeWord (s : State) : Place → Word
  | .id => idValue
  | .cmd => 0
  | .status => statusWord s
  | .ctx => s.ctx.toWord
  | .dbuf k => word32 s.dbuf k
  | .S k => word32 s.S k
  | .key j => elemAt s.key j
  | .blk j => elemAt s.blk j
  | .reserved => 0

/-- The value a defined read returns: while busy, a draw for the unreadable places (20_memory.md R89), else the word of
the place. -/
def readValue (off : Offset) (s : State) : Word :=
  if s.busy && unreadableWhileBusy (placeAt off) then Config.busyRead s.draws else placeWord s (placeAt off)

/-- A defined read: the host gets the value; no engine state changes (20_memory.md R90). A draw is used up. -/
def busRead (off : Offset) (s : State) : State :=
  { s with readLog := s.readLog ++ [readValue off s],
           draws := if s.busy && unreadableWhileBusy (placeAt off) then s.draws + 1 else s.draws }

/-- A write of CMD: the acceptance of a command (60_exceptions.md R361). -/
def issue (w : Word) (s : State) : State :=
  if s.busy then s
  else if s.err = .ok ∨ w = 0x00000001 ∨ w = 0x00000002 then accept w (Config.tCmd w s.ctx.toWord) s
  else s

/-- A write of CTX while idle: taken when legal, ignored otherwise (10_state.md R38). -/
def writeCtx (v : Word) (s : State) : State :=
  match Ctx.ofLegalWord v with
  | some c => { s with ctx := c }
  | none => s

/-- A write to a place while idle (20_memory.md R84, R85, R90). -/
def writePlace (v : Word) (s : State) : Place → State
  | .id => s
  | .cmd => issue v s
  | .status => s
  | .ctx => writeCtx v s
  | .dbuf k => { s with dbuf := putWord32 s.dbuf k v }
  | .S k => { s with S := putWord32 s.S k v }
  | .key j => { s with key := putAt s.key j v }
  | .blk j => { s with blk := putAt s.blk j v }
  | .reserved => s

/-- A defined write: ignored while busy (20_memory.md R88), else the write to the place. -/
def busWrite (off : Offset) (v : Word) (s : State) : State :=
  if s.busy then s else writePlace v s (placeAt off)

/-- The hardware reset input: the engine takes its reset values, a pending command is abandoned
(70_reset_and_hazards.md R400, R401). -/
def hardwareReset (s : State) : State := resetEngine s

/-- One poll of WAIT: STATUS is read, and the poll is repeated while its bit 0 is 1 (30_encoding.md R125). -/
def pollStatus (s : State) : State :=
  let s' := busRead 0x008 s
  if s.busy then { s' with inbox := .wait :: s'.inbox } else s'

/-- One action of the host or the platform. An undefined access is a fault of the host (20_memory.md R83,
60_exceptions.md R368), busy or not (assumption 4). -/
def hostAction (e : HostEvent) (s : State) : Outcome :=
  match e with
  | .idle => .next s
  | .read off width => if accessDefined off width then .next (busRead off s) else .fault (.accessError off width)
  | .write off width v =>
    if accessDefined off width then .next (busWrite off v s) else .fault (.accessError off width)
  | .wait => .next (pollStatus s)
  | .hwReset => .next (hardwareReset s)

/-- The surroundings move: the next action of the inbox is taken, and with none the engine stays as it is
(60_exceptions.md R376: "Between commands it is idle ... and holds all of its state"). -/
def surroundings (s : State) : Outcome :=
  match s.inbox with
  | [] => .next s
  | e :: rest => hostAction e { s with inbox := rest }

end Sys2Proof.Machine
end

