-- ==== Sys2Proof/Machine/Belt.lean ====
section
/-! DEFINITION. The Belt block cipher core (43_belt.md): its tables, G-functions, round, the two transforms and the
two commands. -/

namespace Sys2Proof.Machine

open Sys2Proof

/-- The S-box `H[0..255]`, a row of sixteen entries a line (43_belt.md R301). -/
def sboxTable : List Byte :=
  [0xB1, 0x94, 0xBA, 0xC8, 0x0A, 0x08, 0xF5, 0x3B, 0x36, 0x6D, 0x00, 0x8E, 0x58, 0x4A, 0x5D, 0xE4] ++
  [0x85, 0x04, 0xFA, 0x9D, 0x1B, 0xB6, 0xC7, 0xAC, 0x25, 0x2E, 0x72, 0xC2, 0x02, 0xFD, 0xCE, 0x0D] ++
  [0x5B, 0xE3, 0xD6, 0x12, 0x17, 0xB9, 0x61, 0x81, 0xFE, 0x67, 0x86, 0xAD, 0x71, 0x6B, 0x89, 0x0B] ++
  [0x5C, 0xB0, 0xC0, 0xFF, 0x33, 0xC3, 0x56, 0xB8, 0x35, 0xC4, 0x05, 0xAE, 0xD8, 0xE0, 0x7F, 0x99] ++
  [0xE1, 0x2B, 0xDC, 0x1A, 0xE2, 0x82, 0x57, 0xEC, 0x70, 0x3F, 0xCC, 0xF0, 0x95, 0xEE, 0x8D, 0xF1] ++
  [0xC1, 0xAB, 0x76, 0x38, 0x9F, 0xE6, 0x78, 0xCA, 0xF7, 0xC6, 0xF8, 0x60, 0xD5, 0xBB, 0x9C, 0x4F] ++
  [0xF3, 0x3C, 0x65, 0x7B, 0x63, 0x7C, 0x30, 0x6A, 0xDD, 0x4E, 0xA7, 0x79, 0x9E, 0xB2, 0x3D, 0x31] ++
  [0x3E, 0x98, 0xB5, 0x6E, 0x27, 0xD3, 0xBC, 0xCF, 0x59, 0x1E, 0x18, 0x1F, 0x4C, 0x5A, 0xB7, 0x93] ++
  [0xE9, 0xDE, 0xE7, 0x2C, 0x8F, 0x0C, 0x0F, 0xA6, 0x2D, 0xDB, 0x49, 0xF4, 0x6F, 0x73, 0x96, 0x47] ++
  [0x06, 0x07, 0x53, 0x16, 0xED, 0x24, 0x7A, 0x37, 0x39, 0xCB, 0xA3, 0x83, 0x03, 0xA9, 0x8B, 0xF6] ++
  [0x92, 0xBD, 0x9B, 0x1C, 0xE5, 0xD1, 0x41, 0x01, 0x54, 0x45, 0xFB, 0xC9, 0x5E, 0x4D, 0x0E, 0xF2] ++
  [0x68, 0x20, 0x80, 0xAA, 0x22, 0x7D, 0x64, 0x2F, 0x26, 0x87, 0xF9, 0x34, 0x90, 0x40, 0x55, 0x11] ++
  [0xBE, 0x32, 0x97, 0x13, 0x43, 0xFC, 0x9A, 0x48, 0xA0, 0x2A, 0x88, 0x5F, 0x19, 0x4B, 0x09, 0xA1] ++
  [0x7E, 0xCD, 0xA4, 0xD0, 0x15, 0x44, 0xAF, 0x8C, 0xA5, 0x84, 0x50, 0xBF, 0x66, 0xD2, 0xE8, 0x8A] ++
  [0xA2, 0xD7, 0x46, 0x52, 0x42, 0xA8, 0xDF, 0xB3, 0x69, 0x74, 0xC5, 0x51, 0xEB, 0x23, 0x29, 0x21] ++
  [0xD4, 0xEF, 0xD9, 0xB4, 0x3A, 0x62, 0x28, 0x75, 0x91, 0x14, 0x10, 0xEA, 0x77, 0x6C, 0xDA, 0x1D]

/-- `H[x]` (43_belt.md R301). -/
def sboxH (x : Byte) : Byte := sboxTable.getD x.toNat 0

/-- `rotl32` (00_scope.md R16). -/
def rotl32 (x : Word) (r : Nat) : Word := x.rotateLeft r

/-- `H5[x]` (43_belt.md R302). -/
def tableH5 (x : Byte) : Word := rotl32 ((sboxH x).setWidth 32) 5

/-- `H13[x]`, `H5[x]` rotated by 8 (43_belt.md R302). -/
def tableH13 (x : Byte) : Word := rotl32 (tableH5 x) 8

/-- `H21[x]`, `H5[x]` rotated by 16 (43_belt.md R302). -/
def tableH21 (x : Byte) : Word := rotl32 (tableH5 x) 16

/-- `H29[x]`, `H5[x]` rotated by 24 (43_belt.md R302). -/
def tableH29 (x : Byte) : Word := rotl32 (tableH5 x) 24

/-- `g5(u)` (43_belt.md R303). -/
def g5 (u : Word) : Word :=
  tableH5 (leByte u 0) ||| tableH13 (leByte u 1) ||| tableH21 (leByte u 2) ||| tableH29 (leByte u 3)

/-- `g13(u)` (43_belt.md R303). -/
def g13 (u : Word) : Word :=
  tableH13 (leByte u 0) ||| tableH21 (leByte u 1) ||| tableH29 (leByte u 2) ||| tableH5 (leByte u 3)

/-- `g21(u)` (43_belt.md R303). -/
def g21 (u : Word) : Word :=
  tableH21 (leByte u 0) ||| tableH29 (leByte u 1) ||| tableH5 (leByte u 2) ||| tableH13 (leByte u 3)

/-- The four words of a block or of the working variables `(a, b, c, d)` (43_belt.md R300, R305). -/
structure Quad where
  a : Word
  b : Word
  c : Word
  d : Word
  deriving DecidableEq, Repr

/-- One round, under the round keys `k 1 … k 7` (43_belt.md R305): its lines in their order, each reading the values
the lines above it wrote. -/
def beltRound (q : Quad) (k : Nat → Word) (i : Nat) : Quad :=
  let b := q.b ^^^ g5 (q.a + k 1)
  let c := q.c ^^^ g21 (q.d + k 2)
  let a := q.a - g13 (b + k 3)
  let e := g21 (b + c + k 4) ^^^ BitVec.ofNat 32 (i + 1)
  let b := b + e
  let c := c - e
  let d := q.d + g13 (c + k 5)
  let b := b ^^^ g21 (a + k 6)
  let c := c ^^^ g5 (d + k 7)
  { a, b, c, d }

/-- The round keys of round `i` of encryption: `k_j = key[(7i + j − 1) mod 8]` (43_belt.md R306). -/
def encrKeys (key : Vector Word 8) (i j : Nat) : Word := elemAt key ((7 * i + j - 1) % 8)

/-- The round keys of round `i` of decryption: the tuple of encryption reversed (43_belt.md R308). -/
def decrKeys (key : Vector Word 8) (i j : Nat) : Word := encrKeys key i (8 - j)

/-- `(a, b, c, d) <- (b, d, a, c)` (43_belt.md R307). -/
def Quad.permuteEncr (q : Quad) : Quad := { a := q.b, b := q.d, c := q.a, d := q.c }

/-- `(a, b, c, d) <- (c, a, d, b)` (43_belt.md R308). -/
def Quad.permuteDecr (q : Quad) : Quad := { a := q.c, b := q.a, c := q.d, d := q.b }

/-- `Encr(x, key)` (43_belt.md R307). -/
def beltEncr (key : Vector Word 8) (x : Quad) : Quad :=
  ((List.range 8).foldl (fun q i => (beltRound q (encrKeys key i) i).permuteEncr) x).permuteEncr

/-- `Decr(y, key)`, rounds 7 down to 0 (43_belt.md R308). -/
def beltDecr (key : Vector Word 8) (y : Quad) : Quad :=
  ((List.range 8).foldl (fun q j => (beltRound q (decrKeys key (7 - j)) (7 - j)).permuteDecr) y).permuteDecr

/-- The block BLK as the words `x[0..3]` (43_belt.md R300). -/
def quadOf (b : Vector Word 4) : Quad :=
  { a := elemAt b 0, b := elemAt b 1, c := elemAt b 2, d := elemAt b 3 }

/-- The words `x[0..3]` as the block BLK. -/
def quadBlock (q : Quad) : Vector Word 4 := #v[q.a, q.b, q.c, q.d]

/-- BELT_ENC (43_belt.md R309). -/
def execBeltEnc (s : State) : Outcome := .next { s with blk := quadBlock (beltEncr s.key (quadOf s.blk)) }

/-- BELT_DEC (43_belt.md R310). -/
def execBeltDec (s : State) : Outcome := .next { s with blk := quadBlock (beltDecr s.key (quadOf s.blk)) }

end Sys2Proof.Machine
end

