-- ==== Sys2Proof/Machine/Control.lean ====
section
/-! DEFINITION. The engine control commands and BASHF (44_control.md, 40_bashf.md R161). They run in every mode and
fail no check once decoded. -/

namespace Sys2Proof.Machine

open Sys2Proof

/-- NOP: no effect (44_control.md R340). -/
def execNop (s : State) : Outcome := .next s

/-- CLRERR: `err` and `errop` become 0 (44_control.md R341). -/
def execClrerr (s : State) : Outcome := .next (clearError s)

/-- SRESET: every state element takes its reset value (44_control.md R342). -/
def execSreset (s : State) : Outcome := .next (resetEngine s)

/-- BASHF: `bash_f(S)`; CTX is neither read nor written (40_bashf.md R161). -/
def execBashf (s : State) : Outcome := .next (permute s)

end Sys2Proof.Machine
end

