-- ==== Sys2Proof/Machine/Hash.lean ====
section
/-! DEFINITION. The Bash hash driver (41_hash.md). -/

namespace Sys2Proof.Machine

open Sys2Proof

/-- The S of a new hash context: all 0 but `S[184] = l/4` (41_hash.md R200). -/
def hashInitBlock (l : Nat) : Vector Byte 192 := putAt zeroBytes 184 (BitVec.ofNat 8 (l / 4))

/-- The CTX of a new hash context (41_hash.md R200). -/
def hashInitCtx (l : Nat) : Ctx :=
  { pos := 0, buffLen := BitVec.ofNat 8 (192 - l / 2), l := BitVec.ofNat 9 l, d := 0, mode := .hash, phase := .absorb }

/-- The effect of HASH_INIT: S and CTX are those of a new context (41_hash.md R200). -/
def startHash (l : Nat) (s : State) : State := { s with S := hashInitBlock l, ctx := hashInitCtx l }

/-- HASH_INIT (41_hash.md R200). -/
def execHashInit (l : Nat) (s : State) : Outcome :=
  checked (opcode (.hashInit l)) [(hashLevel l, .invalidLength)] (startHash l) s

/-- One iteration of HASH_STEP: the byte of DBUF overwrites the rate byte (41_hash.md R202). -/
def hashStepByte (i : Nat) (s : State) : State := adv (setRateByte (elemAt s.dbuf i) s)

/-- HASH_STEP (41_hash.md R202). -/
def execHashStep (n : Nat) (s : State) : Outcome :=
  checked (opcode (.hashStep n)) [needHash s, needCount n] (forBytes n hashStepByte) s

/-- The digest length of a context, `l/4` bytes (41_hash.md R201). -/
def digestLength (c : Ctx) : Nat := c.l.toNat / 4

/-- T before the final permutation: S, zero from `pos` up to the rate, and `0x40` at `pos` (41_hash.md R205). -/
def finalBlock (A : Vector Byte 192) (c : Ctx) : Vector Byte 192 :=
  putAt (overlay A c.pos.toNat (c.buffLen.toNat - c.pos.toNat) fun _ => 0) c.pos.toNat 0x40

/-- `hash_out()`: it writes only T, whose first `l/4` bytes are the digest (41_hash.md R205). -/
def hashOut (s : State) : State := { s with T := bashF (finalBlock s.S s.ctx) }

/-- Copy the digest from T to `DBUF[0 .. l/4]` (41_hash.md R206). -/
def storeDigest (s : State) : State := { s with dbuf := overlay s.dbuf 0 (digestLength s.ctx) (elemAt s.T) }

/-- The effect of HASH_FINAL (41_hash.md R206). -/
def finaliseHash (s : State) : State := storeDigest (hashOut s)

/-- HASH_FINAL (41_hash.md R206). -/
def execHashFinal (s : State) : Outcome := checked (opcode .hashFinal) [needHash s] finaliseHash s

/-- `DBUF[0 .. l/4]` equals the digest in T (41_hash.md R207). -/
def digestMatches (s : State) : Bool :=
  (List.range (digestLength s.ctx)).all fun i => elemAt s.dbuf i == elemAt s.T i

/-- Write the comparison's result to `vok` (41_hash.md R207). -/
def recordVerdict (s : State) : State := setVok (digestMatches s) s

/-- The effect of HASH_VERIFY (41_hash.md R207). -/
def verifyHash (s : State) : State := recordVerdict (hashOut s)

/-- HASH_VERIFY (41_hash.md R207). -/
def execHashVerify (s : State) : Outcome := checked (opcode .hashVerify) [needHash s] verifyHash s

end Sys2Proof.Machine
end

