-- ==== Sys2Proof/Machine/Prg.lean ====
section
/-! DEFINITION. The Bash-Prg programmable sponge (42_prg.md). -/

namespace Sys2Proof.Machine

open Sys2Proof

/-- The preconditions of PRG_START (42_prg.md R250). -/
def startLengths (l d ann key : Nat) : Bool := prgLevel l && prgCapacity d && headerLengths l ann key

/-- The S of a new Prg context: the header, the annotation and the key, `S[184] = l/4 + d`, all else 0
(42_prg.md R250). -/
def startBlock (l d ann key : Nat) (dbuf : Vector Byte 192) : Vector Byte 192 :=
  putAt (overlay zeroBytes 0 (1 + ann + key) (headerByte dbuf ann key)) 184 (BitVec.ofNat 8 (l / 4 + d))

/-- The CTX of a new Prg context (42_prg.md R250). -/
def startCtx (l d ann key : Nat) : Ctx :=
  { pos := BitVec.ofNat 8 (1 + ann + key), buffLen := BitVec.ofNat 8 (rate l d (decide (0 < key))),
    l := BitVec.ofNat 9 l, d := BitVec.ofNat 2 d, mode := .prg, phase := .fresh }

/-- The effect of PRG_START: S and CTX are those of a new context (42_prg.md R250). -/
def startPrg (l d ann key : Nat) (s : State) : State :=
  { s with S := startBlock l d ann key s.dbuf, ctx := startCtx l d ann key }

/-- PRG_START (42_prg.md R250). -/
def execPrgStart (l d ann key : Nat) (s : State) : Outcome :=
  checked (opcode (.prgStart l d ann key)) [(startLengths l d ann key, .invalidLength)] (startPrg l d ann key) s

/-- A non-empty key at PRG_RESTART switches to the keyed rate, an empty one keeps the rate (42_prg.md R245, R251). -/
def rekeyRate (key : Nat) (s : State) : State :=
  if 0 < key then
    { s with ctx := { s.ctx with buffLen := BitVec.ofNat 8 (rate s.ctx.l.toNat s.ctx.d.toNat true) } }
  else s

/-- The XOR overlay of the header, the annotation and the key on `S[0 ..]` (42_prg.md R251). -/
def xorHeader (ann key : Nat) (s : State) : State :=
  { s with S := overlay s.S 0 (1 + ann + key) fun i => elemAt s.S i ^^^ headerByte s.dbuf ann key i }

/-- The effect of PRG_RESTART: commit under the old rate, then the keyed rate, then the overlay (42_prg.md R251). -/
def restart (ann key : Nat) (s : State) : State :=
  setPhase .fresh <| setPos (BitVec.ofNat 8 (1 + ann + key)) <| xorHeader ann key <| rekeyRate key <|
    commit (if 0 < key then codeKey else codeNull) s

/-- PRG_RESTART (42_prg.md R251). -/
def execPrgRestart (ann key : Nat) (s : State) : Outcome :=
  checked (opcode (.prgRestart ann key))
    [needPrg s, (headerLengths s.ctx.l.toNat ann key, .invalidLength)] (restart ann key) s

/-- The effect of a phase command: a commit and the phase (42_prg.md R247). -/
def enterPhase (code : Byte) (p : Phase) (s : State) : State := setPhase p (commit code s)

/-- PRG_ABSORB_START (42_prg.md R252). -/
def execPrgAbsorbStart (s : State) : Outcome :=
  checked (opcode .prgAbsorbStart) [needPrg s] (enterPhase codeData .absorb) s

/-- One iteration of PRG_ABSORB: the byte of DBUF is XORed into the rate (42_prg.md R253). -/
def absorbByte (i : Nat) (s : State) : State := adv (setRateByte (rateByte s ^^^ elemAt s.dbuf i) s)

/-- PRG_ABSORB (42_prg.md R253). -/
def execPrgAbsorb (n : Nat) (s : State) : Outcome :=
  checked (opcode (.prgAbsorb n)) [needPrg s, needCount n] (forBytes n absorbByte) s

/-- PRG_SQUEEZE_START (42_prg.md R254). -/
def execPrgSqueezeStart (s : State) : Outcome :=
  checked (opcode .prgSqueezeStart) [needPrg s] (enterPhase codeOut .squeeze) s

/-- One iteration of PRG_SQUEEZE: the rate byte is copied to DBUF (42_prg.md R255). -/
def squeezeByte (i : Nat) (s : State) : State := adv (setDbufByte i (rateByte s) s)

/-- PRG_SQUEEZE (42_prg.md R255). -/
def execPrgSqueeze (n : Nat) (s : State) : Outcome :=
  checked (opcode (.prgSqueeze n)) [needPrg s, needCount n] (forBytes n squeezeByte) s

/-- PRG_ENCR_START (42_prg.md R256). -/
def execPrgEncrStart (s : State) : Outcome :=
  checked (opcode .prgEncrStart) [needPrg s, needKeyMode s] (enterPhase codeText .encr) s

/-- One iteration of PRG_ENCR: the plaintext byte goes into the state, and the updated state byte is the ciphertext
(42_prg.md R257). -/
def encrByte (i : Nat) (s : State) : State :=
  let c := rateByte s ^^^ elemAt s.dbuf i
  adv (setDbufByte i c (setRateByte c s))

/-- PRG_ENCR (42_prg.md R257). -/
def execPrgEncr (n : Nat) (s : State) : Outcome :=
  checked (opcode (.prgEncr n)) [needPrg s, needCount n, needKeyMode s] (forBytes n encrByte) s

/-- PRG_DECR_START (42_prg.md R258). -/
def execPrgDecrStart (s : State) : Outcome :=
  checked (opcode .prgDecrStart) [needPrg s, needKeyMode s] (enterPhase codeText .decr) s

/-- One iteration of PRG_DECR: the plaintext byte is `DBUF[i] ⊕ S[pos]`, and it is XORed into the state
(42_prg.md R259). -/
def decrByte (i : Nat) (s : State) : State :=
  let p := elemAt s.dbuf i ^^^ rateByte s
  adv (setRateByte (rateByte s ^^^ p) (setDbufByte i p s))

/-- PRG_DECR (42_prg.md R259). -/
def execPrgDecr (n : Nat) (s : State) : Outcome :=
  checked (opcode (.prgDecr n)) [needPrg s, needCount n, needKeyMode s] (forBytes n decrByte) s

/-- `T <- S` (42_prg.md R260). -/
def saveToT (s : State) : State := { s with T := s.S }

/-- `S[i] <- S[i] ⊕ T[i]` for all 192 bytes (42_prg.md R260). -/
def xorT (s : State) : State := { s with S := xorArrays s.S s.T }

/-- The effect of PRG_RATCHET: save S, commit, XOR the saved S back (42_prg.md R260; 90 C3). -/
def ratchet (s : State) : State := xorT (commit codeNull (saveToT s))

/-- PRG_RATCHET (42_prg.md R260). -/
def execPrgRatchet (s : State) : Outcome := checked (opcode .prgRatchet) [needPrg s] ratchet s

end Sys2Proof.Machine
end

