-- ==== Sys2Proof/Machine/Dispatch.lean ====
section
/-! DEFINITION. One arm per command: each calls its meaning. -/

namespace Sys2Proof.Machine

open Sys2Proof

def exec (i : Instr) (s : State) : Host.Outcome State Fault Refusal :=
  match i with
  | .nop => Sys2Proof.Machine.execNop s
  | .clrerr => Sys2Proof.Machine.execClrerr s
  | .sreset => Sys2Proof.Machine.execSreset s
  | .bashf => Sys2Proof.Machine.execBashf s
  | .hashInit l => Sys2Proof.Machine.execHashInit l s
  | .hashStep n => Sys2Proof.Machine.execHashStep n s
  | .hashFinal => Sys2Proof.Machine.execHashFinal s
  | .hashVerify => Sys2Proof.Machine.execHashVerify s
  | .prgStart l d ann key => Sys2Proof.Machine.execPrgStart l d ann key s
  | .prgRestart ann key => Sys2Proof.Machine.execPrgRestart ann key s
  | .prgAbsorbStart => Sys2Proof.Machine.execPrgAbsorbStart s
  | .prgAbsorb n => Sys2Proof.Machine.execPrgAbsorb n s
  | .prgSqueezeStart => Sys2Proof.Machine.execPrgSqueezeStart s
  | .prgSqueeze n => Sys2Proof.Machine.execPrgSqueeze n s
  | .prgEncrStart => Sys2Proof.Machine.execPrgEncrStart s
  | .prgEncr n => Sys2Proof.Machine.execPrgEncr n s
  | .prgDecrStart => Sys2Proof.Machine.execPrgDecrStart s
  | .prgDecr n => Sys2Proof.Machine.execPrgDecr n s
  | .prgRatchet => Sys2Proof.Machine.execPrgRatchet s
  | .beltEnc => Sys2Proof.Machine.execBeltEnc s
  | .beltDec => Sys2Proof.Machine.execBeltDec s

end Sys2Proof.Machine
end

