-- ==== Sys2Proof/Machine/Run.lean ====
section
/-! DEFINITION. Running the pending command, and placing a command word as the pending one (60_exceptions.md R362,
R363). -/

namespace Sys2Proof.Machine

open Sys2Proof

/-- What follows a command's effect: its completion (60_exceptions.md R362). -/
def completed : Outcome → Outcome
  | .next s => .next (complete s)
  | .fault r => .fault r
  | .refused r => .refused r

/-- A command word is executed: decode, else `ILLEGAL_COMMAND` (30_encoding.md R119, R120); then the command's own
checks and effect (60_exceptions.md R363). -/
def execWord (w : Word) (s : State) : Outcome :=
  match decode w with
  | .ok i => exec i s
  | .error _ => raiseError .illegalCommand (opByte w) s

/-- The engine's step on its pending command: it is executed completely and completes (60_exceptions.md R362). -/
def runPending (w : Word) (s : State) : Outcome := completed (execWord w s)

/-- One step of the machine. With a command pending, the engine completes it once `delay` has run down, and until then
the surroundings move (60_exceptions.md R362: "at some later time"; assumption 2). With none pending the surroundings
move. -/
def stepMachine (s : State) : Outcome :=
  match s.pending with
  | some w => if s.delay = 0 then runPending w s else surroundings { s with delay := s.delay - 1 }
  | none => surroundings s

/-- `s` with the command word `w` pending and due. -/
def placeCommand (w : Word) (s : State) : State := accept w 0 s

end Sys2Proof.Machine
end

