-- ==== Sys2Proof/Machine/Step.lean ====
section
/-! DEFINITION. The step of the machine, and the state whose next step runs a given command word. -/

namespace Sys2Proof.Machine

open Sys2Proof

/-- One step (Machine/Run.lean). -/
def step (s : State) : Host.Outcome State Fault Refusal := stepMachine s

/-- `s` with the command word of table bits `w` pending and due: PENDING is where the engine takes its next command
from (10_state.md R43, 60_exceptions.md R362). It stands for the host's write of CMD (assumption 1). -/
def State.withFetchWord (s : State) (nbits w : Nat) : State := placeCommand (commandWord nbits w) s

end Sys2Proof.Machine
end

