-- ==== Sys2Proof/Machine/HostProgram.lean ====
section
/-! DEFINITION. The pseudo-instructions and host sequences of 30_encoding.md R124 to R137, as lists of host actions.
None is an engine command; each is a fixed expansion into accesses, commands and WAIT. -/

namespace Sys2Proof.Machine

open Sys2Proof

/-- The offsets of the window's regions (20_memory.md R84). -/
def offCmd : Nat := 0x004
def offStatus : Nat := 0x008
def offCtx : Nat := 0x00C
def offDbuf : Nat := 0x100
def offS : Nat := 0x200
def offKey : Nat := 0x400
def offBlk : Nat := 0x420

/-- `WR <off>, <value>` (30_encoding.md R124). -/
def hostWr (off : Nat) (v : Word) : HostEvent := .write (BitVec.ofNat 12 off) 32 v

/-- `RD <off>` (30_encoding.md R124). -/
def hostRd (off : Nat) : HostEvent := .read (BitVec.ofNat 12 off) 32

/-- A command line: `WR CMD, <encoding>` and `WAIT` (30_encoding.md R125). -/
def hostCommand (i : Instr) : List HostEvent := [hostWr offCmd (encode i), .wait]

/-- `word32(X', k)` of a byte string followed by zero bytes (30_encoding.md R126). -/
def stringWord (X : List Byte) (k : Nat) : Word :=
  X.getD (4 * k + 3) 0 ++ X.getD (4 * k + 2) 0 ++ X.getD (4 * k + 1) 0 ++ X.getD (4 * k) 0

/-- `LOAD <region>+o, X`, `base` being the region's offset plus `o` (30_encoding.md R126). -/
def hostLoad (base : Nat) (X : List Byte) : List HostEvent :=
  (List.range ((X.length + 3) / 4)).map fun k => hostWr (base + 4 * k) (stringWord X k)

/-- `READ <region>+o, n` (30_encoding.md R127). -/
def hostReadBytes (base n : Nat) : List HostEvent :=
  (List.range ((n + 3) / 4)).map fun k => hostRd (base + 4 * k)

/-- The bytes of a word, byte 0 first (20_memory.md R82). -/
def wordBytes (v : Word) : List Byte := (List.range 4).map (leByte v)

/-- The result of `READ`: the first `n` bytes of the words read (30_encoding.md R127). -/
def readResult (words : List Word) (n : Nat) : List Byte := (words.flatMap wordBytes).take n

/-- The lengths of the pieces of a string of `n` bytes: 192 each, the last 1 to 192. DESIGN CHOICE (assumption 26): it
is one of the splits into pieces of at most 192 bytes that 30_encoding.md R130 leaves open to `squeeze`, the one R128
fixes for the other operations. `out`, S and CTX do not depend on the split (42_prg.md R248); DBUF afterwards does. -/
def pieceLengths (n : Nat) : List Nat :=
  (List.range ((n + 191) / 192)).map fun k => min 192 (n - 192 * k)

/-- `chunks(X)` (30_encoding.md R128). -/
def chunks (X : List Byte) : List (List Byte) :=
  (List.range ((X.length + 191) / 192)).map fun k => (X.drop (192 * k)).take 192

/-- `absorb(X)` (30_encoding.md R129). -/
def hostAbsorb (X : List Byte) : List HostEvent :=
  hostCommand .prgAbsorbStart ++
    (chunks X).flatMap fun x => hostLoad offDbuf x ++ hostCommand (.prgAbsorb x.length)

/-- The list is a split of `n` into pieces of at most 192 bytes (30_encoding.md R130). -/
def isSplit (n : Nat) (pieces : List Nat) : Bool := pieces.sum == n && pieces.all fun c => decide (c ≤ 192)

/-- `squeeze(out)` over a split of `|out|` that the host program chooses (30_encoding.md R130). -/
def hostSqueezeBy (pieces : List Nat) : List HostEvent :=
  hostCommand .prgSqueezeStart ++
    pieces.flatMap fun c => hostCommand (.prgSqueeze c) ++ hostReadBytes offDbuf c

/-- `squeeze(out)` with `|out| = n`, over the model's split of `n` (30_encoding.md R130; assumption 26). -/
def hostSqueeze (n : Nat) : List HostEvent := hostSqueezeBy (pieceLengths n)

/-- `encr(X)` (30_encoding.md R131). -/
def hostEncr (X : List Byte) : List HostEvent :=
  hostCommand .prgEncrStart ++
    (chunks X).flatMap fun x =>
      hostLoad offDbuf x ++ hostCommand (.prgEncr x.length) ++ hostReadBytes offDbuf x.length

/-- `decr(X)` (30_encoding.md R131). -/
def hostDecr (X : List Byte) : List HostEvent :=
  hostCommand .prgDecrStart ++
    (chunks X).flatMap fun x =>
      hostLoad offDbuf x ++ hostCommand (.prgDecr x.length) ++ hostReadBytes offDbuf x.length

/-- `hash(out, src)` at level `l` (30_encoding.md R132). -/
def hostHash (l : Nat) (src : List Byte) : List HostEvent :=
  hostCommand (.hashInit l) ++
    ((chunks src).flatMap fun x => hostLoad offDbuf x ++ hostCommand (.hashStep x.length)) ++
    hostCommand .hashFinal ++ hostReadBytes offDbuf (l / 4)

/-- `step_v(expected)`; the result is bit 2 of the STATUS word read (30_encoding.md R132). -/
def hostVerify (expected : List Byte) : List HostEvent :=
  hostLoad offDbuf expected ++ hostCommand .hashVerify ++ [hostRd offStatus]

/-- `BashPrgHash.new(ann)` (30_encoding.md R133). -/
def prgHashNew (l d : Nat) (ann : List Byte) : List HostEvent :=
  hostLoad offDbuf ann ++ hostCommand (.prgStart l d ann.length 0)

/-- `BashPrgHash.hash(data, out)` (30_encoding.md R133), its squeeze over the model's split (assumption 26). -/
def prgHashHash (data : List Byte) (n : Nat) : List HostEvent :=
  hostAbsorb data ++ hostSqueeze n ++ hostCommand .prgRatchet

/-- `BashPrgAEAD.new(ann, key)` (30_encoding.md R134). -/
def aeadNew (l d : Nat) (ann key : List Byte) : List HostEvent :=
  hostLoad offDbuf (ann ++ key) ++ hostCommand (.prgStart l d ann.length key.length)

/-- `BashPrgAEAD.encrypt`; the tag length is the caller's (30_encoding.md R134; 93 U14), its squeeze over the model's
split (assumption 26). -/
def aeadEncrypt (header plaintext : List Byte) (tagLength : Nat) : List HostEvent :=
  hostAbsorb header ++ hostEncr plaintext ++ hostSqueeze tagLength

/-- `BashPrgAEAD.decrypt`, up to the comparison of the tags (30_encoding.md R135), its squeeze over the model's split
(assumption 26). -/
def aeadDecrypt (header ciphertext : List Byte) (tagLength : Nat) : List HostEvent :=
  hostAbsorb header ++ hostDecr ciphertext ++ hostSqueeze tagLength

/-- The host's end of a decryption: the plaintext, or none, which is `IncorrectTag` (30_encoding.md R135,
60_exceptions.md R367). -/
def aeadVerdict (tag tag' plaintext : List Byte) : Option (List Byte) := if tag' = tag then some plaintext else none

/-- The host's zeroisation of DBUF on a tag mismatch (30_encoding.md R135). -/
def zeroiseDbuf : List HostEvent := hostLoad offDbuf (List.replicate 192 0)

/-- `SAVE` (30_encoding.md R136). -/
def hostSave : List HostEvent := hostReadBytes offS 192 ++ [hostRd offCtx]

/-- `RESTORE image`, of a 196-byte image (30_encoding.md R136). -/
def hostRestore (image : List Byte) : List HostEvent :=
  hostLoad offS (image.take 192) ++ [hostWr offCtx (stringWord image 48)]

/-- The first part of the "programming" routine: the 16 bytes it reads are `K1` (30_encoding.md R137, 92 D45). -/
def programmingK1 (K I : List Byte) : List HostEvent :=
  aeadNew 256 2 [] K ++ hostAbsorb I ++ hostCommand .prgRatchet ++ hostSqueeze 16

/-- The second part: `Y1` from `A1`, `K1` and the text `Y`, with the context saved before it (92 D45, 95 P4). -/
def programmingY1 (A1 K1 Y : List Byte) : List HostEvent :=
  aeadNew 128 1 A1 K1 ++ hostSave ++ hostEncr Y

/-- The third part: `Y2` from the saved context, `A2` and the text `Y` (92 D45, 95 P4). -/
def programmingY2 (image A2 Y : List Byte) : List HostEvent :=
  hostRestore image ++ hostLoad offDbuf A2 ++ hostCommand (.prgRestart A2.length 0) ++ hostEncr Y

end Sys2Proof.Machine
end

