-- ==== Sys2Proof/Machine/RunEnd.lean ====
section
/-! DEFINITION. The end of a run of a host program, and its outcome (70_reset_and_hazards.md R412). -/

namespace Sys2Proof.Machine

open Sys2Proof

/-- The action is an access of the host program. A hardware reset is the platform's (70_reset_and_hazards.md R400),
and an idle action is no access. -/
def isHostAccess : HostEvent → Bool
  | .idle => false
  | .read _ _ => true
  | .write _ _ _ => true
  | .wait => true
  | .hwReset => false

/-- "The host program has issued its last access" (70_reset_and_hazards.md R412): what is still to come is the
platform's alone (assumption 25). -/
def lastAccessIssued (s : State) : Bool := s.inbox.all fun e => !isHostAccess e

/-- The three conditions of 70_reset_and_hazards.md R412. The third, that no access error has been recorded, holds of
every state: an access error ends the run in a fault (60_exceptions.md R368). -/
def runEnded (s : State) : Bool := lastAccessIssued s && s.pending.isNone

/-- The outcome of a run: the values of STATUS, CTX, S, DBUF, KEY and BLK, and the values the host read, in their order
(70_reset_and_hazards.md R412). T is no part of it. -/
structure RunOutcome where
  status : Word
  ctx : Word
  S : Vector Byte 192
  dbuf : Vector Byte 192
  key : Vector Word 8
  blk : Vector Word 4
  reads : List Word
  deriving DecidableEq, Repr

/-- The outcome at `t` of a run that started at `s`: of what the host has read, only the reads since then count. -/
def outcomeAt (s t : State) : RunOutcome :=
  { status := statusWord t, ctx := t.ctx.toWord, S := t.S, dbuf := t.dbuf, key := t.key, blk := t.blk,
    reads := t.readLog.drop s.readLog.length }

/-- The state in which a run from `s` ends, the first one that meets `runEnded`, when that is within `fuel` steps. The
machine itself may go on from there: R412 "does not say what the platform does with the bus after the run". -/
def runToEnd : Nat → State → Option State
  | 0, s => if runEnded s then some s else none
  | fuel + 1, s =>
    if runEnded s then some s
    else match step s with
      | .next t => runToEnd fuel t
      | .fault _ => none
      | .refused _ => none

/-- The outcome of the run from `s`, when it ends within `fuel` steps; none also when it ends in a fault of the host,
since "the faulted run is not final" (60_exceptions.md R368). -/
def runOutcome (fuel : Nat) (s : State) : Option RunOutcome := (runToEnd fuel s).map (outcomeAt s)

end Sys2Proof.Machine
end

