-- ==== Sys2Proof/Safety.lean ====
section
/-! DEFINITION. What counts as a good state and a safe run, in the terms the statements use. -/

namespace Sys2Proof

open Sys2Proof.Machine

/-- The engine's own invariant: `busy` is 1 exactly when a command is pending (10_state.md R43), CTX is legal
(10_state.md R37: "Every command leaves CTX legal"), and without an error `errop` is 0 (10_state.md R33; the converse
is assumption 5). -/
def EngineInv (s : State) : Prop :=
  (s.busy = true ↔ s.pending ≠ none) ∧ s.ctx.legal = true ∧ (s.err = .ok → s.errop = 0)

/-- The two states have the same engine: every element of 10_state.md R30. -/
def SameEngine (s t : State) : Prop :=
  t.busy = s.busy ∧ t.vok = s.vok ∧ t.err = s.err ∧ t.errop = s.errop ∧ t.ctx = s.ctx ∧ t.S = s.S ∧ t.T = s.T ∧
  t.dbuf = s.dbuf ∧ t.key = s.key ∧ t.blk = s.blk ∧ t.pending = s.pending

/-- Every element of the engine holds its value of 10_state.md R53. -/
def EngineReset (s : State) : Prop := SameEngine State.reset s

/-- `clean_entry` (70_reset_and_hazards.md R413). That no access error has been recorded holds of every state: an
access error ends the run in a fault. -/
def CleanEntry (s : State) : Prop := EngineReset s

/-- The end of a run (70_reset_and_hazards.md R412): the host has issued its last access and no command is pending.
Idle actions and hardware resets of the platform may be left. -/
def RunEnded (s : State) : Prop := runEnded s = true

/-- The run from `s` ends at `t` after `k` steps: `t` is the first state in which it has ended
(70_reset_and_hazards.md R412). Its outcome is `outcomeAt s t`. -/
def RunEndsAt (s : State) (k : Nat) (t : State) : Prop :=
  core.run k s = .next t ∧ RunEnded t ∧ ∀ j, j < k → ∀ u, core.run j s = .next u → ¬ RunEnded u

/-- An action that is neither an access error nor a hardware reset. -/
def harmless : HostEvent → Bool
  | .idle => true
  | .read off width => accessDefined off width
  | .write off width _ => accessDefined off width
  | .wait => true
  | .hwReset => false

end Sys2Proof
end

