-- ==== Sys2Proof/Certificates/Slice0/Obligations.lean ====
section
/-! DEFINITION. The statements for the provers, and the few words they are stated with (namespace Claims), written
from the rules of spec/ rather than from the model's own operations where that can be done. -/

namespace Sys2Proof.Claims

open Sys2Proof Sys2Proof.Machine

/-! ### Words of the statements -/

/-- The surroundings move in the next step: no command is pending, or the pending one is not due. -/
def Served (s : State) : Prop := s.pending = none ∨ s.delay ≠ 0

/-- The reserved offsets (20_memory.md R84). -/
def ReservedOffset (off : Offset) : Prop :=
  (0x010 ≤ off.toNat ∧ off.toNat < 0x100) ∨ (0x1C0 ≤ off.toNat ∧ off.toNat < 0x200) ∨
  (0x2C0 ≤ off.toNat ∧ off.toNat < 0x400) ∨ 0x430 ≤ off.toNat

/-- A run has ended: no command is pending, and only idle actions and the platform's resets are still to come
(70_reset_and_hazards.md R412; what counts as the host's last access is assumption 25). -/
def Ended (s : State) : Prop := (∀ e ∈ s.inbox, e = .idle ∨ e = .hwReset) ∧ s.pending = none

/-- The offsets of CTX, DBUF, S, KEY and BLK (20_memory.md R84). -/
def ArrayOffset (off : Offset) : Prop :=
  (0x00C ≤ off.toNat ∧ off.toNat < 0x010) ∨ (0x100 ≤ off.toNat ∧ off.toNat < 0x1C0) ∨
  (0x200 ≤ off.toNat ∧ off.toNat < 0x2C0) ∨ (0x400 ≤ off.toNat ∧ off.toNat < 0x430)

/-- The reserved `OP` values (30_encoding.md R119). -/
abbrev ReservedOp (op : Nat) : Prop :=
  (0x03 ≤ op ∧ op ≤ 0x07) ∨ (0x09 ≤ op ∧ op ≤ 0x0F) ∨ (0x14 ≤ op ∧ op ≤ 0x1F) ∨ (0x2B ≤ op ∧ op ≤ 0x2F) ∨ 0x32 ≤ op

/-- The `OP` is defined and a reserved bit of its format is 1 (30_encoding.md R118, R120). -/
abbrev ReservedBitSet (w : Word) : Prop :=
  let op := (w.extractLsb' 0 8).toNat
  (op ∈ [0x00, 0x01, 0x02, 0x08, 0x12, 0x13, 0x22, 0x24, 0x26, 0x28, 0x2A, 0x30, 0x31] ∧ w.extractLsb' 8 24 ≠ 0) ∨
  (op ∈ [0x11, 0x23, 0x25, 0x27, 0x29] ∧ w.extractLsb' 16 16 ≠ 0) ∨
  (op = 0x10 ∧ w.extractLsb' 17 15 ≠ 0) ∨
  (op = 0x20 ∧ w.extractLsb' 31 1 ≠ 0) ∨
  (op = 0x21 ∧ (w.extractLsb' 31 1 ≠ 0 ∨ w.extractLsb' 8 11 ≠ 0))

/-- Key mode, over the integers: `mode = PRG` and `16·(192 − buff_len) = l·(2 + d)` (10_state.md R35). -/
abbrev KeyMode (c : Ctx) : Prop :=
  c.mode = .prg ∧ 16 * (192 - (c.buffLen.toNat : Int)) = (c.l.toNat : Int) * (2 + (c.d.toNat : Int))

/-- A legal CTX value, as 10_state.md R37 lists them. -/
def LegalCtx (c : Ctx) : Prop :=
  (c.mode = .none ∧ c.toWord = 0) ∨
  (c.mode = .hash ∧ c.l.toNat % 16 = 0 ∧ c.l.toNat ≤ 256 ∧ c.d.toNat = 0 ∧
    c.buffLen.toNat = 192 - c.l.toNat / 2 ∧ c.pos.toNat < c.buffLen.toNat ∧ c.phase = .absorb) ∨
  (c.mode = .prg ∧ c.l.toNat ∈ [128, 192, 256] ∧ c.d.toNat ∈ [1, 2] ∧
    c.buffLen.toNat ∈ [192 - c.d.toNat * c.l.toNat / 4, 192 - c.l.toNat * (2 + c.d.toNat) / 16] ∧
    c.pos.toNat < c.buffLen.toNat ∧ c.phase ∈ [Phase.fresh, .absorb, .squeeze, .encr, .decr])

/-- The number of an error code (60_exceptions.md R360). -/
def errNumber : ErrCode → Nat
  | .ok => 0
  | .invalidLength => 1
  | .invalidCommand => 2
  | .illegalCommand => 3
  | .badCount => 4
  | .wrongMode => 5

/-- Preconditions on a header (42_prg.md R250, R251). -/
abbrev HeaderLengths (l ann key : Nat) : Prop :=
  ann ≤ 60 ∧ ann % 4 = 0 ∧ key ≤ 60 ∧ key % 4 = 0 ∧ (key = 0 ∨ l / 8 ≤ key)

/-- Preconditions of PRG_START (42_prg.md R250). -/
abbrev StartLengths (l d ann key : Nat) : Prop := l ∈ [128, 192, 256] ∧ d ∈ [1, 2] ∧ HeaderLengths l ann key

/-- The error a step command of a Prg context reports (42_prg.md R246). -/
def prgStepError (n : Nat) (needsKey : Bool) (c : Ctx) : ErrCode :=
  if c.mode ≠ .prg then .wrongMode
  else if 192 < n then .badCount
  else if needsKey = true ∧ ¬ KeyMode c then .invalidCommand
  else .ok

/-- The error each command reports in a context, by the check order of 60_exceptions.md R363. -/
def expectedError (i : Instr) (c : Ctx) : ErrCode :=
  match i with
  | .nop => .ok
  | .clrerr => .ok
  | .sreset => .ok
  | .bashf => .ok
  | .hashInit l => if l % 16 = 0 ∧ l ≤ 256 then .ok else .invalidLength
  | .hashStep n => if c.mode ≠ .hash then .wrongMode else if 192 < n then .badCount else .ok
  | .hashFinal => if c.mode ≠ .hash then .wrongMode else .ok
  | .hashVerify => if c.mode ≠ .hash then .wrongMode else .ok
  | .prgStart l d ann key => if StartLengths l d ann key then .ok else .invalidLength
  | .prgRestart ann key =>
    if c.mode ≠ .prg then .wrongMode else if HeaderLengths c.l.toNat ann key then .ok else .invalidLength
  | .prgAbsorbStart => prgStepError 0 false c
  | .prgAbsorb n => prgStepError n false c
  | .prgSqueezeStart => prgStepError 0 false c
  | .prgSqueeze n => prgStepError n false c
  | .prgEncrStart => prgStepError 0 true c
  | .prgEncr n => prgStepError n true c
  | .prgDecrStart => prgStepError 0 true c
  | .prgDecr n => prgStepError n true c
  | .prgRatchet => prgStepError 0 false c
  | .beltEnc => .ok
  | .beltDec => .ok

/-- `CTX.phase` after a command that did not fail (42_prg.md R247, 41_hash.md R200, 44_control.md R342). -/
def phaseAfter (i : Instr) (p : Phase) : Phase :=
  match i with
  | .sreset => .none
  | .hashInit _ => .absorb
  | .prgStart _ _ _ _ => .fresh
  | .prgRestart _ _ => .fresh
  | .prgAbsorbStart => .absorb
  | .prgSqueezeStart => .squeeze
  | .prgEncrStart => .encr
  | .prgDecrStart => .decr
  | .nop => p
  | .clrerr => p
  | .bashf => p
  | .hashStep _ => p
  | .hashFinal => p
  | .hashVerify => p
  | .prgAbsorb _ => p
  | .prgSqueeze _ => p
  | .prgEncr _ => p
  | .prgDecr _ => p
  | .prgRatchet => p
  | .beltEnc => p
  | .beltDec => p

/-- Before its permutation, a commit of `code` has XORed the code at `pos` and `0x80` at `buff_len`
(42_prg.md R242). -/
def Committed (code : Byte) (s : State) (A : Vector Byte 192) : Prop :=
  ∀ j, j < 192 → elemAt A j =
    elemAt s.S j ^^^ (if j = s.ctx.pos.toNat then code else 0) ^^^ (if j = s.ctx.buffLen.toNat then 0x80 else 0)

/-- Before its permutation, the finalisation copy is S, zero from `pos` up to the rate, `0x40` at `pos`
(41_hash.md R205). -/
def Padded (s : State) (A : Vector Byte 192) : Prop :=
  ∀ j, j < 192 → elemAt A j =
    if j = s.ctx.pos.toNat then 0x40
    else if s.ctx.pos.toNat < j ∧ j < s.ctx.buffLen.toNat then 0
    else elemAt s.S j

/-- The bytes `A` and the position after `n` rate bytes have been used and none is left over the end of the rate: the
permutation has run at the end of the rate, and only there (42_prg.md R243, 41_hash.md R202). -/
def afterRate (n : Nat) (A : Vector Byte 192) (s : State) : State :=
  if 0 < n ∧ s.ctx.pos.toNat + n = s.ctx.buffLen.toNat then
    { s with S := bashF A, ctx := { s.ctx with pos := 0 } }
  else { s with S := A, ctx := { s.ctx with pos := s.ctx.pos + BitVec.ofNat 8 n } }

/-- The next `n` bytes stay in the rate, up to its very end. -/
def FitsRate (n : Nat) (s : State) : Prop :=
  s.ctx.pos.toNat + n ≤ s.ctx.buffLen.toNat ∧ s.ctx.buffLen.toNat ≤ 192

/-! ### Streams of bytes -/

/-- One byte loop over a string, on S and `pos` alone: `f` gives the new rate byte and `g` the output byte, from the
old rate byte and the string's byte; the permutation runs at the end of the rate (42_prg.md R243). -/
def stream (f g : Byte → Byte → Byte) (buffLen : BitVec 8) :
    List Byte → Vector Byte 192 × BitVec 8 → List Byte × (Vector Byte 192 × BitVec 8)
  | [], x => ([], x)
  | b :: bs, (A, pos) =>
    let old := elemAt A pos.toNat
    let A' := putAt A pos.toNat (f old b)
    let rest := stream f g buffLen bs (if pos + 1 = buffLen then (bashF A', 0) else (A', pos + 1))
    (g old b :: rest.1, rest.2)

/-- DBUF with a string loaded at its start (30_encoding.md R126). -/
def loadDbuf (x : List Byte) (s : State) : State :=
  { s with dbuf := overlay s.dbuf 0 x.length fun i => x.getD i 0 }

/-- The first `n` bytes of DBUF (30_encoding.md R127). -/
def readDbuf (n : Nat) (s : State) : List Byte := (List.range n).map (elemAt s.dbuf)

/-- For each piece: load it, issue the step command over it, read DBUF back (30_encoding.md R129, R131). -/
def runPieces (mk : Nat → Instr) : List (List Byte) → State → Option (List Byte × State)
  | [], s => some ([], s)
  | x :: xs, s =>
    match exec (mk x.length) (loadDbuf x s) with
    | .next t => (runPieces mk xs t).map fun r => (readDbuf x.length t ++ r.1, r.2)
    | .fault _ => none
    | .refused _ => none

/-- Issue one command, as an option of the next state. -/
def issue1 (i : Instr) (s : State) : Option State :=
  match exec i s with
  | .next t => some t
  | .fault _ => none
  | .refused _ => none

/-- Over every split into pieces that fit DBUF, the step command leaves the same S and CTX and gives the same output
bytes as one byte loop over the whole string, and changes nothing else but DBUF. -/
def SplitInvariant (mk : Nat → Instr) (f g : Byte → Byte → Byte) (allowed : Ctx → Prop) : Prop :=
  ∀ (pieces : List (List Byte)) (s : State), (∀ x ∈ pieces, x.length ≤ 192) → allowed s.ctx →
    ∃ out t, runPieces mk pieces s = some (out, t) ∧
      stream f g s.ctx.buffLen pieces.flatten (s.S, s.ctx.pos) = (out, (t.S, t.ctx.pos)) ∧
      t = { s with S := t.S, dbuf := t.dbuf, ctx := { s.ctx with pos := t.ctx.pos } }

/-- The AEAD sequence up to the tag: absorb the header, then encrypt or decrypt the text, then squeeze the tag
(30_encoding.md R134, R135): the text's output, the tag, and the end state. The tag is squeezed over the split of its
length that the host program chooses (30_encoding.md R130). -/
def aeadRun (start : Instr) (mk : Nat → Instr) (header text : List Byte) (tagPieces : List Nat) (s : State) :
    Option (List Byte × List Byte × State) := do
  let s ← issue1 .prgAbsorbStart s
  let (_, s) ← runPieces .prgAbsorb (chunks header) s
  let s ← issue1 start s
  let (out, s) ← runPieces mk (chunks text) s
  let s ← issue1 .prgSqueezeStart s
  let (tag, s) ← runPieces .prgSqueeze (tagPieces.map fun c => List.replicate c 0) s
  return (out, tag, s)

/-! ### Bash-f and Belt -/

/-- One round of the physical form, which moves lanes instead of renaming them; round `k + 1` (40_bashf.md R159). -/
def physicalRound (W : Vector Lane 24) (k : Nat) : Vector Lane 24 :=
  let W1 := (List.range 8).foldl
    (fun W j =>
      let out := bashS (elemAt W j) (elemAt W (j + 8)) (elemAt W (j + 16)) (rot j)
      putAt (putAt (putAt W j out.1) (j + 8) out.2.1) (j + 16) out.2.2) W
  let W2 := tabulate 24 fun x => elemAt W1 (laneMap 1 x)
  putAt W2 23 (elemAt W2 23 ^^^ roundConst (k + 1))

/-- `H` applied to each byte of a word in place (43_belt.md R304). -/
def substituteBytes (u : Word) : Word :=
  (sboxH (u.extractLsb' 0 8)).setWidth 32 ||| ((sboxH (u.extractLsb' 8 8)).setWidth 32 <<< 8) |||
  ((sboxH (u.extractLsb' 16 8)).setWidth 32 <<< 16) ||| ((sboxH (u.extractLsb' 24 8)).setWidth 32 <<< 24)

end Sys2Proof.Claims

open Sys2Proof Sys2Proof.Machine Sys2Proof.Claims

/-! ### Encoding -/

/-- Decoding the word of a well-formed command gives the command back: no operand bit is dropped (30_encoding.md R112,
R123). -/
def Obligations.DecodeEncodeRoundTrip : Prop := ∀ i : Instr, i.WellFormed → decode (encode i) = .ok i

/-- A word that decodes is the word of the well-formed command it decodes to: each command has one word
(30_encoding.md R110, R111, R120). -/
def Obligations.DecodedCommandReencodesToItsWord : Prop :=
  ∀ (w : Word) (i : Instr), decode w = .ok i → i.WellFormed ∧ encode i = w

/-- A word decodes exactly when it hits a row of opcode_table.json, it then hits that row only, and its command has the
row's mnemonic (30_encoding.md R120, last sentence). -/
def Obligations.DecodeAgreesWithTheOpcodeTable : Prop :=
  ∀ w : Word,
    (∀ i, decode w = .ok i → ∃ r ∈ opcodeTable, r.hit w = true ∧ r.mnemonic = mnemonic i) ∧
    (∀ r ∈ opcodeTable, r.hit w = true → ∃ i, decode w = .ok i ∧ r.mnemonic = mnemonic i) ∧
    (∀ r ∈ opcodeTable, ∀ r' ∈ opcodeTable, r.hit w = true → r'.hit w = true → r = r')

/-- Words written out from the formats of 30_encoding.md R112 and the examples of R123 decode to the commands they
stand for. -/
def Obligations.ExampleWordsDecode : Prop :=
  decode 0x00000000 = .ok .nop ∧ decode 0x00008010 = .ok (.hashInit 128) ∧
  decode 0x00007F11 = .ok (.hashStep 127) ∧ decode 0x40830020 = .ok (.prgStart 256 1 16 32) ∧
  decode 0x00200021 = .ok (.prgRestart 4 0) ∧ decode 0x00003123 = .ok (.prgAbsorb 49) ∧
  decode 0x00000031 = .ok .beltDec ∧ decode 0x00000100 = .error (.reservedBits 0x00) ∧
  decode 0x00000003 = .error (.reservedOp 0x03)

/-- A pending word with a reserved `OP`, or with a reserved bit of its format set, raises ILLEGAL_COMMAND, records its
`OP`, completes, and changes nothing else; those are exactly the words that hit no row of the opcode table
(30_encoding.md R119, R120). -/
def Obligations.IllegalWordRaisesIllegalCommand : Prop :=
  (∀ (s : State) (w : Word), s.pending = some w → s.delay = 0 →
    (ReservedOp (w.extractLsb' 0 8).toNat ∨ ReservedBitSet w) →
    step s = .next { s with err := .illegalCommand, errop := w.extractLsb' 0 8, busy := false, pending := none }) ∧
  (∀ w : Word,
    (ReservedOp (w.extractLsb' 0 8).toNat ∨ ReservedBitSet w) ↔ ∀ r ∈ opcodeTable, r.hit w = false)

/-! ### The step, the host and reset -/

/-- When the pending word decodes to a command and is due, the step executes it and completes it: `busy` becomes 0 and
nothing is pending (60_exceptions.md R362). -/
def Obligations.StepRunsThePendingCommand : Prop :=
  ∀ (s t : State) (w : Word) (i : Instr), s.pending = some w → s.delay = 0 → decode w = .ok i →
    exec i s = .next t → step s = .next { t with busy := false, pending := none }

/-- The acceptance of a command (60_exceptions.md R361): a write of CMD while idle is accepted with no error, or when
it is exactly CLRERR or SRESET, and dropped otherwise; while busy it is ignored. (The model's own counter `delay` is
left open.) -/
def Obligations.CmdWriteIssuesACommand : Prop :=
  (∀ (s : State) (w : Word) (rest : List HostEvent), s.inbox = .write 0x004 32 w :: rest → s.pending = none →
    s.busy = false →
    ((s.err = .ok ∨ w = 0x00000001 ∨ w = 0x00000002) →
      ∃ d, step s = .next { s with inbox := rest, pending := some w, busy := true, delay := d }) ∧
    (¬ (s.err = .ok ∨ w = 0x00000001 ∨ w = 0x00000002) → step s = .next { s with inbox := rest })) ∧
  (∀ (s : State) (w w' : Word) (rest : List HostEvent), s.inbox = .write 0x004 32 w :: rest → s.pending = some w' →
    s.busy = true → s.delay ≠ 0 → ∃ d, step s = .next { s with inbox := rest, delay := d })

/-- Every defined write while a command is pending is ignored: no state of the engine changes and no error is raised
(20_memory.md R88). -/
def Obligations.WritesWhileBusyAreIgnored : Prop :=
  ∀ (s : State) (w v : Word) (off : Offset) (rest : List HostEvent), s.busy = true → s.pending = some w →
    s.delay ≠ 0 → off.toNat % 4 = 0 → s.inbox = .write off 32 v :: rest →
    ∃ d, step s = .next { s with inbox := rest, delay := d }

/-- A defined read while a command is pending changes nothing in the engine and gives the host: the constant for ID,
the current STATUS with `busy` 1, 0 for CMD and the reserved offsets (20_memory.md R89), and for CTX, DBUF, S, KEY and
BLK the free value `Config.busyRead` of the draw counter, which goes up by one. That last clause is the model's choice
of how to be "a draw, free of any law" (assumption 3); nothing is said of the value. -/
def Obligations.ReadsWhileBusy : Prop :=
  ∀ (s : State) (w : Word) (off : Offset) (rest : List HostEvent), s.busy = true → s.pending = some w →
    s.delay ≠ 0 → off.toNat % 4 = 0 → s.inbox = .read off 32 :: rest →
    ∃ v d n, step s = .next { s with inbox := rest, delay := d, readLog := s.readLog ++ [v], draws := n } ∧
      (off = 0x000 → v = 0x42454532) ∧
      (off = 0x008 → v = statusWord s ∧ v.getLsbD 0 = true) ∧
      (off = 0x004 ∨ ReservedOffset off → v = 0) ∧
      (ArrayOffset off → v = Config.busyRead s.draws ∧ n = s.draws + 1)

/-- ID reads its constant at all times, busy or not, and ignores writes (10_state.md R31); reserved offsets read 0, and
a write to one, to ID or to STATUS changes nothing; neither is an error (20_memory.md R85). -/
def Obligations.IdAndReservedOffsets : Prop :=
  ∀ (s : State) (off : Offset) (rest : List HostEvent), Served s → off.toNat % 4 = 0 →
    (s.inbox = .read off 32 :: rest →
      (off = 0x000 →
        ∃ d, step s = .next { s with inbox := rest, delay := d, readLog := s.readLog ++ [0x42454532] }) ∧
      (ReservedOffset off →
        ∃ d, step s = .next { s with inbox := rest, delay := d, readLog := s.readLog ++ [0] })) ∧
    (∀ v : Word, s.inbox = .write off 32 v :: rest → (off = 0x000 ∨ off = 0x008 ∨ ReservedOffset off) →
      ∃ d, step s = .next { s with inbox := rest, delay := d })

/-- A read changes no state of the engine, busy or not, and a second read while idle gives the same value
(20_memory.md R90). -/
def Obligations.ReadsHaveNoSideEffect : Prop :=
  ∀ (s : State) (off : Offset),
    SameEngine s (busRead off s) ∧ (s.busy = false → readValue off (busRead off s) = readValue off s)

/-- The byte order and the place of every array (20_memory.md R82): a read of the word at `o + 4k` gives the array's
bytes `4k .. 4k+3`, the first the least significant; a write sets those four bytes and no other; a lane of S is the
word at `0x200 + 8j` and above it the word at `0x204 + 8j`. -/
def Obligations.WordAccessesMoveFourBytes : Prop :=
  ∀ (s : State) (off : Offset) (v : Word) (k : Nat), s.busy = false →
    (k < 48 → off.toNat = 0x100 + 4 * k →
      (∀ j, j < 4 → (readValue off s).extractLsb' (8 * j) 8 = elemAt s.dbuf (4 * k + j)) ∧
      ∃ A, busWrite off v s = { s with dbuf := A } ∧ ∀ i, i < 192 → elemAt A i =
        if 4 * k ≤ i ∧ i < 4 * k + 4 then v.extractLsb' (8 * (i - 4 * k)) 8 else elemAt s.dbuf i) ∧
    (k < 48 → off.toNat = 0x200 + 4 * k →
      (∀ j, j < 4 → (readValue off s).extractLsb' (8 * j) 8 = elemAt s.S (4 * k + j)) ∧
      ∃ A, busWrite off v s = { s with S := A } ∧ ∀ i, i < 192 → elemAt A i =
        if 4 * k ≤ i ∧ i < 4 * k + 4 then v.extractLsb' (8 * (i - 4 * k)) 8 else elemAt s.S i) ∧
    (k < 8 → off.toNat = 0x400 + 4 * k →
      readValue off s = elemAt s.key k ∧
      ∃ A, busWrite off v s = { s with key := A } ∧ ∀ i, i < 8 → elemAt A i = if i = k then v else elemAt s.key i) ∧
    (k < 4 → off.toNat = 0x420 + 4 * k →
      readValue off s = elemAt s.blk k ∧
      ∃ A, busWrite off v s = { s with blk := A } ∧ ∀ i, i < 4 → elemAt A i = if i = k then v else elemAt s.blk i) ∧
    (∀ off' : Offset, k < 24 → off.toNat = 0x200 + 8 * k → off'.toNat = 0x204 + 8 * k →
      lane64 s.S k = readValue off' s ++ readValue off s)

/-- A write of CTX while idle sets CTX when the value is the word of a legal context, and changes nothing otherwise
(10_state.md R37, R38). -/
def Obligations.CtxWriteIsTakenExactlyWhenLegal : Prop :=
  ∀ (s : State) (v : Word), s.busy = false →
    (∀ c : Ctx, LegalCtx c → c.toWord = v → busWrite 0x00C v s = { s with ctx := c }) ∧
    ((¬ ∃ c : Ctx, LegalCtx c ∧ c.toWord = v) → busWrite 0x00C v s = s)

/-- An access of a width other than 32 bits or at an offset that is not a multiple of 4 is a fault of the host, busy or
not (60_exceptions.md R368; that it comes before the busy check is assumption 4, the model's reading). -/
def Obligations.AccessErrorIsAFaultOfTheHost : Prop :=
  ∀ (s : State) (off : Offset) (width : Nat) (rest : List HostEvent), Served s →
    (width ≠ 32 ∨ off.toNat % 4 ≠ 0) →
    (s.inbox = .read off width :: rest → step s = .fault (.accessError off width)) ∧
    (∀ v : Word, s.inbox = .write off width v :: rest → step s = .fault (.accessError off width))

/-- A hardware reset, also while a command is pending, leaves every element of the engine at its reset value, and so
does SRESET (70_reset_and_hazards.md R400, R401; 44_control.md R342). That the host's coming actions, what it has read
and the draw counter are kept is the model's choice (assumption 12). -/
def Obligations.ResetAndSresetGiveTheResetState : Prop :=
  ∀ s : State,
    (∀ rest : List HostEvent, Served s → s.inbox = .hwReset :: rest →
      ∃ t, step s = .next t ∧ EngineReset t ∧ t.inbox = rest ∧ t.readLog = s.readLog ∧ t.draws = s.draws) ∧
    (∃ t, exec .sreset s = .next t ∧ EngineReset t ∧ t.inbox = s.inbox ∧ t.readLog = s.readLog ∧ t.draws = s.draws)

/-- The values of 10_state.md R53, as the window and the arrays show them, in State.reset, after a hardware reset and
after SRESET. -/
def Obligations.ResetValues : Prop :=
  ∀ t : State,
    (t = State.reset ∨ (∃ s, exec .sreset s = .next t) ∨
      (∃ s rest, Served s ∧ s.inbox = .hwReset :: rest ∧ step s = .next t)) →
    readValue 0x000 t = 0x42454532 ∧ readValue 0x008 t = 0x00000000 ∧ readValue 0x00C t = 0x00000000 ∧
    t.busy = false ∧ t.vok = false ∧ t.err = .ok ∧ t.errop = 0 ∧ keyMode t.ctx = false ∧
    t.ctx.mode = .none ∧ t.ctx.phase = .none ∧
    (∀ i, i < 192 → elemAt t.S i = 0 ∧ elemAt t.T i = 0 ∧ elemAt t.dbuf i = 0) ∧
    (∀ j, j < 8 → elemAt t.key j = 0) ∧ (∀ j, j < 4 → elemAt t.blk j = 0) ∧ t.pending = none

/-- The engine's invariant holds after reset. -/
def Obligations.EngineInvHoldsAtReset : Prop := EngineInv State.reset

/-- Every step keeps the engine's invariant: `busy` is 1 exactly when a command is pending, CTX is legal, and without
an error `errop` is 0 (10_state.md R43, R37; the last clause is the half of R34's last sentence that holds,
assumption 5). -/
def Obligations.EveryStepKeepsTheEngineInv : Prop :=
  ∀ s t : State, EngineInv s → step s = .next t → EngineInv t

/-- The last sentence of 10_state.md R34 as it stands, over one step. It FAILS: the word `0x00000100` raises
ILLEGAL_COMMAND with the `OP` `0x00` (60_exceptions.md R364, 95_test_vectors.md V-E2; assumption 5). -/
def Obligations.ErropIsZeroExactlyWithoutError : Prop :=
  ∀ s t : State, EngineInv s → (s.errop = 0 ↔ s.err = .ok) → step s = .next t → (t.errop = 0 ↔ t.err = .ok)

/-- Every accepted command completes, whatever the host does meanwhile but a reset or an access error: after as many
steps as its latency the engine is idle, in the state the command's execution gives from an engine unchanged since
acceptance (60_exceptions.md R362, 20_memory.md R88, R93). That the latency is counted in steps of the model, by
`delay`, is the model's choice (assumption 2). -/
def Obligations.AcceptedCommandCompletes : Prop :=
  ∀ (s : State) (w : Word), s.pending = some w → s.busy = true →
    (∀ e ∈ s.inbox.take s.delay, harmless e = true) →
    ∃ u v t, core.run s.delay s = .next u ∧ SameEngine s u ∧ u.delay = 0 ∧ execWord w u = .next v ∧
      t = { v with busy := false, pending := none } ∧ core.run (s.delay + 1) s = .next t

/-- A sticky error survives every access but the words CLRERR and SRESET written to CMD and a hardware reset: `err` and
`errop` keep their values and no command is accepted (10_state.md R34, 60_exceptions.md R361, R366). -/
def Obligations.StickyErrorSurvivesOtherAccesses : Prop :=
  ∀ (s t : State) (e : HostEvent) (rest : List HostEvent), s.err ≠ .ok → s.busy = false → s.pending = none →
    s.inbox = e :: rest → e ≠ .hwReset → e ≠ .write 0x004 32 0x00000001 → e ≠ .write 0x004 32 0x00000002 →
    step s = .next t → t.err = s.err ∧ t.errop = s.errop ∧ t.busy = false ∧ t.pending = none

/-! ### Errors and checks -/

/-- A command that fails, of whatever word, changes `err` and `errop` alone, and `errop` is the word's `OP`
(60_exceptions.md R364, R365). -/
def Obligations.FailedCommandChangesOnlyErrAndErrop : Prop :=
  ∀ (w : Word) (s t : State), s.err = .ok → execWord w s = .next t → t.err ≠ .ok →
    t = { s with err := t.err, errop := w.extractLsb' 0 8 }

/-- The checks in their order: decode, mode, operands, key mode. The first that fails is the error reported, with no
other change; a command that passes them all does not fail (60_exceptions.md R363). The mode and operand checks are a
function of the command and CTX alone. -/
def Obligations.ChecksFailInTheirOrder : Prop :=
  (∀ (w : Word) (s : State), (∀ r ∈ opcodeTable, r.hit w = false) →
    execWord w s = .next { s with err := .illegalCommand, errop := w.extractLsb' 0 8 }) ∧
  (∀ (w : Word) (i : Instr) (s : State), decode w = .ok i →
    (expectedError i s.ctx ≠ .ok →
      execWord w s = .next { s with err := expectedError i s.ctx, errop := w.extractLsb' 0 8 }) ∧
    (expectedError i s.ctx = .ok → ∃ t, execWord w s = .next t ∧
      (i ≠ .clrerr → i ≠ .sreset → t.err = s.err ∧ t.errop = s.errop)))

/-- CLRERR after a failed command gives back the state before that command (44_control.md R341, 60_exceptions.md
R365). -/
def Obligations.ClrerrUndoesAFailedCommand : Prop :=
  ∀ (w : Word) (s t : State), s.err = .ok → s.errop = 0 → execWord w s = .next t → t.err ≠ .ok →
    exec .clrerr t = .next s

/-- The STATUS word: `busy`, the computed key mode, `vok`, the reserved bits 0, `err` and `errop` (10_state.md R33,
R35). -/
def Obligations.StatusWordLayout : Prop :=
  ∀ s : State,
    (readValue 0x008 s).getLsbD 0 = s.busy ∧
    ((readValue 0x008 s).getLsbD 1 = true ↔ KeyMode s.ctx) ∧
    (readValue 0x008 s).getLsbD 2 = s.vok ∧
    (readValue 0x008 s).getLsbD 3 = false ∧
    ((readValue 0x008 s).extractLsb' 4 4).toNat = errNumber s.err ∧
    (readValue 0x008 s).extractLsb' 8 8 = s.errop ∧
    (readValue 0x008 s).extractLsb' 16 16 = 0

/-- The CTX word while idle: its fields at their places (10_state.md R36). -/
def Obligations.CtxWordLayout : Prop :=
  ∀ s : State, s.busy = false →
    (readValue 0x00C s).extractLsb' 0 8 = s.ctx.pos ∧ (readValue 0x00C s).extractLsb' 8 8 = s.ctx.buffLen ∧
    (readValue 0x00C s).extractLsb' 16 9 = s.ctx.l ∧ (readValue 0x00C s).extractLsb' 25 2 = s.ctx.d ∧
    ((readValue 0x00C s).extractLsb' 27 2 = match s.ctx.mode with | .none => 0 | .hash => 1 | .prg => 2) ∧
    ((readValue 0x00C s).extractLsb' 29 3 = match s.ctx.phase with
      | .none => 0 | .fresh => 1 | .absorb => 2 | .squeeze => 3 | .encr => 4 | .decr => 5)

/-! ### Control commands and Bash-f -/

/-- NOP changes nothing, CLRERR clears `err` and `errop` and nothing else, SRESET resets every element of the engine
(44_control.md R340, R341, R342). That SRESET keeps the host's coming actions, what it has read and the draw counter is
the model's choice (assumption 12). -/
def Obligations.ControlCommandEffects : Prop :=
  ∀ s : State, exec .nop s = .next s ∧ exec .clrerr s = .next { s with err := .ok, errop := 0 } ∧
    ∃ t, exec .sreset s = .next t ∧ EngineReset t ∧ t.inbox = s.inbox ∧ t.readLog = s.readLog ∧ t.draws = s.draws

/-- `Pk` is `P1` applied `k` times for `k = 0..5`, and `P1` has order 6 (40_bashf.md R155). -/
def Obligations.LaneMapsAreIteratesOfP1 : Prop :=
  (∀ k, k < 6 → ∀ x, x < 24 → laneMap k x = (laneMap 1)^[k] x) ∧ (∀ x, x < 24 → (laneMap 1)^[6] x = laneMap 0 x) ∧
  (∀ k, 0 < k → k < 6 → ∃ x, x < 24 ∧ (laneMap 1)^[k] x ≠ x)

/-- `bash_f0` by renaming lanes equals the physical form that moves them (40_bashf.md R159). -/
def Obligations.BashF0EqualsThePhysicalForm : Prop :=
  ∀ W : Vector Lane 24, bashF0 W = (List.range 24).foldl physicalRound W

/-- `bashS` of the zero triple and of the all-ones triple, for every rotation tuple (40_bashf.md R163). -/
def Obligations.SboxOfZerosAndOnes : Prop :=
  ∀ r : Rot,
    bashS 0 0 0 r = (0xFFFFFFFFFFFFFFFF, 0, 0) ∧
    bashS 0xFFFFFFFFFFFFFFFF 0xFFFFFFFFFFFFFFFF 0xFFFFFFFFFFFFFFFF r = (0, 0, 0xFFFFFFFFFFFFFFFF)

/-- The eight `bashS` calls of a round touch disjoint lane triples, so their order does not matter (40_bashf.md
R156). -/
def Obligations.SboxCallsOfARoundCommute : Prop :=
  ∀ (k j j' : Nat) (W : Vector Lane 24), k < 6 → j < 8 → j' < 8 → j ≠ j' →
    sboxTriple (laneMap k) (sboxTriple (laneMap k) W j) j' = sboxTriple (laneMap k) (sboxTriple (laneMap k) W j') j

/-- BASHF, in every mode, replaces the lanes of S by `bash_f0` of them and changes nothing else (40_bashf.md R160,
R161). -/
def Obligations.BashfPermutesTheLanesOfS : Prop :=
  ∀ s : State, ∃ A, exec .bashf s = .next { s with S := A } ∧
    ∀ j, j < 24 → lane64 A j = elemAt (bashF0 (tabulate 24 (lane64 s.S))) j

/-! ### The hash driver -/

/-- HASH_INIT at an accepted level starts a context: S is 0 but `S[184] = l/4`, CTX as given, and nothing else changes
(41_hash.md R200). -/
def Obligations.HashInitStartsAContext : Prop :=
  ∀ (s : State) (l : Nat), l % 16 = 0 → l ≤ 256 →
    ∃ A, exec (.hashInit l) s =
        .next { s with S := A, ctx := { pos := 0, buffLen := BitVec.ofNat 8 (192 - l / 2), l := BitVec.ofNat 9 l,
                                        d := 0, mode := .hash, phase := .absorb } } ∧
      ∀ j, j < 192 → elemAt A j = if j = 184 then BitVec.ofNat 8 (l / 4) else 0

/-- HASH_STEP within the rate: the bytes of DBUF overwrite the rate from `pos`, `pos` moves, and at the very end of the
rate the permutation runs and `pos` is 0 (41_hash.md R202). -/
def Obligations.HashStepWithinTheRate : Prop :=
  ∀ (s : State) (n : Nat), s.ctx.mode = .hash → FitsRate n s →
    ∃ A, exec (.hashStep n) s = .next (afterRate n A s) ∧
      ∀ j, j < 192 → elemAt A j =
        if s.ctx.pos.toNat ≤ j ∧ j < s.ctx.pos.toNat + n then elemAt s.dbuf (j - s.ctx.pos.toNat) else elemAt s.S j

/-- HASH_STEP over every split of a message gives the S and `pos` of one byte loop over the message (41_hash.md R202,
R204). -/
def Obligations.HashStepsAreSplitInvariant : Prop :=
  SplitInvariant .hashStep (fun _ b => b) (fun _ b => b) fun c => c.mode = .hash

/-- HASH_FINAL writes `bash_f` of the padded copy to T, its first `l/4` bytes to DBUF, and nothing else (41_hash.md
R205, R206). -/
def Obligations.HashFinalWritesTheDigest : Prop :=
  ∀ s : State, s.ctx.mode = .hash →
    ∃ A D, exec .hashFinal s = .next { s with T := bashF A, dbuf := D } ∧ Padded s A ∧
      ∀ i, i < 192 → elemAt D i = if i < s.ctx.l.toNat / 4 then elemAt (bashF A) i else elemAt s.dbuf i

/-- HASH_VERIFY sets `vok` to whether the first `l/4` bytes of DBUF are the digest, writes T, and nothing else
(41_hash.md R205, R207). -/
def Obligations.HashVerifyComparesTheDigest : Prop :=
  ∀ s : State, s.ctx.mode = .hash →
    ∃ A b, exec .hashVerify s = .next { s with T := bashF A, vok := b } ∧ Padded s A ∧
      (b = true ↔ ∀ i, i < s.ctx.l.toNat / 4 → elemAt s.dbuf i = elemAt (bashF A) i)

/-- HASH_VERIFY of the digest HASH_FINAL wrote gives `vok = 1`, and flipping a byte of it gives `vok = 0` (41_hash.md
R207, example and last sentence), for every legal digest length. -/
def Obligations.VerifyAfterFinalSucceeds : Prop :=
  ∀ s : State, s.ctx.mode = .hash → s.ctx.l.toNat ≤ 256 →
    ∃ t u, exec .hashFinal s = .next t ∧ exec .hashVerify t = .next u ∧ u.vok = true ∧
      ∀ (i : Nat) (x : Byte), i < s.ctx.l.toNat / 4 → x ≠ elemAt t.dbuf i →
        ∃ v, exec .hashVerify { t with dbuf := putAt t.dbuf i x } = .next v ∧ v.vok = false

/-! ### The programmable sponge -/

/-- PRG_START with its preconditions builds S from the header byte, the annotation, the key and `S[184]`, sets CTX, and
changes nothing else (42_prg.md R241, R250). -/
def Obligations.PrgStartBuildsTheContext : Prop :=
  ∀ (s : State) (l d ann key : Nat), StartLengths l d ann key →
    ∃ A, exec (.prgStart l d ann key) s =
        .next { s with S := A, ctx := { pos := BitVec.ofNat 8 (1 + ann + key),
                                        buffLen := BitVec.ofNat 8
                                          (if key = 0 then 192 - d * l / 4 else 192 - l * (2 + d) / 16),
                                        l := BitVec.ofNat 9 l, d := BitVec.ofNat 2 d, mode := .prg,
                                        phase := .fresh } } ∧
      ∀ j, j < 192 → elemAt A j =
        if j = 0 then BitVec.ofNat 8 (4 * ann + key / 4)
        else if j < 1 + ann then elemAt s.dbuf (j - 1)
        else if j < 1 + ann + key then elemAt s.dbuf (ann + (j - (1 + ann)))
        else if j = 184 then BitVec.ofNat 8 (l / 4 + d)
        else 0

/-- PRG_RESTART commits under the old rate, switches to the keyed rate when there is a key, XORs the header over S, and
sets `pos` and the phase; nothing else changes (42_prg.md R245, R251). -/
def Obligations.PrgRestartOverlaysTheHeader : Prop :=
  ∀ (s : State) (ann key : Nat), s.ctx.mode = .prg → HeaderLengths s.ctx.l.toNat ann key →
    ∃ A B, exec (.prgRestart ann key) s =
        .next { s with S := B, ctx := { s.ctx with pos := BitVec.ofNat 8 (1 + ann + key),
                                                   buffLen := if key = 0 then s.ctx.buffLen else
                                                     BitVec.ofNat 8
                                                       (192 - s.ctx.l.toNat * (2 + s.ctx.d.toNat) / 16),
                                                   phase := .fresh } } ∧
      Committed (if key = 0 then 0x01 else 0x05) s A ∧
      ∀ j, j < 192 → elemAt B j = elemAt (bashF A) j ^^^
        (if j = 0 then BitVec.ofNat 8 (4 * ann + key / 4)
         else if j < 1 + ann + key then elemAt s.dbuf (j - 1) else 0)

/-- The four phase commands commit their code, permute, set `pos` to 0 and the phase, and change nothing else; the
commit of encryption and of decryption is the same (42_prg.md R242, R252, R254, R256, R258). -/
def Obligations.PrgPhaseCommandsCommit : Prop :=
  ∀ s : State, s.ctx.mode = .prg →
    (∃ A, exec .prgAbsorbStart s = .next { s with S := bashF A, ctx := { s.ctx with pos := 0, phase := .absorb } } ∧
      Committed 0x09 s A) ∧
    (∃ A, exec .prgSqueezeStart s = .next { s with S := bashF A, ctx := { s.ctx with pos := 0, phase := .squeeze } } ∧
      Committed 0x11 s A) ∧
    (KeyMode s.ctx →
      ∃ A, exec .prgEncrStart s = .next { s with S := bashF A, ctx := { s.ctx with pos := 0, phase := .encr } } ∧
        exec .prgDecrStart s = .next { s with S := bashF A, ctx := { s.ctx with pos := 0, phase := .decr } } ∧
        Committed 0x0D s A)

/-- PRG_ABSORB within the rate: the bytes of DBUF are XORed into the rate from `pos` (42_prg.md R243, R253). -/
def Obligations.PrgAbsorbWithinTheRate : Prop :=
  ∀ (s : State) (n : Nat), s.ctx.mode = .prg → FitsRate n s →
    ∃ A, exec (.prgAbsorb n) s = .next (afterRate n A s) ∧
      ∀ j, j < 192 → elemAt A j = elemAt s.S j ^^^
        (if s.ctx.pos.toNat ≤ j ∧ j < s.ctx.pos.toNat + n then elemAt s.dbuf (j - s.ctx.pos.toNat) else 0)

/-- PRG_SQUEEZE within the rate: the rate from `pos` is copied to `DBUF[0..n]`, and no byte of S is written but by the
permutation at the end of the rate (42_prg.md R243, R255). -/
def Obligations.PrgSqueezeWithinTheRate : Prop :=
  ∀ (s : State) (n : Nat), s.ctx.mode = .prg → FitsRate n s →
    ∃ D, exec (.prgSqueeze n) s = .next { afterRate n s.S s with dbuf := D } ∧
      ∀ i, i < 192 → elemAt D i = if i < n then elemAt s.S (s.ctx.pos.toNat + i) else elemAt s.dbuf i

/-- PRG_ENCR within the rate, in key mode: the plaintext is XORed into the rate, and the updated rate bytes are the
ciphertext in DBUF (42_prg.md R243, R257). -/
def Obligations.PrgEncrWithinTheRate : Prop :=
  ∀ (s : State) (n : Nat), KeyMode s.ctx → FitsRate n s →
    ∃ A D, exec (.prgEncr n) s = .next { afterRate n A s with dbuf := D } ∧
      (∀ j, j < 192 → elemAt A j = elemAt s.S j ^^^
        (if s.ctx.pos.toNat ≤ j ∧ j < s.ctx.pos.toNat + n then elemAt s.dbuf (j - s.ctx.pos.toNat) else 0)) ∧
      ∀ i, i < 192 → elemAt D i =
        if i < n then elemAt s.S (s.ctx.pos.toNat + i) ^^^ elemAt s.dbuf i else elemAt s.dbuf i

/-- PRG_DECR within the rate, in key mode: DBUF gets the plaintext, and the rate bytes become the ciphertext
(42_prg.md R243, R259). -/
def Obligations.PrgDecrWithinTheRate : Prop :=
  ∀ (s : State) (n : Nat), KeyMode s.ctx → FitsRate n s →
    ∃ A D, exec (.prgDecr n) s = .next { afterRate n A s with dbuf := D } ∧
      (∀ j, j < 192 → elemAt A j =
        if s.ctx.pos.toNat ≤ j ∧ j < s.ctx.pos.toNat + n then elemAt s.dbuf (j - s.ctx.pos.toNat)
        else elemAt s.S j) ∧
      ∀ i, i < 192 → elemAt D i =
        if i < n then elemAt s.S (s.ctx.pos.toNat + i) ^^^ elemAt s.dbuf i else elemAt s.dbuf i

/-- The four step commands of a Prg context over every split of a string leave the S and CTX, and give the output
bytes, of one byte loop over the string (42_prg.md R248). -/
def Obligations.PrgStepsAreSplitInvariant : Prop :=
  SplitInvariant .prgAbsorb (fun a b => a ^^^ b) (fun _ b => b) (fun c => c.mode = .prg) ∧
  SplitInvariant .prgSqueeze (fun a _ => a) (fun a _ => a) (fun c => c.mode = .prg) ∧
  SplitInvariant .prgEncr (fun a b => a ^^^ b) (fun a b => a ^^^ b) KeyMode ∧
  SplitInvariant .prgDecr (fun _ b => b) (fun a b => a ^^^ b) KeyMode

/-- For every count up to 192, also across the end of the rate, the five step commands complete, and change S, `pos`
and at most the first `n` bytes of DBUF (10_state.md R46; 41_hash.md R202; 42_prg.md R253, R255, R257, R259). -/
def Obligations.StepCommandsCompleteForEveryCount : Prop :=
  ∀ (s : State) (n : Nat), n ≤ 192 →
    (s.ctx.mode = .hash →
      ∃ A p, exec (.hashStep n) s = .next { s with S := A, ctx := { s.ctx with pos := p } }) ∧
    (s.ctx.mode = .prg →
      ∃ A p, exec (.prgAbsorb n) s = .next { s with S := A, ctx := { s.ctx with pos := p } }) ∧
    (s.ctx.mode = .prg →
      ∃ A D p, exec (.prgSqueeze n) s = .next { s with S := A, dbuf := D, ctx := { s.ctx with pos := p } } ∧
        ∀ i, n ≤ i → elemAt D i = elemAt s.dbuf i) ∧
    (KeyMode s.ctx →
      (∃ A D p, exec (.prgEncr n) s = .next { s with S := A, dbuf := D, ctx := { s.ctx with pos := p } } ∧
        ∀ i, n ≤ i → elemAt D i = elemAt s.dbuf i) ∧
      (∃ A D p, exec (.prgDecr n) s = .next { s with S := A, dbuf := D, ctx := { s.ctx with pos := p } } ∧
        ∀ i, n ≤ i → elemAt D i = elemAt s.dbuf i))

/-- PRG_RATCHET: T is the old S, S is the committed and permuted S with the old S XORed in over all 192 bytes, `pos` is
0, and nothing else changes (42_prg.md R260). -/
def Obligations.PrgRatchetXorsTheSavedState : Prop :=
  ∀ s : State, s.ctx.mode = .prg →
    ∃ A B, exec .prgRatchet s = .next { s with S := B, T := s.S, ctx := { s.ctx with pos := 0 } } ∧
      Committed 0x01 s A ∧ ∀ j, j < 192 → elemAt B j = elemAt (bashF A) j ^^^ elemAt s.S j

/-- The AEAD round trip: from one keyed context, decrypting the ciphertext gives back the plaintext, the same tag, and
the same S and CTX, for every header, plaintext and tag length, over every split of the tag length into pieces of at
most 192 bytes (42_prg.md R261). -/
def Obligations.AeadRoundTrip : Prop :=
  ∀ (s : State) (header plaintext : List Byte) (n : Nat) (pieces : List Nat), KeyMode s.ctx → pieces.sum = n →
    (∀ c ∈ pieces, c ≤ 192) →
    ∃ ciphertext tag t t',
      tag.length = n ∧
      aeadRun .prgEncrStart .prgEncr header plaintext pieces s = some (ciphertext, tag, t) ∧
      aeadRun .prgDecrStart .prgDecr header ciphertext pieces s = some (plaintext, tag, t') ∧
      t'.S = t.S ∧ t'.ctx = t.ctx

/-- `buff_len` changes only in PRG_START, in PRG_RESTART with a key, in HASH_INIT and in SRESET, so no other command
enters or leaves key mode (42_prg.md R245). -/
def Obligations.OnlyStartsAndRekeyingChangeTheRate : Prop :=
  ∀ (i : Instr) (s t : State), exec i s = .next t →
    (∀ l, i ≠ .hashInit l) → (∀ l d ann key, i ≠ .prgStart l d ann key) → i ≠ .sreset →
    (∀ ann key, i = .prgRestart ann key → key = 0) →
    t.ctx.buffLen = s.ctx.buffLen ∧ (KeyMode t.ctx ↔ KeyMode s.ctx)

/-- `CTX.phase` after each command that does not fail (42_prg.md R247). -/
def Obligations.PhaseAfterEachCommand : Prop :=
  ∀ (i : Instr) (s t : State), s.err = .ok → exec i s = .next t → t.err = .ok →
    t.ctx.phase = phaseAfter i s.ctx.phase

/-- No command reads the phase: with another phase before it, every command ends in the same state but for the phase
(10_state.md R39). -/
def Obligations.NoCommandReadsThePhase : Prop :=
  ∀ (i : Instr) (s t : State) (p : Phase), exec i s = .next t →
    ∃ q, exec i { s with ctx := { s.ctx with phase := p } } = .next { t with ctx := { t.ctx with phase := q } }

/-- T is unobservable: with other bytes in T, every step ends alike but for T (10_state.md R44). -/
def Obligations.ScratchIsUnobservable : Prop :=
  ∀ (s : State) (X : Vector Byte 192),
    (∀ t, step s = .next t → ∃ Y, step { s with T := X } = .next { t with T := Y }) ∧
    (∀ r, step s = .fault r → step { s with T := X } = .fault r)

/-- What each command leaves: only SRESET writes KEY, only the Belt commands and SRESET write BLK, only HASH_VERIFY and
SRESET write `vok`, DBUF is written only by the commands that produce bytes, T only by those that use it, and the Belt
and control commands touch no Bash state (10_state.md R52; 41_hash.md R205; 42_prg.md R260; 43_belt.md R309, R310). -/
def Obligations.WhatEachCommandLeaves : Prop :=
  ∀ (i : Instr) (s t : State), exec i s = .next t → i ≠ .sreset →
    t.key = s.key ∧
    (i ≠ .beltEnc → i ≠ .beltDec → t.blk = s.blk) ∧
    (i ≠ .hashVerify → t.vok = s.vok) ∧
    (i ≠ .hashFinal → (∀ n, i ≠ .prgSqueeze n) → (∀ n, i ≠ .prgEncr n) → (∀ n, i ≠ .prgDecr n) → t.dbuf = s.dbuf) ∧
    (i ≠ .hashFinal → i ≠ .hashVerify → i ≠ .prgRatchet → t.T = s.T) ∧
    (i = .nop ∨ i = .clrerr ∨ i = .hashFinal ∨ i = .hashVerify ∨ i = .beltEnc ∨ i = .beltDec →
      t.S = s.S ∧ t.ctx = s.ctx) ∧
    t.busy = s.busy ∧ t.pending = s.pending ∧ t.inbox = s.inbox ∧ t.readLog = s.readLog

/-! ### Belt -/

/-- BELT_ENC and BELT_DEC, in every mode, replace the four words of BLK by the cipher's, and change nothing else
(43_belt.md R309, R310). -/
def Obligations.BeltCommandsTransformTheBlock : Prop :=
  ∀ s : State, ∀ x : Quad,
    x = { a := elemAt s.blk 0, b := elemAt s.blk 1, c := elemAt s.blk 2, d := elemAt s.blk 3 } →
    (∃ y, exec .beltEnc s = .next { s with blk := y } ∧
      beltEncr s.key x = { a := elemAt y 0, b := elemAt y 1, c := elemAt y 2, d := elemAt y 3 }) ∧
    (∃ y, exec .beltDec s = .next { s with blk := y } ∧
      beltDecr s.key x = { a := elemAt y 0, b := elemAt y 1, c := elemAt y 2, d := elemAt y 3 })

/-- Decryption inverts encryption for every block and key, and BELT_DEC after BELT_ENC gives back the state
(43_belt.md R311). -/
def Obligations.BeltDecryptionInvertsEncryption : Prop :=
  (∀ (key : Vector Word 8) (x : Quad), beltDecr key (beltEncr key x) = x) ∧
  ∀ s : State, ∃ t, exec .beltEnc s = .next t ∧ exec .beltDec t = .next s

/-- The G-functions by table lookups are the byte substitution followed by a rotation (43_belt.md R304). -/
def Obligations.GFunctionsAreRotatedSubstitutions : Prop :=
  ∀ u : Word,
    g5 u = (substituteBytes u).rotateLeft 5 ∧ g13 u = (substituteBytes u).rotateLeft 13 ∧
    g21 u = (substituteBytes u).rotateLeft 21

/-! ### Host sequences -/

/-- SAVE and a later RESTORE of the image, on whatever idle engine, put S and CTX back, and change nothing else of it
(30_encoding.md R136). -/
def Obligations.RestoreOfASavedContext : Prop :=
  ∀ s : State, s.pending = none → s.busy = false → LegalCtx s.ctx →
    ∃ t, core.run 49 { s with inbox := hostSave, readLog := [] } = .next t ∧ SameEngine s t ∧
      ∀ u : State, u.pending = none → u.busy = false →
        core.run 49 { u with inbox := hostRestore (readResult t.readLog 196) } =
          .next { u with S := s.S, ctx := s.ctx, inbox := [] }

/-! ### The end of a run -/

/-- The outcome of a run is taken at the first state in which the run has ended, and is STATUS, CTX, S, DBUF, KEY and
BLK there with the values the host has read since the run's start; a reset that comes later is no part of it
(70_reset_and_hazards.md R412). That a run is over `step`, within a number of steps, and which actions count as the
host's accesses, is the model's choice (assumptions 1 and 25). -/
def Obligations.OutcomeIsTakenAtTheFirstEndedState : Prop :=
  ∀ (fuel : Nat) (s : State) (o : RunOutcome), runOutcome fuel s = some o ↔
    ∃ k t, k ≤ fuel ∧ core.run k s = .next t ∧ Ended t ∧
      (∀ j, j < k → ∀ u, core.run j s = .next u → ¬ Ended u) ∧
      o.status = statusWord t ∧ o.ctx = t.ctx.toWord ∧ o.S = t.S ∧ o.dbuf = t.dbuf ∧ o.key = t.key ∧ o.blk = t.blk ∧
      o.reads = t.readLog.drop s.readLog.length

/-- How far the last sentence of 10_state.md R34 reaches: after a word executed without an error before it, `errop = 0`
exactly when `err = 0`, except for the words other than NOP whose `OP` is 0, which raise ILLEGAL_COMMAND and record that
`OP` (60_exceptions.md R364, 95_test_vectors.md V-E2). That R364 is followed there is assumption 5. -/
def Obligations.ErropIsZeroExactlyWithoutErrorButForOpZero : Prop :=
  ∀ (w : Word) (s t : State), s.err = .ok → s.errop = 0 → execWord w s = .next t →
    ((t.errop = 0 ↔ t.err = .ok) ↔ (w.extractLsb' 0 8 ≠ 0 ∨ w = 0)) ∧
    (w.extractLsb' 0 8 = 0 → w ≠ 0 → t.err = .illegalCommand ∧ t.errop = 0)
end

