-- ==== Sys2Proof/Laws/Bytes.lean ====
section
/-! SUPPORT. The small lemmas of arrays, lanes and words: reading after each way of writing, extensionality, and the
little-endian views. -/

namespace Sys2Proof.Laws

open Sys2Proof Sys2Proof.Machine

variable {w n : Nat}

theorem elemAt_eq_getElem (A : Vector (BitVec w) n) (i : Nat) (h : i < n) : elemAt A i = A[i] := by
  simp [elemAt, h]

theorem elemAt_of_le (A : Vector (BitVec w) n) (i : Nat) (h : n ≤ i) : elemAt A i = 0 := by
  simp [elemAt, h]

/-- Two arrays are equal when they agree on every index inside. -/
theorem array_ext {A B : Vector (BitVec w) n} (h : ∀ i, i < n → elemAt A i = elemAt B i) : A = B := by
  apply Vector.ext
  intro i hi
  have := h i hi
  rwa [elemAt_eq_getElem A i hi, elemAt_eq_getElem B i hi] at this

@[simp] theorem elemAt_tabulate (f : Nat → BitVec w) (i : Nat) (h : i < n) : elemAt (tabulate n f) i = f i := by
  simp [elemAt, tabulate, h]

@[simp] theorem tabulate_elemAt (A : Vector (BitVec w) n) : tabulate n (elemAt A) = A :=
  array_ext fun i hi => elemAt_tabulate _ i hi

/-- Reading after `A[i] <- x`. -/
theorem elemAt_putAt (A : Vector (BitVec w) n) (i j : Nat) (x : BitVec w) :
    elemAt (putAt A i x) j = if j = i ∧ i < n then x else elemAt A j := by
  by_cases hj : j < n
  · simp only [elemAt, putAt, Vector.toList_mk, List.getD_eq_getElem?_getD, List.getElem?_set]
    by_cases hij : i = j
    · subst hij; simp [hj]
    · have : ¬ j = i := fun h => hij h.symm
      simp [hij, this]
  · rw [elemAt_of_le _ _ (by omega), elemAt_of_le _ _ (by omega)]
    split
    · omega
    · rfl

@[simp] theorem elemAt_putAt_self (A : Vector (BitVec w) n) (i : Nat) (x : BitVec w) (h : i < n) :
    elemAt (putAt A i x) i = x := by simp [elemAt_putAt, h]

@[simp] theorem elemAt_putAt_ne (A : Vector (BitVec w) n) (i j : Nat) (x : BitVec w) (h : j ≠ i) :
    elemAt (putAt A i x) j = elemAt A j := by simp [elemAt_putAt, h]

@[simp] theorem putAt_elemAt (A : Vector (BitVec w) n) (i : Nat) : putAt A i (elemAt A i) = A :=
  array_ext fun j _ => by rw [elemAt_putAt]; split <;> simp_all

@[simp] theorem putAt_putAt (A : Vector (BitVec w) n) (i : Nat) (x y : BitVec w) :
    putAt (putAt A i x) i y = putAt A i y :=
  array_ext fun j _ => by simp only [elemAt_putAt]; split <;> simp_all

theorem putAt_comm (A : Vector (BitVec w) n) (i j : Nat) (x y : BitVec w) (h : i ≠ j) :
    putAt (putAt A i x) j y = putAt (putAt A j y) i x :=
  array_ext fun k _ => by
    simp only [elemAt_putAt]
    by_cases hi : k = i <;> by_cases hj : k = j <;> simp_all

/-- Reading after `A[lo .. lo+len] <- f`. -/
theorem elemAt_overlay (A : Vector (BitVec w) n) (lo len i : Nat) (f : Nat → BitVec w) (h : i < n) :
    elemAt (overlay A lo len f) i = if lo ≤ i ∧ i < lo + len then f (i - lo) else elemAt A i := by
  simp [overlay, h]

@[simp] theorem overlay_zero (A : Vector (BitVec w) n) (lo : Nat) (f : Nat → BitVec w) : overlay A lo 0 f = A :=
  array_ext fun i hi => by rw [elemAt_overlay _ _ _ _ _ hi]; split <;> [omega; rfl]

@[simp] theorem elemAt_xorArrays (A B : Vector (BitVec w) n) (i : Nat) (h : i < n) :
    elemAt (xorArrays A B) i = elemAt A i ^^^ elemAt B i := by simp [xorArrays, h]

@[simp] theorem elemAt_replicate_zero (i : Nat) : elemAt (Vector.replicate n (0 : BitVec w)) i = 0 := by
  by_cases h : i < n
  · simp [elemAt_eq_getElem _ _ h]
  · exact elemAt_of_le _ _ (by omega)

/-! ### Little-endian views -/

theorem leByte_getLsbD (x : BitVec w) (k j : Nat) (h : j < 8) : (leByte x k).getLsbD j = x.getLsbD (8 * k + j) := by
  simp [leByte, h]

/-- Byte `k` of `word32(A, m)` is `A[4m + k]`. -/
theorem leByte_word32 (A : Vector Byte n) (m k : Nat) (h : k < 4) : leByte (word32 A m) k = elemAt A (4 * m + k) := by
  apply BitVec.eq_of_getLsbD_eq
  intro j hj
  rw [leByte_getLsbD _ _ _ hj]
  simp only [word32, BitVec.getLsbD_append]
  interval_cases k <;> (repeat' split) <;> first | omega | (congr 1; omega)

/-- Byte `k` of `lane64(A, m)` is `A[8m + k]`. -/
theorem leByte_lane64 (A : Vector Byte n) (m k : Nat) (h : k < 8) : leByte (lane64 A m) k = elemAt A (8 * m + k) := by
  apply BitVec.eq_of_getLsbD_eq
  intro j hj
  rw [leByte_getLsbD _ _ _ hj]
  simp only [lane64, BitVec.getLsbD_append]
  interval_cases k <;> (repeat' split) <;> first | omega | (congr 1; omega)

/-- A value of `m` bytes or fewer is determined by its bytes. -/
theorem ext_of_leByte (m : Nat) {u v : BitVec w} (hw : w ≤ 8 * m) (h : ∀ k, k < m → leByte u k = leByte v k) :
    u = v := by
  apply BitVec.eq_of_getLsbD_eq
  intro j hj
  have hb := h (j / 8) (by omega)
  have hu := leByte_getLsbD u (j / 8) (j % 8) (by omega)
  have hv := leByte_getLsbD v (j / 8) (j % 8) (by omega)
  rw [Nat.div_add_mod] at hu hv
  rw [← hu, ← hv, hb]

/-- A word is determined by its four bytes. -/
theorem word_ext {u v : Word} (h : ∀ k, k < 4 → leByte u k = leByte v k) : u = v :=
  ext_of_leByte 4 (by decide) h

/-- A lane is determined by its eight bytes. -/
theorem lane_ext {u v : Lane} (h : ∀ k, k < 8 → leByte u k = leByte v k) : u = v :=
  ext_of_leByte 8 (by decide) h

/-- Reading the bytes after writing a word back. -/
theorem elemAt_putWord32 (A : Vector Byte n) (k i : Nat) (v : Word) (h : i < n) :
    elemAt (putWord32 A k v) i = if 4 * k ≤ i ∧ i < 4 * k + 4 then leByte v (i - 4 * k) else elemAt A i :=
  elemAt_overlay _ _ _ _ _ h

/-- Reading a word after writing it back. -/
theorem word32_putWord32 (A : Vector Byte n) (k : Nat) (v : Word) (h : 4 * k + 3 < n) :
    word32 (putWord32 A k v) k = v := by
  apply word_ext
  intro j hj
  rw [leByte_word32 _ _ _ hj, elemAt_putWord32 _ _ _ _ (by omega), if_pos (by omega)]
  congr 1
  omega

/-- Reading another word after writing one. -/
theorem word32_putWord32_ne (A : Vector Byte n) (k m : Nat) (v : Word) (h : 4 * m + 3 < n) (hne : m ≠ k) :
    word32 (putWord32 A k v) m = word32 A m := by
  apply word_ext
  intro j hj
  rw [leByte_word32 _ _ _ hj, leByte_word32 _ _ _ hj, elemAt_putWord32 _ _ _ _ (by omega), if_neg (by omega)]

/-- The lane view of the bytes of 24 lanes is those lanes (40_bashf.md R160). -/
@[simp] theorem lanesOf_bytesOf (W : Vector Lane 24) : lanesOf (bytesOf W) = W :=
  array_ext fun j hj => by
    rw [lanesOf, elemAt_tabulate _ _ hj]
    apply lane_ext
    intro k hk
    rw [leByte_lane64 _ _ _ hk, bytesOf, elemAt_tabulate _ _ (by omega)]
    congr 2 <;> omega

/-- The bytes of the lane view of an array are that array (40_bashf.md R160). -/
@[simp] theorem bytesOf_lanesOf (A : Vector Byte 192) : bytesOf (lanesOf A) = A :=
  array_ext fun i hi => by
    rw [bytesOf, elemAt_tabulate _ _ hi, lanesOf, elemAt_tabulate _ _ (by omega),
      leByte_lane64 _ _ _ (by omega), Nat.div_add_mod]

/-- The lanes after `bash_f` are `bash_f0` of the lanes before. -/
@[simp] theorem lanesOf_bashF (A : Vector Byte 192) : lanesOf (bashF A) = bashF0 (lanesOf A) := by simp [bashF]

end Sys2Proof.Laws
end

