-- ==== Sys2Proof/Laws/State.lean ====
section
/-! SUPPORT. One lemma per field per update of the state: each update's own value where it writes the field, and the
old value where it does not. -/

namespace Sys2Proof.Laws

open Sys2Proof Sys2Proof.Machine

variable (s : State)

/-! ### `setVok` -/

@[simp] theorem setVok_busy (b : Bool) : (setVok b s).busy = s.busy := rfl
@[simp] theorem setVok_vok (b : Bool) : (setVok b s).vok = b := rfl
@[simp] theorem setVok_err (b : Bool) : (setVok b s).err = s.err := rfl
@[simp] theorem setVok_errop (b : Bool) : (setVok b s).errop = s.errop := rfl
@[simp] theorem setVok_ctx (b : Bool) : (setVok b s).ctx = s.ctx := rfl
@[simp] theorem setVok_S (b : Bool) : (setVok b s).S = s.S := rfl
@[simp] theorem setVok_T (b : Bool) : (setVok b s).T = s.T := rfl
@[simp] theorem setVok_dbuf (b : Bool) : (setVok b s).dbuf = s.dbuf := rfl
@[simp] theorem setVok_key (b : Bool) : (setVok b s).key = s.key := rfl
@[simp] theorem setVok_blk (b : Bool) : (setVok b s).blk = s.blk := rfl
@[simp] theorem setVok_pending (b : Bool) : (setVok b s).pending = s.pending := rfl
@[simp] theorem setVok_delay (b : Bool) : (setVok b s).delay = s.delay := rfl
@[simp] theorem setVok_inbox (b : Bool) : (setVok b s).inbox = s.inbox := rfl
@[simp] theorem setVok_readLog (b : Bool) : (setVok b s).readLog = s.readLog := rfl
@[simp] theorem setVok_draws (b : Bool) : (setVok b s).draws = s.draws := rfl

/-! ### `setErr` -/

@[simp] theorem setErr_busy (code : ErrCode) (op : Byte) : (setErr code op s).busy = s.busy := rfl
@[simp] theorem setErr_vok (code : ErrCode) (op : Byte) : (setErr code op s).vok = s.vok := rfl
@[simp] theorem setErr_err (code : ErrCode) (op : Byte) : (setErr code op s).err = code := rfl
@[simp] theorem setErr_errop (code : ErrCode) (op : Byte) : (setErr code op s).errop = op := rfl
@[simp] theorem setErr_ctx (code : ErrCode) (op : Byte) : (setErr code op s).ctx = s.ctx := rfl
@[simp] theorem setErr_S (code : ErrCode) (op : Byte) : (setErr code op s).S = s.S := rfl
@[simp] theorem setErr_T (code : ErrCode) (op : Byte) : (setErr code op s).T = s.T := rfl
@[simp] theorem setErr_dbuf (code : ErrCode) (op : Byte) : (setErr code op s).dbuf = s.dbuf := rfl
@[simp] theorem setErr_key (code : ErrCode) (op : Byte) : (setErr code op s).key = s.key := rfl
@[simp] theorem setErr_blk (code : ErrCode) (op : Byte) : (setErr code op s).blk = s.blk := rfl
@[simp] theorem setErr_pending (code : ErrCode) (op : Byte) : (setErr code op s).pending = s.pending := rfl
@[simp] theorem setErr_delay (code : ErrCode) (op : Byte) : (setErr code op s).delay = s.delay := rfl
@[simp] theorem setErr_inbox (code : ErrCode) (op : Byte) : (setErr code op s).inbox = s.inbox := rfl
@[simp] theorem setErr_readLog (code : ErrCode) (op : Byte) : (setErr code op s).readLog = s.readLog := rfl
@[simp] theorem setErr_draws (code : ErrCode) (op : Byte) : (setErr code op s).draws = s.draws := rfl

/-! ### `clearError` -/

@[simp] theorem clearError_busy : (clearError s).busy = s.busy := rfl
@[simp] theorem clearError_vok : (clearError s).vok = s.vok := rfl
@[simp] theorem clearError_err : (clearError s).err = .ok := rfl
@[simp] theorem clearError_errop : (clearError s).errop = 0 := rfl
@[simp] theorem clearError_ctx : (clearError s).ctx = s.ctx := rfl
@[simp] theorem clearError_S : (clearError s).S = s.S := rfl
@[simp] theorem clearError_T : (clearError s).T = s.T := rfl
@[simp] theorem clearError_dbuf : (clearError s).dbuf = s.dbuf := rfl
@[simp] theorem clearError_key : (clearError s).key = s.key := rfl
@[simp] theorem clearError_blk : (clearError s).blk = s.blk := rfl
@[simp] theorem clearError_pending : (clearError s).pending = s.pending := rfl
@[simp] theorem clearError_delay : (clearError s).delay = s.delay := rfl
@[simp] theorem clearError_inbox : (clearError s).inbox = s.inbox := rfl
@[simp] theorem clearError_readLog : (clearError s).readLog = s.readLog := rfl
@[simp] theorem clearError_draws : (clearError s).draws = s.draws := rfl

/-! ### `complete` -/

@[simp] theorem complete_busy : (complete s).busy = false := rfl
@[simp] theorem complete_vok : (complete s).vok = s.vok := rfl
@[simp] theorem complete_err : (complete s).err = s.err := rfl
@[simp] theorem complete_errop : (complete s).errop = s.errop := rfl
@[simp] theorem complete_ctx : (complete s).ctx = s.ctx := rfl
@[simp] theorem complete_S : (complete s).S = s.S := rfl
@[simp] theorem complete_T : (complete s).T = s.T := rfl
@[simp] theorem complete_dbuf : (complete s).dbuf = s.dbuf := rfl
@[simp] theorem complete_key : (complete s).key = s.key := rfl
@[simp] theorem complete_blk : (complete s).blk = s.blk := rfl
@[simp] theorem complete_pending : (complete s).pending = none := rfl
@[simp] theorem complete_delay : (complete s).delay = s.delay := rfl
@[simp] theorem complete_inbox : (complete s).inbox = s.inbox := rfl
@[simp] theorem complete_readLog : (complete s).readLog = s.readLog := rfl
@[simp] theorem complete_draws : (complete s).draws = s.draws := rfl

/-! ### `accept` -/

@[simp] theorem accept_busy (w : Word) (k : Nat) : (accept w k s).busy = true := rfl
@[simp] theorem accept_vok (w : Word) (k : Nat) : (accept w k s).vok = s.vok := rfl
@[simp] theorem accept_err (w : Word) (k : Nat) : (accept w k s).err = s.err := rfl
@[simp] theorem accept_errop (w : Word) (k : Nat) : (accept w k s).errop = s.errop := rfl
@[simp] theorem accept_ctx (w : Word) (k : Nat) : (accept w k s).ctx = s.ctx := rfl
@[simp] theorem accept_S (w : Word) (k : Nat) : (accept w k s).S = s.S := rfl
@[simp] theorem accept_T (w : Word) (k : Nat) : (accept w k s).T = s.T := rfl
@[simp] theorem accept_dbuf (w : Word) (k : Nat) : (accept w k s).dbuf = s.dbuf := rfl
@[simp] theorem accept_key (w : Word) (k : Nat) : (accept w k s).key = s.key := rfl
@[simp] theorem accept_blk (w : Word) (k : Nat) : (accept w k s).blk = s.blk := rfl
@[simp] theorem accept_pending (w : Word) (k : Nat) : (accept w k s).pending = some w := rfl
@[simp] theorem accept_delay (w : Word) (k : Nat) : (accept w k s).delay = k := rfl
@[simp] theorem accept_inbox (w : Word) (k : Nat) : (accept w k s).inbox = s.inbox := rfl
@[simp] theorem accept_readLog (w : Word) (k : Nat) : (accept w k s).readLog = s.readLog := rfl
@[simp] theorem accept_draws (w : Word) (k : Nat) : (accept w k s).draws = s.draws := rfl

/-! ### `setPos` -/

@[simp] theorem setPos_busy (v : BitVec 8) : (setPos v s).busy = s.busy := rfl
@[simp] theorem setPos_vok (v : BitVec 8) : (setPos v s).vok = s.vok := rfl
@[simp] theorem setPos_err (v : BitVec 8) : (setPos v s).err = s.err := rfl
@[simp] theorem setPos_errop (v : BitVec 8) : (setPos v s).errop = s.errop := rfl
@[simp] theorem setPos_ctx (v : BitVec 8) : (setPos v s).ctx = { s.ctx with pos := v } := rfl
@[simp] theorem setPos_S (v : BitVec 8) : (setPos v s).S = s.S := rfl
@[simp] theorem setPos_T (v : BitVec 8) : (setPos v s).T = s.T := rfl
@[simp] theorem setPos_dbuf (v : BitVec 8) : (setPos v s).dbuf = s.dbuf := rfl
@[simp] theorem setPos_key (v : BitVec 8) : (setPos v s).key = s.key := rfl
@[simp] theorem setPos_blk (v : BitVec 8) : (setPos v s).blk = s.blk := rfl
@[simp] theorem setPos_pending (v : BitVec 8) : (setPos v s).pending = s.pending := rfl
@[simp] theorem setPos_delay (v : BitVec 8) : (setPos v s).delay = s.delay := rfl
@[simp] theorem setPos_inbox (v : BitVec 8) : (setPos v s).inbox = s.inbox := rfl
@[simp] theorem setPos_readLog (v : BitVec 8) : (setPos v s).readLog = s.readLog := rfl
@[simp] theorem setPos_draws (v : BitVec 8) : (setPos v s).draws = s.draws := rfl

/-! ### `setPhase` -/

@[simp] theorem setPhase_busy (p : Phase) : (setPhase p s).busy = s.busy := rfl
@[simp] theorem setPhase_vok (p : Phase) : (setPhase p s).vok = s.vok := rfl
@[simp] theorem setPhase_err (p : Phase) : (setPhase p s).err = s.err := rfl
@[simp] theorem setPhase_errop (p : Phase) : (setPhase p s).errop = s.errop := rfl
@[simp] theorem setPhase_ctx (p : Phase) : (setPhase p s).ctx = { s.ctx with phase := p } := rfl
@[simp] theorem setPhase_S (p : Phase) : (setPhase p s).S = s.S := rfl
@[simp] theorem setPhase_T (p : Phase) : (setPhase p s).T = s.T := rfl
@[simp] theorem setPhase_dbuf (p : Phase) : (setPhase p s).dbuf = s.dbuf := rfl
@[simp] theorem setPhase_key (p : Phase) : (setPhase p s).key = s.key := rfl
@[simp] theorem setPhase_blk (p : Phase) : (setPhase p s).blk = s.blk := rfl
@[simp] theorem setPhase_pending (p : Phase) : (setPhase p s).pending = s.pending := rfl
@[simp] theorem setPhase_delay (p : Phase) : (setPhase p s).delay = s.delay := rfl
@[simp] theorem setPhase_inbox (p : Phase) : (setPhase p s).inbox = s.inbox := rfl
@[simp] theorem setPhase_readLog (p : Phase) : (setPhase p s).readLog = s.readLog := rfl
@[simp] theorem setPhase_draws (p : Phase) : (setPhase p s).draws = s.draws := rfl

/-! ### `setRateByte` -/

@[simp] theorem setRateByte_busy (x : Byte) : (setRateByte x s).busy = s.busy := rfl
@[simp] theorem setRateByte_vok (x : Byte) : (setRateByte x s).vok = s.vok := rfl
@[simp] theorem setRateByte_err (x : Byte) : (setRateByte x s).err = s.err := rfl
@[simp] theorem setRateByte_errop (x : Byte) : (setRateByte x s).errop = s.errop := rfl
@[simp] theorem setRateByte_ctx (x : Byte) : (setRateByte x s).ctx = s.ctx := rfl
@[simp] theorem setRateByte_S (x : Byte) : (setRateByte x s).S = putAt s.S s.ctx.pos.toNat x := rfl
@[simp] theorem setRateByte_T (x : Byte) : (setRateByte x s).T = s.T := rfl
@[simp] theorem setRateByte_dbuf (x : Byte) : (setRateByte x s).dbuf = s.dbuf := rfl
@[simp] theorem setRateByte_key (x : Byte) : (setRateByte x s).key = s.key := rfl
@[simp] theorem setRateByte_blk (x : Byte) : (setRateByte x s).blk = s.blk := rfl
@[simp] theorem setRateByte_pending (x : Byte) : (setRateByte x s).pending = s.pending := rfl
@[simp] theorem setRateByte_delay (x : Byte) : (setRateByte x s).delay = s.delay := rfl
@[simp] theorem setRateByte_inbox (x : Byte) : (setRateByte x s).inbox = s.inbox := rfl
@[simp] theorem setRateByte_readLog (x : Byte) : (setRateByte x s).readLog = s.readLog := rfl
@[simp] theorem setRateByte_draws (x : Byte) : (setRateByte x s).draws = s.draws := rfl

/-! ### `setDbufByte` -/

@[simp] theorem setDbufByte_busy (i : Nat) (x : Byte) : (setDbufByte i x s).busy = s.busy := rfl
@[simp] theorem setDbufByte_vok (i : Nat) (x : Byte) : (setDbufByte i x s).vok = s.vok := rfl
@[simp] theorem setDbufByte_err (i : Nat) (x : Byte) : (setDbufByte i x s).err = s.err := rfl
@[simp] theorem setDbufByte_errop (i : Nat) (x : Byte) : (setDbufByte i x s).errop = s.errop := rfl
@[simp] theorem setDbufByte_ctx (i : Nat) (x : Byte) : (setDbufByte i x s).ctx = s.ctx := rfl
@[simp] theorem setDbufByte_S (i : Nat) (x : Byte) : (setDbufByte i x s).S = s.S := rfl
@[simp] theorem setDbufByte_T (i : Nat) (x : Byte) : (setDbufByte i x s).T = s.T := rfl
@[simp] theorem setDbufByte_dbuf (i : Nat) (x : Byte) : (setDbufByte i x s).dbuf = putAt s.dbuf i x := rfl
@[simp] theorem setDbufByte_key (i : Nat) (x : Byte) : (setDbufByte i x s).key = s.key := rfl
@[simp] theorem setDbufByte_blk (i : Nat) (x : Byte) : (setDbufByte i x s).blk = s.blk := rfl
@[simp] theorem setDbufByte_pending (i : Nat) (x : Byte) : (setDbufByte i x s).pending = s.pending := rfl
@[simp] theorem setDbufByte_delay (i : Nat) (x : Byte) : (setDbufByte i x s).delay = s.delay := rfl
@[simp] theorem setDbufByte_inbox (i : Nat) (x : Byte) : (setDbufByte i x s).inbox = s.inbox := rfl
@[simp] theorem setDbufByte_readLog (i : Nat) (x : Byte) : (setDbufByte i x s).readLog = s.readLog := rfl
@[simp] theorem setDbufByte_draws (i : Nat) (x : Byte) : (setDbufByte i x s).draws = s.draws := rfl

/-! ### `permute` -/

@[simp] theorem permute_busy : (permute s).busy = s.busy := rfl
@[simp] theorem permute_vok : (permute s).vok = s.vok := rfl
@[simp] theorem permute_err : (permute s).err = s.err := rfl
@[simp] theorem permute_errop : (permute s).errop = s.errop := rfl
@[simp] theorem permute_ctx : (permute s).ctx = s.ctx := rfl
@[simp] theorem permute_S : (permute s).S = bashF s.S := rfl
@[simp] theorem permute_T : (permute s).T = s.T := rfl
@[simp] theorem permute_dbuf : (permute s).dbuf = s.dbuf := rfl
@[simp] theorem permute_key : (permute s).key = s.key := rfl
@[simp] theorem permute_blk : (permute s).blk = s.blk := rfl
@[simp] theorem permute_pending : (permute s).pending = s.pending := rfl
@[simp] theorem permute_delay : (permute s).delay = s.delay := rfl
@[simp] theorem permute_inbox : (permute s).inbox = s.inbox := rfl
@[simp] theorem permute_readLog : (permute s).readLog = s.readLog := rfl
@[simp] theorem permute_draws : (permute s).draws = s.draws := rfl

/-! ### `commit` -/

@[simp] theorem commit_busy (code : Byte) : (commit code s).busy = s.busy := rfl
@[simp] theorem commit_vok (code : Byte) : (commit code s).vok = s.vok := rfl
@[simp] theorem commit_err (code : Byte) : (commit code s).err = s.err := rfl
@[simp] theorem commit_errop (code : Byte) : (commit code s).errop = s.errop := rfl
@[simp] theorem commit_ctx (code : Byte) : (commit code s).ctx = { s.ctx with pos := 0 } := rfl
@[simp] theorem commit_S (code : Byte) : (commit code s).S = bashF (commitBlock code s.S s.ctx) := rfl
@[simp] theorem commit_T (code : Byte) : (commit code s).T = s.T := rfl
@[simp] theorem commit_dbuf (code : Byte) : (commit code s).dbuf = s.dbuf := rfl
@[simp] theorem commit_key (code : Byte) : (commit code s).key = s.key := rfl
@[simp] theorem commit_blk (code : Byte) : (commit code s).blk = s.blk := rfl
@[simp] theorem commit_pending (code : Byte) : (commit code s).pending = s.pending := rfl
@[simp] theorem commit_delay (code : Byte) : (commit code s).delay = s.delay := rfl
@[simp] theorem commit_inbox (code : Byte) : (commit code s).inbox = s.inbox := rfl
@[simp] theorem commit_readLog (code : Byte) : (commit code s).readLog = s.readLog := rfl
@[simp] theorem commit_draws (code : Byte) : (commit code s).draws = s.draws := rfl

/-! ### `resetEngine` -/

@[simp] theorem resetEngine_busy : (resetEngine s).busy = State.reset.busy := rfl
@[simp] theorem resetEngine_vok : (resetEngine s).vok = State.reset.vok := rfl
@[simp] theorem resetEngine_err : (resetEngine s).err = State.reset.err := rfl
@[simp] theorem resetEngine_errop : (resetEngine s).errop = State.reset.errop := rfl
@[simp] theorem resetEngine_ctx : (resetEngine s).ctx = State.reset.ctx := rfl
@[simp] theorem resetEngine_S : (resetEngine s).S = State.reset.S := rfl
@[simp] theorem resetEngine_T : (resetEngine s).T = State.reset.T := rfl
@[simp] theorem resetEngine_dbuf : (resetEngine s).dbuf = State.reset.dbuf := rfl
@[simp] theorem resetEngine_key : (resetEngine s).key = State.reset.key := rfl
@[simp] theorem resetEngine_blk : (resetEngine s).blk = State.reset.blk := rfl
@[simp] theorem resetEngine_pending : (resetEngine s).pending = State.reset.pending := rfl
@[simp] theorem resetEngine_delay : (resetEngine s).delay = State.reset.delay := rfl
@[simp] theorem resetEngine_inbox : (resetEngine s).inbox = s.inbox := rfl
@[simp] theorem resetEngine_readLog : (resetEngine s).readLog = s.readLog := rfl
@[simp] theorem resetEngine_draws : (resetEngine s).draws = s.draws := rfl

/-! ### `hashOut` -/

@[simp] theorem hashOut_busy : (hashOut s).busy = s.busy := rfl
@[simp] theorem hashOut_vok : (hashOut s).vok = s.vok := rfl
@[simp] theorem hashOut_err : (hashOut s).err = s.err := rfl
@[simp] theorem hashOut_errop : (hashOut s).errop = s.errop := rfl
@[simp] theorem hashOut_ctx : (hashOut s).ctx = s.ctx := rfl
@[simp] theorem hashOut_S : (hashOut s).S = s.S := rfl
@[simp] theorem hashOut_T : (hashOut s).T = bashF (finalBlock s.S s.ctx) := rfl
@[simp] theorem hashOut_dbuf : (hashOut s).dbuf = s.dbuf := rfl
@[simp] theorem hashOut_key : (hashOut s).key = s.key := rfl
@[simp] theorem hashOut_blk : (hashOut s).blk = s.blk := rfl
@[simp] theorem hashOut_pending : (hashOut s).pending = s.pending := rfl
@[simp] theorem hashOut_delay : (hashOut s).delay = s.delay := rfl
@[simp] theorem hashOut_inbox : (hashOut s).inbox = s.inbox := rfl
@[simp] theorem hashOut_readLog : (hashOut s).readLog = s.readLog := rfl
@[simp] theorem hashOut_draws : (hashOut s).draws = s.draws := rfl

/-! ### `storeDigest` -/

@[simp] theorem storeDigest_busy : (storeDigest s).busy = s.busy := rfl
@[simp] theorem storeDigest_vok : (storeDigest s).vok = s.vok := rfl
@[simp] theorem storeDigest_err : (storeDigest s).err = s.err := rfl
@[simp] theorem storeDigest_errop : (storeDigest s).errop = s.errop := rfl
@[simp] theorem storeDigest_ctx : (storeDigest s).ctx = s.ctx := rfl
@[simp] theorem storeDigest_S : (storeDigest s).S = s.S := rfl
@[simp] theorem storeDigest_T : (storeDigest s).T = s.T := rfl
@[simp] theorem storeDigest_dbuf : (storeDigest s).dbuf = overlay s.dbuf 0 (digestLength s.ctx) (elemAt s.T) := rfl
@[simp] theorem storeDigest_key : (storeDigest s).key = s.key := rfl
@[simp] theorem storeDigest_blk : (storeDigest s).blk = s.blk := rfl
@[simp] theorem storeDigest_pending : (storeDigest s).pending = s.pending := rfl
@[simp] theorem storeDigest_delay : (storeDigest s).delay = s.delay := rfl
@[simp] theorem storeDigest_inbox : (storeDigest s).inbox = s.inbox := rfl
@[simp] theorem storeDigest_readLog : (storeDigest s).readLog = s.readLog := rfl
@[simp] theorem storeDigest_draws : (storeDigest s).draws = s.draws := rfl

/-! ### `recordVerdict` -/

@[simp] theorem recordVerdict_busy : (recordVerdict s).busy = s.busy := rfl
@[simp] theorem recordVerdict_vok : (recordVerdict s).vok = digestMatches s := rfl
@[simp] theorem recordVerdict_err : (recordVerdict s).err = s.err := rfl
@[simp] theorem recordVerdict_errop : (recordVerdict s).errop = s.errop := rfl
@[simp] theorem recordVerdict_ctx : (recordVerdict s).ctx = s.ctx := rfl
@[simp] theorem recordVerdict_S : (recordVerdict s).S = s.S := rfl
@[simp] theorem recordVerdict_T : (recordVerdict s).T = s.T := rfl
@[simp] theorem recordVerdict_dbuf : (recordVerdict s).dbuf = s.dbuf := rfl
@[simp] theorem recordVerdict_key : (recordVerdict s).key = s.key := rfl
@[simp] theorem recordVerdict_blk : (recordVerdict s).blk = s.blk := rfl
@[simp] theorem recordVerdict_pending : (recordVerdict s).pending = s.pending := rfl
@[simp] theorem recordVerdict_delay : (recordVerdict s).delay = s.delay := rfl
@[simp] theorem recordVerdict_inbox : (recordVerdict s).inbox = s.inbox := rfl
@[simp] theorem recordVerdict_readLog : (recordVerdict s).readLog = s.readLog := rfl
@[simp] theorem recordVerdict_draws : (recordVerdict s).draws = s.draws := rfl

/-! ### `xorHeader` -/

@[simp] theorem xorHeader_busy (ann key : Nat) : (xorHeader ann key s).busy = s.busy := rfl
@[simp] theorem xorHeader_vok (ann key : Nat) : (xorHeader ann key s).vok = s.vok := rfl
@[simp] theorem xorHeader_err (ann key : Nat) : (xorHeader ann key s).err = s.err := rfl
@[simp] theorem xorHeader_errop (ann key : Nat) : (xorHeader ann key s).errop = s.errop := rfl
@[simp] theorem xorHeader_ctx (ann key : Nat) : (xorHeader ann key s).ctx = s.ctx := rfl
@[simp] theorem xorHeader_S (ann key : Nat) :
    (xorHeader ann key s).S = overlay s.S 0 (1 + ann + key) fun i => elemAt s.S i ^^^ headerByte s.dbuf ann key i := rfl
@[simp] theorem xorHeader_T (ann key : Nat) : (xorHeader ann key s).T = s.T := rfl
@[simp] theorem xorHeader_dbuf (ann key : Nat) : (xorHeader ann key s).dbuf = s.dbuf := rfl
@[simp] theorem xorHeader_key (ann key : Nat) : (xorHeader ann key s).key = s.key := rfl
@[simp] theorem xorHeader_blk (ann key : Nat) : (xorHeader ann key s).blk = s.blk := rfl
@[simp] theorem xorHeader_pending (ann key : Nat) : (xorHeader ann key s).pending = s.pending := rfl
@[simp] theorem xorHeader_delay (ann key : Nat) : (xorHeader ann key s).delay = s.delay := rfl
@[simp] theorem xorHeader_inbox (ann key : Nat) : (xorHeader ann key s).inbox = s.inbox := rfl
@[simp] theorem xorHeader_readLog (ann key : Nat) : (xorHeader ann key s).readLog = s.readLog := rfl
@[simp] theorem xorHeader_draws (ann key : Nat) : (xorHeader ann key s).draws = s.draws := rfl

/-! ### `startHash` -/

@[simp] theorem startHash_busy (l : Nat) : (startHash l s).busy = s.busy := rfl
@[simp] theorem startHash_vok (l : Nat) : (startHash l s).vok = s.vok := rfl
@[simp] theorem startHash_err (l : Nat) : (startHash l s).err = s.err := rfl
@[simp] theorem startHash_errop (l : Nat) : (startHash l s).errop = s.errop := rfl
@[simp] theorem startHash_ctx (l : Nat) : (startHash l s).ctx = hashInitCtx l := rfl
@[simp] theorem startHash_S (l : Nat) : (startHash l s).S = hashInitBlock l := rfl
@[simp] theorem startHash_T (l : Nat) : (startHash l s).T = s.T := rfl
@[simp] theorem startHash_dbuf (l : Nat) : (startHash l s).dbuf = s.dbuf := rfl
@[simp] theorem startHash_key (l : Nat) : (startHash l s).key = s.key := rfl
@[simp] theorem startHash_blk (l : Nat) : (startHash l s).blk = s.blk := rfl
@[simp] theorem startHash_pending (l : Nat) : (startHash l s).pending = s.pending := rfl
@[simp] theorem startHash_delay (l : Nat) : (startHash l s).delay = s.delay := rfl
@[simp] theorem startHash_inbox (l : Nat) : (startHash l s).inbox = s.inbox := rfl
@[simp] theorem startHash_readLog (l : Nat) : (startHash l s).readLog = s.readLog := rfl
@[simp] theorem startHash_draws (l : Nat) : (startHash l s).draws = s.draws := rfl

/-! ### `startPrg` -/

@[simp] theorem startPrg_busy (l d ann key : Nat) : (startPrg l d ann key s).busy = s.busy := rfl
@[simp] theorem startPrg_vok (l d ann key : Nat) : (startPrg l d ann key s).vok = s.vok := rfl
@[simp] theorem startPrg_err (l d ann key : Nat) : (startPrg l d ann key s).err = s.err := rfl
@[simp] theorem startPrg_errop (l d ann key : Nat) : (startPrg l d ann key s).errop = s.errop := rfl
@[simp] theorem startPrg_ctx (l d ann key : Nat) : (startPrg l d ann key s).ctx = startCtx l d ann key := rfl
@[simp] theorem startPrg_S (l d ann key : Nat) : (startPrg l d ann key s).S = startBlock l d ann key s.dbuf := rfl
@[simp] theorem startPrg_T (l d ann key : Nat) : (startPrg l d ann key s).T = s.T := rfl
@[simp] theorem startPrg_dbuf (l d ann key : Nat) : (startPrg l d ann key s).dbuf = s.dbuf := rfl
@[simp] theorem startPrg_key (l d ann key : Nat) : (startPrg l d ann key s).key = s.key := rfl
@[simp] theorem startPrg_blk (l d ann key : Nat) : (startPrg l d ann key s).blk = s.blk := rfl
@[simp] theorem startPrg_pending (l d ann key : Nat) : (startPrg l d ann key s).pending = s.pending := rfl
@[simp] theorem startPrg_delay (l d ann key : Nat) : (startPrg l d ann key s).delay = s.delay := rfl
@[simp] theorem startPrg_inbox (l d ann key : Nat) : (startPrg l d ann key s).inbox = s.inbox := rfl
@[simp] theorem startPrg_readLog (l d ann key : Nat) : (startPrg l d ann key s).readLog = s.readLog := rfl
@[simp] theorem startPrg_draws (l d ann key : Nat) : (startPrg l d ann key s).draws = s.draws := rfl

/-! ### `saveToT` -/

@[simp] theorem saveToT_busy : (saveToT s).busy = s.busy := rfl
@[simp] theorem saveToT_vok : (saveToT s).vok = s.vok := rfl
@[simp] theorem saveToT_err : (saveToT s).err = s.err := rfl
@[simp] theorem saveToT_errop : (saveToT s).errop = s.errop := rfl
@[simp] theorem saveToT_ctx : (saveToT s).ctx = s.ctx := rfl
@[simp] theorem saveToT_S : (saveToT s).S = s.S := rfl
@[simp] theorem saveToT_T : (saveToT s).T = s.S := rfl
@[simp] theorem saveToT_dbuf : (saveToT s).dbuf = s.dbuf := rfl
@[simp] theorem saveToT_key : (saveToT s).key = s.key := rfl
@[simp] theorem saveToT_blk : (saveToT s).blk = s.blk := rfl
@[simp] theorem saveToT_pending : (saveToT s).pending = s.pending := rfl
@[simp] theorem saveToT_delay : (saveToT s).delay = s.delay := rfl
@[simp] theorem saveToT_inbox : (saveToT s).inbox = s.inbox := rfl
@[simp] theorem saveToT_readLog : (saveToT s).readLog = s.readLog := rfl
@[simp] theorem saveToT_draws : (saveToT s).draws = s.draws := rfl

/-! ### `xorT` -/

@[simp] theorem xorT_busy : (xorT s).busy = s.busy := rfl
@[simp] theorem xorT_vok : (xorT s).vok = s.vok := rfl
@[simp] theorem xorT_err : (xorT s).err = s.err := rfl
@[simp] theorem xorT_errop : (xorT s).errop = s.errop := rfl
@[simp] theorem xorT_ctx : (xorT s).ctx = s.ctx := rfl
@[simp] theorem xorT_S : (xorT s).S = xorArrays s.S s.T := rfl
@[simp] theorem xorT_T : (xorT s).T = s.T := rfl
@[simp] theorem xorT_dbuf : (xorT s).dbuf = s.dbuf := rfl
@[simp] theorem xorT_key : (xorT s).key = s.key := rfl
@[simp] theorem xorT_blk : (xorT s).blk = s.blk := rfl
@[simp] theorem xorT_pending : (xorT s).pending = s.pending := rfl
@[simp] theorem xorT_delay : (xorT s).delay = s.delay := rfl
@[simp] theorem xorT_inbox : (xorT s).inbox = s.inbox := rfl
@[simp] theorem xorT_readLog : (xorT s).readLog = s.readLog := rfl
@[simp] theorem xorT_draws : (xorT s).draws = s.draws := rfl

/-! ### `busRead` -/

@[simp] theorem busRead_busy (off : Offset) : (busRead off s).busy = s.busy := rfl
@[simp] theorem busRead_vok (off : Offset) : (busRead off s).vok = s.vok := rfl
@[simp] theorem busRead_err (off : Offset) : (busRead off s).err = s.err := rfl
@[simp] theorem busRead_errop (off : Offset) : (busRead off s).errop = s.errop := rfl
@[simp] theorem busRead_ctx (off : Offset) : (busRead off s).ctx = s.ctx := rfl
@[simp] theorem busRead_S (off : Offset) : (busRead off s).S = s.S := rfl
@[simp] theorem busRead_T (off : Offset) : (busRead off s).T = s.T := rfl
@[simp] theorem busRead_dbuf (off : Offset) : (busRead off s).dbuf = s.dbuf := rfl
@[simp] theorem busRead_key (off : Offset) : (busRead off s).key = s.key := rfl
@[simp] theorem busRead_blk (off : Offset) : (busRead off s).blk = s.blk := rfl
@[simp] theorem busRead_pending (off : Offset) : (busRead off s).pending = s.pending := rfl
@[simp] theorem busRead_delay (off : Offset) : (busRead off s).delay = s.delay := rfl
@[simp] theorem busRead_inbox (off : Offset) : (busRead off s).inbox = s.inbox := rfl
@[simp] theorem busRead_readLog (off : Offset) : (busRead off s).readLog = s.readLog ++ [readValue off s] := rfl
@[simp] theorem busRead_draws (off : Offset) :
    (busRead off s).draws = if s.busy && unreadableWhileBusy (placeAt off) then s.draws + 1 else s.draws := rfl

/-! ### `adv`, `rekeyRate`: the fields they leave -/

@[simp] theorem adv_busy : (adv s).busy = s.busy := by unfold adv; split <;> rfl
@[simp] theorem adv_vok : (adv s).vok = s.vok := by unfold adv; split <;> rfl
@[simp] theorem adv_err : (adv s).err = s.err := by unfold adv; split <;> rfl
@[simp] theorem adv_errop : (adv s).errop = s.errop := by unfold adv; split <;> rfl
@[simp] theorem adv_T : (adv s).T = s.T := by unfold adv; split <;> rfl
@[simp] theorem adv_dbuf : (adv s).dbuf = s.dbuf := by unfold adv; split <;> rfl
@[simp] theorem adv_key : (adv s).key = s.key := by unfold adv; split <;> rfl
@[simp] theorem adv_blk : (adv s).blk = s.blk := by unfold adv; split <;> rfl
@[simp] theorem adv_pending : (adv s).pending = s.pending := by unfold adv; split <;> rfl
@[simp] theorem adv_delay : (adv s).delay = s.delay := by unfold adv; split <;> rfl
@[simp] theorem adv_inbox : (adv s).inbox = s.inbox := by unfold adv; split <;> rfl
@[simp] theorem adv_readLog : (adv s).readLog = s.readLog := by unfold adv; split <;> rfl
@[simp] theorem adv_draws : (adv s).draws = s.draws := by unfold adv; split <;> rfl

@[simp] theorem rekeyRate_busy (key : Nat) : (rekeyRate key s).busy = s.busy := by unfold rekeyRate; split <;> rfl
@[simp] theorem rekeyRate_vok (key : Nat) : (rekeyRate key s).vok = s.vok := by unfold rekeyRate; split <;> rfl
@[simp] theorem rekeyRate_err (key : Nat) : (rekeyRate key s).err = s.err := by unfold rekeyRate; split <;> rfl
@[simp] theorem rekeyRate_errop (key : Nat) : (rekeyRate key s).errop = s.errop := by unfold rekeyRate; split <;> rfl
@[simp] theorem rekeyRate_S (key : Nat) : (rekeyRate key s).S = s.S := by unfold rekeyRate; split <;> rfl
@[simp] theorem rekeyRate_T (key : Nat) : (rekeyRate key s).T = s.T := by unfold rekeyRate; split <;> rfl
@[simp] theorem rekeyRate_dbuf (key : Nat) : (rekeyRate key s).dbuf = s.dbuf := by unfold rekeyRate; split <;> rfl
@[simp] theorem rekeyRate_key (key : Nat) : (rekeyRate key s).key = s.key := by unfold rekeyRate; split <;> rfl
@[simp] theorem rekeyRate_blk (key : Nat) : (rekeyRate key s).blk = s.blk := by unfold rekeyRate; split <;> rfl
@[simp] theorem rekeyRate_pending (key : Nat) : (rekeyRate key s).pending = s.pending := by unfold rekeyRate; split <;> rfl
@[simp] theorem rekeyRate_delay (key : Nat) : (rekeyRate key s).delay = s.delay := by unfold rekeyRate; split <;> rfl
@[simp] theorem rekeyRate_inbox (key : Nat) : (rekeyRate key s).inbox = s.inbox := by unfold rekeyRate; split <;> rfl
@[simp] theorem rekeyRate_readLog (key : Nat) : (rekeyRate key s).readLog = s.readLog := by unfold rekeyRate; split <;> rfl
@[simp] theorem rekeyRate_draws (key : Nat) : (rekeyRate key s).draws = s.draws := by unfold rekeyRate; split <;> rfl

end Sys2Proof.Laws
end

