-- ==== Sys2Proof/Laws/Ops.lean ====
section
/-! SUPPORT. What each shared operation can do, said once: raising an error, the check order, the byte loop, `adv`,
`commit`, and that no command stops the machine. -/

namespace Sys2Proof.Laws

open Sys2Proof Sys2Proof.Machine

/-! ### Errors and checks -/

@[simp] theorem raiseError_eq (code : ErrCode) (op : Byte) (s : State) :
    raiseError code op s = .next (setErr code op s) := rfl

@[simp] theorem firstFailure_nil : firstFailure [] = .ok := rfl

@[simp] theorem firstFailure_cons (b : Bool) (code : ErrCode) (rest : List (Bool × ErrCode)) :
    firstFailure ((b, code) :: rest) = if b then firstFailure rest else code := rfl

/-- A command whose checks all hold has its effect. -/
theorem checked_pass {op : Byte} {checks : List (Bool × ErrCode)} {effect : State → State} {s : State}
    (h : firstFailure checks = .ok) : checked op checks effect s = .next (effect s) := by
  unfold checked; rw [h]

/-- A command with a failing check raises that error. -/
theorem checked_fail {op : Byte} {checks : List (Bool × ErrCode)} {effect : State → State} {s : State}
    (h : firstFailure checks ≠ .ok) :
    checked op checks effect s = .next (setErr (firstFailure checks) op s) := by
  unfold checked; split
  · exact absurd ‹_› h
  · rfl

/-- Everything a checked command can answer. -/
theorem checked_cases {op : Byte} {checks : List (Bool × ErrCode)} {effect : State → State} {s t : State}
    (h : checked op checks effect s = .next t) :
    (firstFailure checks = .ok ∧ t = effect s) ∨
    (firstFailure checks ≠ .ok ∧ t = setErr (firstFailure checks) op s) := by
  by_cases hc : firstFailure checks = .ok
  · rw [checked_pass hc] at h; injection h with h; exact .inl ⟨hc, h.symm⟩
  · rw [checked_fail hc] at h; injection h with h; exact .inr ⟨hc, h.symm⟩

/-- A checked command always answers a next state. -/
theorem checked_next (op : Byte) (checks : List (Bool × ErrCode)) (effect : State → State) (s : State) :
    ∃ t, checked op checks effect s = .next t := by
  by_cases hc : firstFailure checks = .ok
  · exact ⟨_, checked_pass hc⟩
  · exact ⟨_, checked_fail hc⟩

/-! ### The byte loop -/

@[simp] theorem forBytes_zero (body : Nat → State → State) (s : State) : forBytes 0 body s = s := rfl

theorem forBytes_succ (n : Nat) (body : Nat → State → State) (s : State) :
    forBytes (n + 1) body s = body n (forBytes n body s) := rfl

/-- A loop of `a + b` iterations is one of `a` and then one of `b` with the index shifted. -/
theorem forBytes_add (a b : Nat) (body : Nat → State → State) (s : State) :
    forBytes (a + b) body s = forBytes b (fun i => body (a + i)) (forBytes a body s) := by
  induction b with
  | zero => rfl
  | succ b ih => rw [← Nat.add_assoc, forBytes_succ, ih, forBytes_succ]

/-- What every iteration keeps, the loop keeps. -/
theorem forBytes_keeps {P : State → Prop} {body : Nat → State → State} (hb : ∀ i s, P s → P (body i s)) (n : Nat)
    (s : State) (h : P s) : P (forBytes n body s) := by
  induction n with
  | zero => exact h
  | succ n ih => exact hb n _ ih

/-- A loop of `n` iterations with an invariant that knows how many are done. -/
theorem forBytes_invariant {P : Nat → State → Prop} {body : Nat → State → State} {n : Nat}
    (hb : ∀ i s, i < n → P i s → P (i + 1) (body i s)) (s : State) (h : P 0 s) : P n (forBytes n body s) := by
  have : ∀ m, m ≤ n → P m (forBytes m body s) := by
    intro m
    induction m with
    | zero => exact fun _ => h
    | succ m ih => exact fun hm => hb m _ (by omega) (ih (by omega))
  exact this n (Nat.le_refl n)

/-- Two loops related step by step end in related states. -/
theorem forBytes_related {R : State → State → Prop} {f g : Nat → State → State} {n : Nat}
    (hb : ∀ i s t, i < n → R s t → R (f i s) (g i t)) (s t : State) (h : R s t) :
    R (forBytes n f s) (forBytes n g t) := by
  have : ∀ m, m ≤ n → R (forBytes m f s) (forBytes m g t) := by
    intro m
    induction m with
    | zero => exact fun _ => h
    | succ m ih => exact fun hm => hb m _ _ (by omega) (ih (by omega))
  exact this n (Nat.le_refl n)

/-! ### The sponge -/

/-- Everything `adv` can do (42_prg.md R243). -/
theorem adv_cases (s : State) :
    (s.ctx.pos + 1 = s.ctx.buffLen ∧ adv s = setPos 0 (permute s)) ∨
    (s.ctx.pos + 1 ≠ s.ctx.buffLen ∧ adv s = setPos (s.ctx.pos + 1) s) := by
  unfold adv
  split
  · exact .inl ⟨‹_›, rfl⟩
  · exact .inr ⟨‹_›, rfl⟩

/-- `adv` moves only `pos` in CTX. -/
theorem adv_ctx (s : State) : (adv s).ctx = { s.ctx with pos := (adv s).ctx.pos } := by
  rcases adv_cases s with ⟨-, h⟩ | ⟨-, h⟩ <;> rw [h] <;> rfl

/-- `adv` keeps `pos` below the rate (42_prg.md R244). -/
theorem adv_pos_lt (s : State) (h : s.ctx.pos.toNat < s.ctx.buffLen.toNat) :
    (adv s).ctx.pos.toNat < s.ctx.buffLen.toNat := by
  rcases adv_cases s with ⟨-, e⟩ | ⟨hne, e⟩ <;> rw [e]
  · simpa using Nat.lt_of_le_of_lt (Nat.zero_le _) h
  · have hb := s.ctx.buffLen.isLt
    have hp : (s.ctx.pos + 1).toNat = s.ctx.pos.toNat + 1 := by
      rw [BitVec.toNat_add]; exact Nat.mod_eq_of_lt (by simp; omega)
    have : (s.ctx.pos + 1).toNat ≠ s.ctx.buffLen.toNat := fun hc => hne (BitVec.eq_of_toNat_eq hc)
    simp only [setPos_ctx]
    omega

/-- Byte `j` of the committed block (42_prg.md R242). -/
theorem elemAt_commitBlock (code : Byte) (A : Vector Byte 192) (c : Ctx) (j : Nat) (h : j < 192) :
    elemAt (commitBlock code A c) j =
      elemAt A j ^^^ (if j = c.pos.toNat then code else 0) ^^^ (if j = c.buffLen.toNat then 0x80 else 0) := by
  simp only [commitBlock, elemAt_putAt]
  by_cases h1 : j = c.pos.toNat <;> by_cases h2 : j = c.buffLen.toNat <;> simp_all

/-! ### Commands never stop -/

/-- Every command answers a next state: an error is recorded, not a stop (60_exceptions.md R366). -/
theorem exec_next (i : Instr) (s : State) : ∃ t, exec i s = .next t := by
  cases i with
  | nop => exact ⟨_, rfl⟩
  | clrerr => exact ⟨_, rfl⟩
  | sreset => exact ⟨_, rfl⟩
  | bashf => exact ⟨_, rfl⟩
  | hashInit l => exact checked_next _ _ _ _
  | hashStep n => exact checked_next _ _ _ _
  | hashFinal => exact checked_next _ _ _ _
  | hashVerify => exact checked_next _ _ _ _
  | prgStart l d ann key => exact checked_next _ _ _ _
  | prgRestart ann key => exact checked_next _ _ _ _
  | prgAbsorbStart => exact checked_next _ _ _ _
  | prgAbsorb n => exact checked_next _ _ _ _
  | prgSqueezeStart => exact checked_next _ _ _ _
  | prgSqueeze n => exact checked_next _ _ _ _
  | prgEncrStart => exact checked_next _ _ _ _
  | prgEncr n => exact checked_next _ _ _ _
  | prgDecrStart => exact checked_next _ _ _ _
  | prgDecr n => exact checked_next _ _ _ _
  | prgRatchet => exact checked_next _ _ _ _
  | beltEnc => exact ⟨_, rfl⟩
  | beltDec => exact ⟨_, rfl⟩

end Sys2Proof.Laws
end

