-- ==== Sys2Proof/Laws/Bus.lean ====
section
/-! SUPPORT. The host's side: the CTX word and its fields, the places of the window, and what a read, a write, a poll
and an action of the surroundings can do, each said once. -/

namespace Sys2Proof.Laws

open Sys2Proof Sys2Proof.Machine

/-! ### The CTX word (10_state.md R36) -/

@[simp] theorem mode_ofBits_toBits (m : Mode) : Mode.ofBits m.toBits = some m := by cases m <;> rfl

@[simp] theorem phase_ofBits_toBits (p : Phase) : Phase.ofBits p.toBits = some p := by cases p <;> rfl

theorem mode_toBits_of_ofBits {b : BitVec 2} {m : Mode} (h : Mode.ofBits b = some m) : m.toBits = b := by
  revert h; revert m b; decide

theorem phase_toBits_of_ofBits {b : BitVec 3} {p : Phase} (h : Phase.ofBits b = some p) : p.toBits = b := by
  revert h; revert p b; decide

/-- The fields of the CTX word of a context are its fields. -/
theorem ctx_fields_of_toWord (c : Ctx) :
    c.toWord.extractLsb' 0 8 = c.pos ∧ c.toWord.extractLsb' 8 8 = c.buffLen ∧ c.toWord.extractLsb' 16 9 = c.l ∧
    c.toWord.extractLsb' 25 2 = c.d ∧ c.toWord.extractLsb' 27 2 = c.mode.toBits ∧
    c.toWord.extractLsb' 29 3 = c.phase.toBits := by
  refine ⟨?_, ?_, ?_, ?_, ?_, ?_⟩ <;> apply BitVec.eq_of_getLsbD_eq <;> intro j hj <;>
    simp only [Ctx.toWord, BitVec.getLsbD_extractLsb', BitVec.getLsbD_append, hj, decide_true, Bool.true_and] <;>
    (repeat' split) <;> first | omega | (congr 1; omega)

/-- Reading back the CTX word of a context gives the context. -/
@[simp] theorem ofWord_toWord (c : Ctx) : Ctx.ofWord c.toWord = some c := by
  obtain ⟨h1, h2, h3, h4, h5, h6⟩ := ctx_fields_of_toWord c
  unfold Ctx.ofWord
  rw [h1, h2, h3, h4, h5, h6, mode_ofBits_toBits, phase_ofBits_toBits]

/-- A context read from a word has that word as its CTX word. -/
theorem toWord_of_ofWord {v : Word} {c : Ctx} (h : Ctx.ofWord v = some c) : c.toWord = v := by
  unfold Ctx.ofWord at h
  split at h
  · rename_i m p hm hp
    injection h with h
    subst h
    apply BitVec.eq_of_getLsbD_eq
    intro j hj
    simp only [Ctx.toWord, mode_toBits_of_ofBits hm, phase_toBits_of_ofBits hp, BitVec.getLsbD_append,
      BitVec.getLsbD_extractLsb']
    (repeat' split) <;> first | omega | (rw [decide_eq_true (by omega), Bool.true_and]; congr 1; omega)
  · exact absurd h (by simp)

/-- The contexts a legal word stands for are the legal contexts with that word (10_state.md R37). -/
theorem ofLegalWord_eq_some {v : Word} {c : Ctx} :
    Ctx.ofLegalWord v = some c ↔ c.toWord = v ∧ c.legal = true := by
  unfold Ctx.ofLegalWord
  constructor
  · intro h
    split at h
    · split at h
      · injection h with h; subst h; exact ⟨toWord_of_ofWord ‹_›, ‹_›⟩
      · exact absurd h (by simp)
    · exact absurd h (by simp)
  · rintro ⟨rfl, hl⟩
    simp [hl]

/-! ### Places of the window (20_memory.md R84) -/

/-- The address map said once: the range of offsets of every place, and the index inside an array. -/
theorem placeAt_range (off : Offset) :
    match placeAt off with
    | .id => off.toNat = 0x000
    | .cmd => off.toNat = 0x004
    | .status => off.toNat = 0x008
    | .ctx => off.toNat = 0x00C
    | .dbuf k => off.toNat / 4 = 0x040 + k ∧ k < 48
    | .S k => off.toNat / 4 = 0x080 + k ∧ k < 48
    | .key j => off.toNat / 4 = 0x100 + j ∧ j < 8
    | .blk j => off.toNat / 4 = 0x108 + j ∧ j < 4
    | .reserved =>
      off.toNat ∉ [0x000, 0x004, 0x008, 0x00C] ∧
      ∀ q, off.toNat / 4 = q → (q < 0x040 ∨ 0x070 ≤ q) ∧ (q < 0x080 ∨ 0x0B0 ≤ q) ∧ (q < 0x100 ∨ 0x10C ≤ q) := by
  unfold placeAt
  dsimp only
  split_ifs <;> simp <;> omega

/-- Where the place is known by its range, the map gives it: one equation for each array. -/
theorem placeAt_dbuf {off : Offset} {k : Nat} (h : off.toNat = 0x100 + 4 * k) (hk : k < 48) :
    placeAt off = .dbuf k := by
  have r := placeAt_range off
  cases hp : placeAt off <;> rw [hp] at r <;> simp at r ⊢ <;> omega

theorem placeAt_S {off : Offset} {k : Nat} (h : off.toNat = 0x200 + 4 * k) (hk : k < 48) : placeAt off = .S k := by
  have r := placeAt_range off
  cases hp : placeAt off <;> rw [hp] at r <;> simp at r ⊢ <;> omega

theorem placeAt_key {off : Offset} {j : Nat} (h : off.toNat = 0x400 + 4 * j) (hj : j < 8) : placeAt off = .key j := by
  have r := placeAt_range off
  cases hp : placeAt off <;> rw [hp] at r <;> simp at r ⊢ <;> omega

theorem placeAt_blk {off : Offset} {j : Nat} (h : off.toNat = 0x420 + 4 * j) (hj : j < 4) : placeAt off = .blk j := by
  have r := placeAt_range off
  cases hp : placeAt off <;> rw [hp] at r <;> simp at r ⊢ <;> omega

/-! ### Writes, reads and the acceptance of a command -/

@[simp] theorem busWrite_busy (off : Offset) (v : Word) (s : State) (h : s.busy = true) : busWrite off v s = s := by
  simp [busWrite, h]

theorem busWrite_idle (off : Offset) (v : Word) (s : State) (h : s.busy = false) :
    busWrite off v s = writePlace v s (placeAt off) := by simp [busWrite, h]

/-- Everything a write of CMD can do (60_exceptions.md R361). -/
theorem issue_cases (w : Word) (s : State) :
    (s.busy = false ∧ (s.err = .ok ∨ w = 0x00000001 ∨ w = 0x00000002) ∧
      issue w s = accept w (Config.tCmd w s.ctx.toWord) s) ∨
    (¬ (s.busy = false ∧ (s.err = .ok ∨ w = 0x00000001 ∨ w = 0x00000002)) ∧ issue w s = s) := by
  unfold issue
  by_cases hb : s.busy = true
  · exact .inr ⟨by simp [hb], by simp [hb]⟩
  · have hb' : s.busy = false := by simpa using hb
    by_cases hw : s.err = .ok ∨ w = 0x00000001 ∨ w = 0x00000002
    · exact .inl ⟨hb', hw, by rw [if_neg hb, if_pos hw]⟩
    · exact .inr ⟨fun h => hw h.2, by rw [if_neg hb, if_neg hw]⟩

/-- Everything a write of CTX can do (10_state.md R38). -/
theorem writeCtx_cases (v : Word) (s : State) :
    (∃ c, c.toWord = v ∧ c.legal = true ∧ writeCtx v s = { s with ctx := c }) ∨
    ((¬ ∃ c : Ctx, c.toWord = v ∧ c.legal = true) ∧ writeCtx v s = s) := by
  cases h : Ctx.ofLegalWord v with
  | some c =>
    obtain ⟨h1, h2⟩ := ofLegalWord_eq_some.1 h
    exact .inl ⟨c, h1, h2, by unfold writeCtx; rw [h]⟩
  | none =>
    refine .inr ⟨?_, by unfold writeCtx; rw [h]⟩
    rintro ⟨c, hc⟩
    rw [ofLegalWord_eq_some.2 hc] at h
    exact absurd h (by simp)

/-- Everything a defined write can do to the engine: nothing, the acceptance of a command, a legal CTX, or new bytes in
one array. -/
theorem busWrite_cases (off : Offset) (v : Word) (s : State) :
    busWrite off v s = s ∨
    (s.busy = false ∧ placeAt off = .cmd ∧ (s.err = .ok ∨ v = 0x00000001 ∨ v = 0x00000002) ∧
      busWrite off v s = accept v (Config.tCmd v s.ctx.toWord) s) ∨
    (s.busy = false ∧ placeAt off = .ctx ∧ ∃ c, c.toWord = v ∧ c.legal = true ∧
      busWrite off v s = { s with ctx := c }) ∨
    (s.busy = false ∧ ∃ A, busWrite off v s = { s with dbuf := A }) ∨
    (s.busy = false ∧ ∃ A, busWrite off v s = { s with S := A }) ∨
    (s.busy = false ∧ ∃ A, busWrite off v s = { s with key := A }) ∨
    (s.busy = false ∧ ∃ A, busWrite off v s = { s with blk := A }) := by
  by_cases hbusy : s.busy = true
  · exact .inl (busWrite_busy off v s hbusy)
  · have hb : s.busy = false := by simpa using hbusy
    rw [busWrite_idle off v s hb]
    cases hp : placeAt off with
    | id => exact .inl rfl
    | cmd =>
      rcases issue_cases v s with ⟨-, hw, e⟩ | ⟨-, e⟩
      · exact .inr (.inl ⟨hb, rfl, hw, e⟩)
      · exact .inl e
    | status => exact .inl rfl
    | ctx =>
      rcases writeCtx_cases v s with ⟨c, h1, h2, e⟩ | ⟨-, e⟩
      · exact .inr (.inr (.inl ⟨hb, rfl, c, h1, h2, e⟩))
      · exact .inl e
    | dbuf k => exact .inr (.inr (.inr (.inl ⟨hb, _, rfl⟩)))
    | S k => exact .inr (.inr (.inr (.inr (.inl ⟨hb, _, rfl⟩))))
    | key j => exact .inr (.inr (.inr (.inr (.inr (.inl ⟨hb, _, rfl⟩)))))
    | blk j => exact .inr (.inr (.inr (.inr (.inr (.inr ⟨hb, _, rfl⟩)))))
    | reserved => exact .inl rfl

/-! ### Actions of the surroundings -/

@[simp] theorem surroundings_nil (s : State) (h : s.inbox = []) : surroundings s = .next s := by
  simp [surroundings, h]

theorem surroundings_cons (s : State) (e : HostEvent) (rest : List HostEvent) (h : s.inbox = e :: rest) :
    surroundings s = hostAction e { s with inbox := rest } := by simp [surroundings, h]

/-- A next state of an action comes of nothing, a defined read, a defined write, a poll, or a hardware reset. -/
theorem hostAction_cases {e : HostEvent} {s t : State} (h : hostAction e s = .next t) :
    (e = .idle ∧ t = s) ∨
    (∃ off width, e = .read off width ∧ accessDefined off width = true ∧ t = busRead off s) ∨
    (∃ off width v, e = .write off width v ∧ accessDefined off width = true ∧ t = busWrite off v s) ∨
    (e = .wait ∧ t = pollStatus s) ∨
    (e = .hwReset ∧ t = resetEngine s) := by
  cases e with
  | idle => injection h with h; exact .inl ⟨rfl, h.symm⟩
  | read off width =>
    simp only [hostAction] at h
    split at h
    · injection h with h; exact .inr (.inl ⟨off, width, rfl, ‹_›, h.symm⟩)
    · exact absurd h (by simp)
  | write off width v =>
    simp only [hostAction] at h
    split at h
    · injection h with h; exact .inr (.inr (.inl ⟨off, width, v, rfl, ‹_›, h.symm⟩))
    · exact absurd h (by simp)
  | wait => injection h with h; exact .inr (.inr (.inr (.inl ⟨rfl, h.symm⟩)))
  | hwReset => injection h with h; exact .inr (.inr (.inr (.inr ⟨rfl, h.symm⟩)))

/-- A poll reads STATUS, and stays in the inbox while the engine is busy (30_encoding.md R125). -/
theorem pollStatus_eq (s : State) :
    pollStatus s = { busRead 0x008 s with inbox := if s.busy then .wait :: s.inbox else s.inbox } := by
  unfold pollStatus
  cases s.busy <;> rfl

end Sys2Proof.Laws
end

