-- ==== Sys2Proof/Laws/Decode.lean ====
section
/-! SUPPORT. The small lemmas of the command encoding: the reserved-bit check, and the bits of a field at its place. -/

namespace Sys2Proof.Laws

open Sys2Proof

/-- The reserved-bit check answers the command exactly when the bits are 0. -/
theorem whenReservedZero_ok {w : Word} {b : Bool} {i j : Instr} :
    whenReservedZero w b i = .ok j ↔ b = true ∧ i = j := by
  unfold whenReservedZero
  cases b <;> simp

/-- Bit `k` of a field put at `lo`. -/
theorem fieldAt_getLsbD (lo v k : Nat) (hk : k < 32) :
    (fieldAt lo v).getLsbD k = (decide (lo ≤ k) && v.testBit (k - lo)) := by
  rw [fieldAt, BitVec.getLsbD_shiftLeft, BitVec.getLsbD_ofNat]
  by_cases h : k < lo
  · simp [h, hk]
  · have h1 : lo ≤ k := by omega
    have h2 : k - lo < 32 := by omega
    simp [h, h1, h2, hk]

/-- A value that fits in `n` bits has no bit at `n` or above. -/
theorem testBit_of_lt {v n k : Nat} (hv : v < 2 ^ n) (hk : n ≤ k) : v.testBit k = false :=
  Nat.testBit_lt_two_pow (Nat.lt_of_lt_of_le hv (Nat.pow_le_pow_right (by omega) hk))

/-- Bit `k` of a command word, by its opcode and its field bits. -/
theorem encode_getLsbD (i : Instr) (k : Nat) (hk : k < 32) :
    (encode i).getLsbD k = ((opcode i).getLsbD k || (fieldBits i).getLsbD k) := by
  simp [encode, hk]

end Sys2Proof.Laws
end

