-- ==== Sys2Proof/Laws/PerInstr.lean ====
section
/-! SUPPORT. The families of LAWS.json: one lemma per command for each statement about all commands. -/

namespace Sys2Proof.Laws

open Sys2Proof

theorem or_and (a b c : Word) : (a ||| b) &&& c = (a &&& c) ||| (b &&& c) := by
  apply BitVec.eq_of_getLsbD_eq
  intro k _
  simp [Bool.and_or_distrib_right]

/-- A mask and a pattern are hit by `op | field bits` when they are hit by `op` alone and no field bit is masked. -/
theorem hit_of_fields {r : OpcodeRow} {op f : Word} (h1 : op &&& r.mask = r.pattern) (h2 : f &&& r.mask = 0) :
    r.hit (op ||| f) = true := by
  simp only [OpcodeRow.hit, beq_iff_eq]
  rw [or_and]
  simp [h1, h2]

/-- A field that fits between `lo` and `lo + n` has none of the masked bits when the mask has none there. -/
theorem fieldAt_and_mask (lo n v : Nat) (mask : Word) (hv : v < 2 ^ n)
    (hm : ∀ k, lo ≤ k → k < lo + n → mask.getLsbD k = false) : fieldAt lo v &&& mask = 0 := by
  apply BitVec.eq_of_getLsbD_eq
  intro k hk
  rw [BitVec.getLsbD_and, fieldAt_getLsbD _ _ _ hk]
  by_cases h1 : lo ≤ k
  · by_cases h2 : k < lo + n
    · simp [hm k h1 h2]
    · rw [testBit_of_lt hv (by omega)]; simp
  · simp [h1]

/-- Bits `lo` to `lo + n − 1` of a mask are 0. -/
def clearBits (mask : Word) (lo n : Nat) : Bool := (List.range n).all fun k => !mask.getLsbD (lo + k)

theorem clearBits_spec {mask : Word} {lo n : Nat} (h : clearBits mask lo n = true) :
    ∀ k, lo ≤ k → k < lo + n → mask.getLsbD k = false := by
  intro k h1 h2
  simp only [clearBits, List.all_eq_true, List.mem_range, Bool.not_eq_true'] at h
  have := h (k - lo) (by omega)
  rwa [Nat.add_sub_cancel' h1] at this

/-- Row `k` of the table. -/
def rowAt (k : Fin 21) : OpcodeRow := opcodeTable.get (k.cast rfl)

theorem rowAt_mem (k : Fin 21) : rowAt k ∈ opcodeTable := List.get_mem _ _

/-- The command's word, when it is well-formed, hits the row of opcode_table.json with its mnemonic
(30_encoding.md R120). -/
def EncodeHitsItsRow.Statement (i : Instr) : Prop :=
  i.WellFormed → ∃ r ∈ opcodeTable, r.mnemonic = mnemonic i ∧ r.hit (encode i) = true

namespace EncodeHitsItsRow

/-- A command without fields. -/
theorem of_no_field {i : Instr} (k : Fin 21)
    (h : (rowAt k).mnemonic = mnemonic i ∧ (rowAt k).hit (encode i) = true) : Statement i :=
  fun _ => ⟨_, rowAt_mem k, h.1, h.2⟩

/-- A command with fields that the row's mask leaves out. -/
theorem of_fields {i : Instr} (k : Fin 21) (op : Byte) (ho : opcode i = op)
    (h0 : (rowAt k).mnemonic = mnemonic i)
    (h1 : op.setWidth 32 &&& (rowAt k).mask = (rowAt k).pattern)
    (h2 : i.WellFormed → fieldBits i &&& (rowAt k).mask = 0) : Statement i :=
  fun h => ⟨_, rowAt_mem k, h0, hit_of_fields (ho ▸ h1) (h2 h)⟩

theorem nop : Statement .nop := of_no_field 0 (by decide)
theorem clrerr : Statement .clrerr := of_no_field 1 (by decide)
theorem sreset : Statement .sreset := of_no_field 2 (by decide)
theorem bashf : Statement .bashf := of_no_field 3 (by decide)

theorem hashInit (l : Nat) : Statement (.hashInit l) :=
  of_fields 4 0x10 rfl rfl (by decide) fun h =>
    fieldAt_and_mask 8 9 l _ (by simpa [Instr.WellFormed, Instr.wellFormed] using h) (clearBits_spec (by decide))

theorem hashStep (n : Nat) : Statement (.hashStep n) :=
  of_fields 5 0x11 rfl rfl (by decide) fun h =>
    fieldAt_and_mask 8 8 n _ (by simpa [Instr.WellFormed, Instr.wellFormed] using h) (clearBits_spec (by decide))

theorem hashFinal : Statement .hashFinal := of_no_field 6 (by decide)
theorem hashVerify : Statement .hashVerify := of_no_field 7 (by decide)

theorem prgStart (l d ann key : Nat) : Statement (.prgStart l d ann key) :=
  of_fields 8 0x20 rfl rfl (by decide) fun h => by
    obtain ⟨⟨⟨hl, hd⟩, ha⟩, hk⟩ : ((l < 512 ∧ d < 4) ∧ ann < 64) ∧ key < 64 := by
      simpa [Instr.WellFormed, Instr.wellFormed] using h
    simp only [fieldBits, or_and]
    rw [fieldAt_and_mask 8 9 l _ hl (clearBits_spec (by decide)),
      fieldAt_and_mask 17 2 d _ hd (clearBits_spec (by decide)),
      fieldAt_and_mask 19 6 ann _ ha (clearBits_spec (by decide)),
      fieldAt_and_mask 25 6 key _ hk (clearBits_spec (by decide))]
    rfl

theorem prgRestart (ann key : Nat) : Statement (.prgRestart ann key) :=
  of_fields 9 0x21 rfl rfl (by decide) fun h => by
    obtain ⟨ha, hk⟩ : ann < 64 ∧ key < 64 := by simpa [Instr.WellFormed, Instr.wellFormed] using h
    simp only [fieldBits, or_and]
    rw [fieldAt_and_mask 19 6 ann _ ha (clearBits_spec (by decide)),
      fieldAt_and_mask 25 6 key _ hk (clearBits_spec (by decide))]
    rfl

theorem prgAbsorbStart : Statement .prgAbsorbStart := of_no_field 10 (by decide)

theorem prgAbsorb (n : Nat) : Statement (.prgAbsorb n) :=
  of_fields 11 0x23 rfl rfl (by decide) fun h =>
    fieldAt_and_mask 8 8 n _ (by simpa [Instr.WellFormed, Instr.wellFormed] using h) (clearBits_spec (by decide))

theorem prgSqueezeStart : Statement .prgSqueezeStart := of_no_field 12 (by decide)

theorem prgSqueeze (n : Nat) : Statement (.prgSqueeze n) :=
  of_fields 13 0x25 rfl rfl (by decide) fun h =>
    fieldAt_and_mask 8 8 n _ (by simpa [Instr.WellFormed, Instr.wellFormed] using h) (clearBits_spec (by decide))

theorem prgEncrStart : Statement .prgEncrStart := of_no_field 14 (by decide)

theorem prgEncr (n : Nat) : Statement (.prgEncr n) :=
  of_fields 15 0x27 rfl rfl (by decide) fun h =>
    fieldAt_and_mask 8 8 n _ (by simpa [Instr.WellFormed, Instr.wellFormed] using h) (clearBits_spec (by decide))

theorem prgDecrStart : Statement .prgDecrStart := of_no_field 16 (by decide)

theorem prgDecr (n : Nat) : Statement (.prgDecr n) :=
  of_fields 17 0x29 rfl rfl (by decide) fun h =>
    fieldAt_and_mask 8 8 n _ (by simpa [Instr.WellFormed, Instr.wellFormed] using h) (clearBits_spec (by decide))

theorem prgRatchet : Statement .prgRatchet := of_no_field 18 (by decide)
theorem beltEnc : Statement .beltEnc := of_no_field 19 (by decide)
theorem beltDec : Statement .beltDec := of_no_field 20 (by decide)

end EncodeHitsItsRow

end Sys2Proof.Laws
end

