-- ==== Sys2Proof/Laws/RunEnd.lean ====
section
/-! SUPPORT. The end of a run: what the test for it says, and the two ways a run goes on. -/

namespace Sys2Proof.Laws

open Sys2Proof Sys2Proof.Machine

@[simp] theorem isHostAccess_eq_false {e : HostEvent} : isHostAccess e = false ↔ e = .idle ∨ e = .hwReset := by
  cases e <;> simp [isHostAccess]

/-- A run has ended when only idle actions and resets are left and nothing is pending. -/
theorem runEnded_iff (s : State) :
    runEnded s = true ↔ (∀ e ∈ s.inbox, e = .idle ∨ e = .hwReset) ∧ s.pending = none := by
  simp [runEnded, lastAccessIssued]

theorem runToEnd_ended {s : State} (fuel : Nat) (h : runEnded s = true) : runToEnd fuel s = some s := by
  cases fuel <;> simp [runToEnd, h]

theorem runToEnd_zero {s : State} (h : runEnded s = false) : runToEnd 0 s = none := by simp [runToEnd, h]

theorem runToEnd_next {s t : State} (fuel : Nat) (h : runEnded s = false) (hs : step s = .next t) :
    runToEnd (fuel + 1) s = runToEnd fuel t := by simp [runToEnd, h, hs]

end Sys2Proof.Laws
end

