-- ==== Sys2Proof/Laws/Step.lean ====
section
/-! SUPPORT. What one step can do, said once. -/

namespace Sys2Proof.Laws

open Sys2Proof Sys2Proof.Machine

/-- With a command pending and due, the step executes and completes it. -/
theorem step_due {s : State} {w : Word} (hp : s.pending = some w) (hd : s.delay = 0) :
    step s = completed (execWord w s) := by
  simp [step, stepMachine, hp, hd, runPending]

/-- With a command pending and not due, the surroundings move. -/
theorem step_waiting {s : State} {w : Word} (hp : s.pending = some w) (hd : s.delay ≠ 0) :
    step s = surroundings { s with delay := s.delay - 1 } := by
  simp [step, stepMachine, hp, hd]

/-- With no command pending, the surroundings move. -/
theorem step_idle {s : State} (hp : s.pending = none) : step s = surroundings s := by
  simp [step, stepMachine, hp]

/-- A word that decodes runs its command. -/
theorem execWord_ok {w : Word} {i : Instr} (h : decode w = .ok i) (s : State) : execWord w s = exec i s := by
  simp [execWord, h]

/-- A word that does not decode raises ILLEGAL_COMMAND. -/
theorem execWord_error {w : Word} {r : DecodeReject} (h : decode w = .error r) (s : State) :
    execWord w s = .next (setErr .illegalCommand (opByte w) s) := by
  simp [execWord, h]

/-- Executing a word always answers a next state. -/
theorem execWord_next (w : Word) (s : State) : ∃ t, execWord w s = .next t := by
  cases h : decode w with
  | ok i => rw [execWord_ok h]; exact exec_next i s
  | error r => exact ⟨_, execWord_error h s⟩

/-- Every step that answers a next state completes a due command or serves the surroundings. -/
theorem step_cases {s t : State} (h : step s = .next t) :
    (∃ w u, s.pending = some w ∧ s.delay = 0 ∧ execWord w s = .next u ∧ t = complete u) ∨
    (∃ w, s.pending = some w ∧ s.delay ≠ 0 ∧ surroundings { s with delay := s.delay - 1 } = .next t) ∨
    (s.pending = none ∧ surroundings s = .next t) := by
  by_cases hp : s.pending = none
  · rw [step_idle hp] at h; exact .inr (.inr ⟨hp, h⟩)
  · obtain ⟨w, hw⟩ := Option.ne_none_iff_exists'.mp hp
    by_cases hd : s.delay = 0
    · rw [step_due hw hd] at h
      obtain ⟨u, hu⟩ := execWord_next w s
      rw [hu] at h
      injection h with h
      exact .inl ⟨w, u, hw, hd, hu, h.symm⟩
    · rw [step_waiting hw hd] at h
      exact .inr (.inl ⟨w, hw, hd, h⟩)

/-- The step after `withFetchWord` executes exactly that word. -/
theorem step_withFetchWord (s : State) (nbits w : Nat) :
    step (s.withFetchWord nbits w) =
      completed (execWord (commandWord nbits w) (accept (commandWord nbits w) 0 s)) :=
  step_due rfl rfl

end Sys2Proof.Laws
end

