-- ==== Sys2Proof/Tests/Slice0.lean ====
section
/-! SUPPORT. Tests of one step each, against the worked examples and vectors of 95_test_vectors.md or hand calculation
from the rules, the smoke test of WellFormed, decoding of written-out words, and for each statement with hypotheses a
state and operands that meet them (`witness_…`). -/

namespace Sys2Proof.Tests

open Sys2Proof Sys2Proof.Machine Sys2Proof.Claims

-- One theorem after the other: side by side, their kernel evaluations would need too much memory.
set_option Elab.async false

/-! ### Helpers -/

/-- `S0[lo .. lo+len]`, the canonical S of 95_test_vectors.md. -/
def s0 (lo len : Nat) : List Byte := (sboxTable.drop lo).take len

/-- The first `n` bytes of an array. -/
def firstBytes (n : Nat) (A : Vector Byte 192) : List Byte := (List.range n).map (elemAt A)

/-- What `f` sees after the next step, which runs the command word `w`. -/
def after {α : Type} (w : Nat) (s : State) (f : State → α) : Option α :=
  match step (s.withFetchWord 32 w) with
  | .next t => some (f t)
  | .fault _ => none
  | .refused _ => none

/-- STATUS and CTX. -/
def regs (s : State) : Word × Word := (statusWord s, s.ctx.toWord)

/-- The state after `HASH_INIT l=128` and `k` bytes `0x00` more. -/
def hashing (k : Nat) : State :=
  { State.reset with
    S := putAt zeroBytes 184 0x20,
    ctx := { pos := BitVec.ofNat 8 k, buffLen := 128, l := 128, d := 0, mode := .hash, phase := .absorb } }

/-- The state of V-P1: `PRG_START l=128, d=1`, without a key. -/
def unkeyed : State :=
  { State.reset with
    S := putAt zeroBytes 184 33,
    ctx := { pos := 1, buffLen := 160, l := 128, d := 1, mode := .prg, phase := .fresh } }

/-- The state of V-P6: `PRG_START l=128, d=1, key=16` over `S0[0..16]`. -/
def keyed : State :=
  { loadDbuf (s0 0 16) State.reset with
    S := putAt (overlay zeroBytes 0 17 fun i => ([4] ++ s0 0 16).getD i 0) 184 33,
    ctx := { pos := 17, buffLen := 168, l := 128, d := 1, mode := .prg, phase := .fresh } }

/-- A sticky error. -/
def failed : State := { unkeyed with err := .invalidCommand, errop := 0x26 }

/-- The state with a pending word, due after `k` steps. -/
def waiting (w : Word) (k : Nat) (s : State) : State := accept w k s

/-- The state with actions to come. -/
def facing (es : List HostEvent) (s : State) : State := { s with inbox := es }

/-! ### WellFormed: an ill-formed command for each check -/

theorem test_wf_level_of_hash_init : (Instr.hashInit 512).wellFormed = false := by decide
theorem test_wf_count_of_hash_step : (Instr.hashStep 256).wellFormed = false := by decide
theorem test_wf_level_of_start : (Instr.prgStart 512 1 0 0).wellFormed = false := by decide
theorem test_wf_capacity_of_start : (Instr.prgStart 128 4 0 0).wellFormed = false := by decide
theorem test_wf_annotation_of_start : (Instr.prgStart 128 1 64 0).wellFormed = false := by decide
theorem test_wf_key_of_start : (Instr.prgStart 128 1 0 64).wellFormed = false := by decide
theorem test_wf_annotation_of_restart : (Instr.prgRestart 64 0).wellFormed = false := by decide
theorem test_wf_key_of_restart : (Instr.prgRestart 0 64).wellFormed = false := by decide
theorem test_wf_count_of_absorb : (Instr.prgAbsorb 256).wellFormed = false := by decide
theorem test_wf_count_of_squeeze : (Instr.prgSqueeze 256).wellFormed = false := by decide
theorem test_wf_count_of_encr : (Instr.prgEncr 256).wellFormed = false := by decide
theorem test_wf_count_of_decr : (Instr.prgDecr 256).wellFormed = false := by decide
theorem test_assembler_refuses : assemble (.prgAbsorb 256) = none ∧ assemble (.prgAbsorb 255) = some 0x0000FF23 := by
  decide

/-! ### Decoding of words written out from the formats of 30_encoding.md R112, R118, R123 -/

theorem test_decode_nop : decode 0x00000000 = .ok .nop := by decide
theorem test_decode_clrerr : decode 0x00000001 = .ok .clrerr := by decide
theorem test_decode_sreset : decode 0x00000002 = .ok .sreset := by decide
theorem test_decode_bashf : decode 0x00000008 = .ok .bashf := by decide
/-- `L[8] = 1`, `L[7:0] = 0101_1010`. -/
theorem test_decode_hash_init : decode 0b00000000000000010101101000010000 = .ok (.hashInit 346) := by decide
theorem test_decode_hash_step : decode 0x00007F11 = .ok (.hashStep 127) := by decide
theorem test_decode_hash_final : decode 0x00000012 = .ok .hashFinal := by decide
theorem test_decode_hash_verify : decode 0x00000013 = .ok .hashVerify := by decide
/-- Bit 31 0, `K` 100000, `A` 010000, `D` 01, `L` 100000000, `OP` 00100000. -/
theorem test_decode_prg_start :
    decode 0b01000000100000110000000000100000 = .ok (.prgStart 256 1 16 32) ∧
    decode 0x7FFFFF20 = .ok (.prgStart 511 3 63 63) := by decide
theorem test_decode_prg_restart : decode 0x20200021 = .ok (.prgRestart 4 16) := by decide
theorem test_decode_prg_absorb_start : decode 0x00000022 = .ok .prgAbsorbStart := by decide
theorem test_decode_prg_absorb : decode 0x00003123 = .ok (.prgAbsorb 49) := by decide
theorem test_decode_prg_squeeze_start : decode 0x00000024 = .ok .prgSqueezeStart := by decide
theorem test_decode_prg_squeeze : decode 0x0000C025 = .ok (.prgSqueeze 192) := by decide
theorem test_decode_prg_encr_start : decode 0x00000026 = .ok .prgEncrStart := by decide
theorem test_decode_prg_encr : decode 0x00000427 = .ok (.prgEncr 4) := by decide
theorem test_decode_prg_decr_start : decode 0x00000028 = .ok .prgDecrStart := by decide
theorem test_decode_prg_decr : decode 0x0000FF29 = .ok (.prgDecr 255) := by decide
theorem test_decode_prg_ratchet : decode 0x0000002A = .ok .prgRatchet := by decide
/-- Bits 7:0 are 0011_0000 and 0011_0001, all others 0. -/
theorem test_decode_belt : decode 0x00000030 = .ok .beltEnc ∧ decode 0x00000031 = .ok .beltDec := by decide
theorem test_decode_table_word :
    decodeTableWord 32 0x40830020 = some (.prgStart 256 1 16 32) ∧ decodeTableWord 32 0x80028020 = none := by decide

/-! ### One step, by instruction -/

/-- V-E1, and V-E2: `0x00000100` is not a NOP. -/
theorem test_nop : after 0x00000000 unkeyed regs = some (0x00000000, 0x3280A001) := by decide +kernel
theorem test_nop_reserved_bit : after 0x00000100 State.reset regs = some (0x00000030, 0) := by decide +kernel
/-- V-E11. -/
theorem test_clrerr : after 0x00000001 failed regs = some (0x00000000, 0x3280A001) := by decide +kernel
/-- V-E10. -/
theorem test_clrerr_reserved_bit : after 0x00000101 State.reset regs = some (0x00000130, 0) := by decide +kernel
/-- V-E12. -/
theorem test_sreset :
    after 0x00000002 { failed with key := Vector.replicate 8 7, vok := true }
      (fun t => (regs t, elemAt t.key 7, elemAt t.S 184)) = some ((0, 0), 0, 0) := by decide +kernel
/-- V-F2, the first 16 bytes. -/
theorem test_bashf :
    after 0x00000008 State.reset (fun t => firstBytes 16 t.S) =
      some [0xFC, 0xC7, 0x71, 0x8C, 0x6F, 0x6F, 0xB1, 0x37, 0x5B, 0xE1, 0x3E, 0xC3, 0x82, 0xD5, 0x37, 0x00] := by
  decide +kernel
/-- V-F5: the context is not read or written. -/
theorem test_bashf_leaves_ctx : after 0x00000008 (hashing 0) regs = some (0, 0x48808000) := by decide +kernel
/-- V-H18, `l = 128`. -/
theorem test_hash_init :
    after 0x00008010 unkeyed (fun t => (regs t, elemAt t.S 184, elemAt t.S 0)) = some ((0, 0x48808000), 0x20, 0) := by
  decide +kernel
/-- V-H18, `l = 272`. -/
theorem test_hash_init_level : after 0x00011010 State.reset regs = some (0x00001010, 0) := by decide +kernel
/-- V-H16. -/
theorem test_hash_step :
    after 0x00000311 (loadDbuf [0xB1, 0x94, 0xBA] (hashing 0)) (fun t => (regs t, firstBytes 4 t.S, elemAt t.S 184)) =
      some ((0, 0x48808003), [0xB1, 0x94, 0xBA, 0x00], 0x20) := by decide +kernel
/-- V-E5. -/
theorem test_hash_step_mode : after 0x00000111 State.reset regs = some (0x00001150, 0) := by decide +kernel
/-- V-H1, the first 8 bytes of the digest. -/
theorem test_hash_final :
    after 0x00000012 (hashing 0) (fun t => (regs t, firstBytes 8 t.dbuf)) =
      some ((0, 0x48808000), [0x11, 0x4C, 0x3D, 0xFA, 0xE3, 0x73, 0xD9, 0xBC]) := by decide +kernel
/-- V-P31. -/
theorem test_hash_final_mode : after 0x00000012 unkeyed regs = some (0x00001250, 0x3280A001) := by decide +kernel
/-- V-H1's digest is accepted. -/
theorem test_hash_verify :
    after 0x00000013
      (loadDbuf [0x11, 0x4C, 0x3D, 0xFA, 0xE3, 0x73, 0xD9, 0xBC, 0xBC, 0x36, 0x02, 0xD6, 0x38, 0x6F, 0x2D, 0x6A,
                 0x20, 0x59, 0xBA, 0x1B, 0xF9, 0x04, 0x8D, 0xBA, 0xA5, 0x14, 0x6A, 0x6C, 0xB7, 0x75, 0x70, 0x9D]
        (hashing 0)) statusWord = some 0x00000004 := by decide +kernel
/-- V-P6. -/
theorem test_prg_start :
    after 0x20028020 (loadDbuf (s0 0 16) State.reset) (fun t => (regs t, t.S == keyed.S)) =
      some ((0x00000002, 0x3280A811), true) := by decide +kernel
/-- V-P16. -/
theorem test_prg_start_lengths : after 0x08028020 State.reset regs = some (0x00002010, 0) := by decide +kernel
/-- V-P5, the first 8 bytes of S. -/
theorem test_prg_restart :
    after 0x20200021 (loadDbuf (s0 0 4 ++ s0 0 16) unkeyed) (fun t => (regs t, firstBytes 8 t.S)) =
      some ((0x00000002, 0x3280A815), [0xC7, 0x95, 0x58, 0x31, 0x09, 0xD3, 0xF8, 0x24]) := by decide +kernel
/-- V-P29. -/
theorem test_prg_restart_lengths : after 0x10000021 unkeyed regs = some (0x00002110, 0x3280A001) := by decide +kernel
/-- V-P3, from its `PRG_START l=128, d=2`. -/
theorem test_prg_absorb_start :
    after 0x00000022
      { State.reset with
        S := putAt zeroBytes 184 34,
        ctx := { pos := 1, buffLen := 128, l := 128, d := 2, mode := .prg, phase := .fresh } }
      (fun t => (regs t, firstBytes 8 t.S)) =
      some ((0, 0x54808000), [0x1C, 0x4A, 0x31, 0x5C, 0x20, 0x8B, 0xDD, 0x5E]) := by decide +kernel
/-- By hand: `S[1..3]` is 0, so the bytes stand there. -/
theorem test_prg_absorb :
    after 0x00000323 (loadDbuf [0xB1, 0x94, 0xBA] unkeyed) (fun t => (regs t, firstBytes 5 t.S)) =
      some ((0, 0x3280A004), [0x00, 0xB1, 0x94, 0xBA, 0x00]) := by decide +kernel
/-- V-P24. -/
theorem test_prg_absorb_count : after 0x0000C123 unkeyed regs = some (0x00002340, 0x3280A001) := by decide +kernel
/-- By the rule: `pos` 0 and phase SQUEEZE. -/
theorem test_prg_squeeze_start : after 0x00000024 unkeyed regs = some (0, 0x7280A000) := by decide +kernel
/-- By hand, at `pos` 1 over the bytes `S0[0..]` of V-P6's S. -/
theorem test_prg_squeeze :
    after 0x00000325 { keyed with ctx := { keyed.ctx with pos := 1 }, dbuf := zeroBytes }
      (fun t => (t.ctx.pos, firstBytes 4 t.dbuf, t.S == keyed.S)) =
      some (4, [0xB1, 0x94, 0xBA, 0x00], true) := by decide +kernel
/-- V-P30. -/
theorem test_prg_squeeze_mode : after 0x00000125 (hashing 0) regs = some (0x00002550, 0x48808000) := by decide +kernel
/-- V-P7: the first ciphertext of zeros is the rate after the start. -/
theorem test_prg_encr_start :
    after 0x00000026 keyed (fun t => (regs t, firstBytes 4 t.S)) =
      some ((0x00000002, 0x9280A800), [0x71, 0x66, 0x18, 0x8E]) := by decide +kernel
/-- V-P25. -/
theorem test_prg_encr_start_key : after 0x00000026 unkeyed regs = some (0x00002620, 0x3280A001) := by decide +kernel
/-- By hand, at `pos` 1: `B1 ^ 01`, `94 ^ 02`, in DBUF and in S. -/
theorem test_prg_encr :
    after 0x00000227 (loadDbuf [0x01, 0x02, 0xAA] { keyed with ctx := { keyed.ctx with pos := 1 } })
      (fun t => (t.ctx.pos, firstBytes 3 t.dbuf, firstBytes 4 t.S)) =
      some (3, [0xB0, 0x96, 0xAA], [0x04, 0xB0, 0x96, 0xBA]) := by decide +kernel
/-- V-P26: the count is checked before key mode. -/
theorem test_prg_encr_count : after 0x0000C127 unkeyed regs = some (0x00002740, 0x3280A001) := by decide +kernel
/-- V-P8's CTX after the start. -/
theorem test_prg_decr_start : after 0x00000028 keyed regs = some (0x00000002, 0xB280A800) := by decide +kernel
/-- By hand, at `pos` 1: the plaintext in DBUF, the ciphertext in S. -/
theorem test_prg_decr :
    after 0x00000229 (loadDbuf [0xB0, 0x96, 0xAA] { keyed with ctx := { keyed.ctx with pos := 1 } })
      (fun t => (t.ctx.pos, firstBytes 3 t.dbuf, firstBytes 4 t.S)) =
      some (3, [0x01, 0x02, 0xAA], [0x04, 0xB0, 0x96, 0xBA]) := by decide +kernel
/-- V-P2. -/
theorem test_prg_ratchet :
    after 0x0000002A unkeyed (fun t => (regs t, firstBytes 8 t.S)) =
      some ((0, 0x3280A000), [0xDF, 0xEA, 0x11, 0x22, 0x73, 0x6D, 0x5E, 0x7D]) := by decide +kernel
/-- V-B1, words of `KEYB = S0[128..160]` and `BLKB = S0[0..16]` (P3). -/
theorem test_belt_enc :
    after 0x00000030
      { unkeyed with
        key := #v[0x2CE7DEE9, 0xA60F0C8F, 0xF449DB2D, 0x4796736F, 0x16530706, 0x377A24ED, 0x83A3CB39, 0xF68BA903],
        blk := #v[0xC8BA94B1, 0x3BF5080A, 0x8E006D36, 0xE45D4A58] } (fun t => (t.blk, t.ctx.toWord)) =
      some (#v[0xC9A1CC69, 0xE3C95735, 0xE0C36BD6, 0x6EFA88FA], 0x3280A001) := by decide +kernel
/-- V-B5: `BLKB = 37500258DA3F276B BD06CF7930AB04D7`. -/
theorem test_belt_dec :
    after 0x00000031 State.reset (fun t => t.blk) =
      some #v[0x58025037, 0x6B273FDA, 0x79CF06BD, 0xD704AB30] := by decide +kernel
/-- V-S6, with `ROT[0]` and with `ROT[1]`. -/
theorem test_bashS :
    bashS 0x0123456789ABCDEF 0xFEDCBA9876543210 0x0F0F0F0F0F0F0F0F (rot 0) =
      (0x03470BCF13571BDF, 0x3E7E36FF3F7F37FE, 0xCDC945C0DCD854D1) ∧
    bashS 0x0123456789ABCDEF 0xFEDCBA9876543210 0x0F0F0F0F0F0F0F0F (rot 1) =
      (0x07AAAF8E47AEEF8A, 0x68A7E2A16CA3E6A5, 0x0EFDAC9B4AB9E8DF) := by decide
/-- V-B6, the row `01020304`. -/
theorem test_g_functions :
    g5 0x01020304 = 0x97590152 ∧ g13 0x01020304 = 0x59015297 ∧ g21 0x01020304 = 0x01529759 := by decide

/-! ### One step, by access -/

/-- What `f` sees after one action of the host. -/
def hosted {α : Type} (e : HostEvent) (s : State) (f : State → α) : Option α :=
  match step (facing [e] s) with
  | .next t => some (f t)
  | .fault _ => none
  | .refused _ => none

/-- V-M2. -/
theorem test_write_S :
    hosted (.write 0x204 32 0x08070605) unkeyed (fun t => (firstBytes 9 t.S, lane64 t.S 0)) =
      some ([0, 0, 0, 0, 0x05, 0x06, 0x07, 0x08, 0], 0x0807060500000000) := by decide +kernel
/-- V-M3: `pos = buff_len` is illegal, `pos = 159` and the keyed rate are taken. -/
theorem test_write_ctx :
    hosted (.write 0x00C 32 0x3280A0A0) unkeyed regs = some (0, 0x3280A001) ∧
    hosted (.write 0x00C 32 0x3280A09F) unkeyed regs = some (0, 0x3280A09F) ∧
    hosted (.write 0x00C 32 0x3280A801) unkeyed regs = some (0x00000002, 0x3280A801) := by decide +kernel
/-- V-M1, V-M4. -/
theorem test_reads :
    hosted (.read 0x000 32) unkeyed State.readLog = some [0x42454532] ∧
    hosted (.read 0x004 32) unkeyed State.readLog = some [0] ∧
    hosted (.read 0x430 32) unkeyed State.readLog = some [0] ∧
    hosted (.read 0x00C 32) unkeyed State.readLog = some [0x3280A001] := by decide +kernel
/-- V-M5. -/
theorem test_access_errors :
    step (facing [.read 0x008 16] State.reset) = .fault (.accessError 0x008 16) ∧
    step (facing [.read 0x002 32] State.reset) = .fault (.accessError 0x002 32) := ⟨rfl, rfl⟩

/-- The run ends after the last access: the reset that the platform has still to come is no part of its outcome, and a
value read before the run is none of its reads. -/
theorem test_run_outcome :
    (runOutcome 5 (facing [.write 0x100 32 5, .read 0x100 32, .hwReset] { unkeyed with readLog := [9] })).map
      (fun o => (o.status, o.ctx, elemAt o.dbuf 0, o.reads)) = some (0, 0x3280A001, 5, [5]) := by decide +kernel
/-- A run with a command still pending is not over, and one with an access error has no outcome. -/
theorem test_run_pending :
    (runOutcome 0 (waiting 0 0 unkeyed)).isNone = true ∧
    (runOutcome 1 (waiting 0 0 unkeyed)).map (fun o => o.ctx) = some 0x3280A001 ∧
    (runOutcome 5 (facing [.read 0x002 32] unkeyed)).isNone = true := by decide +kernel

/-- 30_encoding.md R130: the model's split and another one are both splits of 193. -/
theorem test_splits :
    pieceLengths 193 = [192, 1] ∧ isSplit 193 (pieceLengths 193) = true ∧ isSplit 193 [100, 93] = true ∧
    isSplit 193 [193] = false := by decide

/-! ### Witnesses: states and operands that meet the hypotheses of the statements -/

theorem witness_DecodeEncodeRoundTrip :
    (Instr.prgStart 511 3 63 63).WellFormed ∧ (Instr.prgStart 0 0 0 0).WellFormed ∧ (Instr.hashStep 255).WellFormed ∧
    (Instr.hashInit 511).WellFormed ∧ (Instr.prgRestart 63 63).WellFormed := by decide

theorem witness_DecodedCommandReencodesToItsWord : decode 0x7FFFFF20 = .ok (.prgStart 511 3 63 63) := by decide

theorem witness_DecodeAgreesWithTheOpcodeTable :
    decode 0x79F80021 = .ok (.prgRestart 63 60) ∧
    ∃ r ∈ opcodeTable, r.hit 0x79F80021 = true ∧ r.mnemonic = "PRG_RESTART" := by decide

theorem witness_IllegalWordRaisesIllegalCommand :
    (waiting 0x00000100 0 unkeyed).pending = some 0x00000100 ∧ (waiting 0x00000100 0 unkeyed).delay = 0 ∧
    (∀ op ∈ [0x03, 0x07, 0x09, 0x0F, 0x14, 0x1F, 0x2B, 0x2F, 0x32, 0xFF], ReservedOp op) ∧
    ReservedBitSet 0x00000100 ∧ ReservedBitSet 0x00010011 ∧ ReservedBitSet 0x00020010 ∧ ReservedBitSet 0x80000020 ∧
    ReservedBitSet 0x00000121 ∧ ReservedBitSet 0x80000021 := by
  refine ⟨rfl, rfl, by decide, ?_⟩
  simp [ReservedBitSet]

theorem witness_StepRunsThePendingCommand :
    (waiting 0x00000001 0 failed).pending = some 0x00000001 ∧ (waiting 0x00000001 0 failed).delay = 0 ∧
    decode 0x00000001 = .ok .clrerr ∧
    exec .clrerr (waiting 0x00000001 0 failed) = .next (setErr .ok 0 (waiting 0x00000001 0 failed)) :=
  ⟨rfl, rfl, by decide, rfl⟩

theorem witness_CmdWriteIssuesACommand :
    (facing [.write 0x004 32 0x00008010] unkeyed).pending = none ∧ unkeyed.busy = false ∧ unkeyed.err = .ok ∧
    (facing [.write 0x004 32 0x00000101] failed).pending = none ∧ failed.busy = false ∧
    ¬ (failed.err = .ok ∨ (0x00000101 : Word) = 0x00000001 ∨ (0x00000101 : Word) = 0x00000002) ∧
    (waiting 0 1 (facing [.write 0x004 32 2] failed)).pending = some 0 ∧
    (waiting 0 1 (facing [.write 0x004 32 2] failed)).busy = true ∧
    (waiting 0 1 (facing [.write 0x004 32 2] failed)).delay ≠ 0 := by decide

theorem witness_WritesWhileBusyAreIgnored :
    (waiting 0 1 (facing [.write 0xFFC 32 5] keyed)).busy = true ∧
    (waiting 0 1 (facing [.write 0xFFC 32 5] keyed)).pending = some 0 ∧
    (waiting 0 1 (facing [.write 0xFFC 32 5] keyed)).delay ≠ 0 ∧
    (waiting 0 1 (facing [.write 0xFFC 32 5] keyed)).inbox = .write 0xFFC 32 5 :: [] ∧
    (0xFFC : Offset).toNat % 4 = 0 := by decide

/-- The engine busy, a read of `off` to come. -/
def reading (off : Offset) : State := waiting 0 1 (facing [.read off 32] keyed)

/-- A read at each offset the clauses name, and at the boundaries of their ranges. -/
theorem witness_ReadsWhileBusy :
    (∀ off ∈ ([0x000, 0x004, 0x008, 0x00C, 0x010, 0x0FC, 0x100, 0x1BC, 0x1C0, 0x3FC, 0x42C, 0x430, 0xFFC] : List Offset),
      (reading off).busy = true ∧ (reading off).pending = some 0 ∧ (reading off).delay ≠ 0 ∧ off.toNat % 4 = 0 ∧
      (reading off).inbox = .read off 32 :: []) ∧
    (∀ off ∈ ([0x010, 0x0FC, 0x1C0, 0x3FC, 0x430, 0xFFC] : List Offset), ReservedOffset off) ∧
    (∀ off ∈ ([0x00C, 0x100, 0x1BC, 0x42C] : List Offset), ArrayOffset off) := by
  refine ⟨?_, by simp [ReservedOffset], by simp [ArrayOffset]⟩
  intro off hoff
  refine ⟨rfl, rfl, Nat.one_ne_zero, ?_, rfl⟩
  have aligned := List.all_eq_true.mp (rfl : List.all _ (fun off : Offset => off.toNat % 4 == 0) = true) off hoff
  simpa using aligned

theorem witness_IdAndReservedOffsets :
    Served (facing [.read 0x000 32] keyed) ∧ Served (waiting 0 1 (facing [.write 0x430 32 5] keyed)) ∧
    (facing [.read 0x000 32] keyed).inbox = .read 0x000 32 :: [] ∧
    (waiting 0 1 (facing [.write 0x430 32 5] keyed)).inbox = .write 0x430 32 5 :: [] ∧
    ReservedOffset 0x430 ∧ ReservedOffset 0x2C0 := by
  refine ⟨Or.inl rfl, Or.inr Nat.one_ne_zero, rfl, rfl, ?_⟩
  simp [ReservedOffset]

theorem witness_ReadsHaveNoSideEffect : keyed.busy = false := by decide

theorem witness_WordAccessesMoveFourBytes :
    keyed.busy = false ∧
    (0x1BC : Offset).toNat = 0x100 + 4 * 47 ∧ (0x2BC : Offset).toNat = 0x200 + 4 * 47 ∧
    (0x41C : Offset).toNat = 0x400 + 4 * 7 ∧ (0x42C : Offset).toNat = 0x420 + 4 * 3 ∧
    (0x2B8 : Offset).toNat = 0x200 + 8 * 23 ∧ (0x2BC : Offset).toNat = 0x204 + 8 * 23 := by decide

/-- For CtxWriteIsTakenExactlyWhenLegal, the first clause: each mode, at the last position. -/
theorem witness_CtxWriteIsTakenExactlyWhenLegal :
    unkeyed.busy = false ∧ LegalCtx Ctx.zero ∧ LegalCtx { (hashing 127).ctx with phase := .absorb } ∧
    LegalCtx { unkeyed.ctx with pos := 159 } ∧ LegalCtx keyed.ctx ∧ keyed.ctx.toWord = 0x3280A811 := by
  refine ⟨rfl, ?_, ?_, ?_, ?_, by decide⟩ <;>
    simp [LegalCtx, Ctx.zero, Ctx.toWord, Phase.toBits, Mode.toBits, hashing, unkeyed, keyed]

/-- And the second clause: no context has the reserved phase 7. -/
theorem witness_CtxWriteOfNoLegalContext : ¬ ∃ c : Ctx, LegalCtx c ∧ c.toWord = 0xFFFFFFFF := by
  rintro ⟨⟨pos, buffLen, l, d, mode, phase⟩, -, h⟩
  have h30 := congrArg (fun w : Word => w.getLsbD 30) h
  have h31 := congrArg (fun w : Word => w.getLsbD 31) h
  simp only [Ctx.toWord, BitVec.getLsbD_append] at h30 h31
  cases phase <;> simp [Phase.toBits] at h30 h31

theorem witness_AccessErrorIsAFaultOfTheHost :
    Served (facing [.read 0x008 16] keyed) ∧ Served (waiting 0 1 (facing [.write 0x002 32 5] keyed)) ∧
    (facing [.read 0x008 16] keyed).inbox = .read 0x008 16 :: [] ∧
    (waiting 0 1 (facing [.write 0x002 32 5] keyed)).inbox = .write 0x002 32 5 :: [] ∧
    ((16 : Nat) ≠ 32 ∨ (0x008 : Offset).toNat % 4 ≠ 0) ∧ ((32 : Nat) ≠ 32 ∨ (0x002 : Offset).toNat % 4 ≠ 0) := by
  unfold Served; decide

theorem witness_ResetAndSresetGiveTheResetState :
    Served (waiting 0 1 (facing [.hwReset] keyed)) ∧
    (waiting 0 1 (facing [.hwReset] keyed)).inbox = .hwReset :: [] := by
  unfold Served; decide

theorem witness_ResetValues :
    (∃ s, exec .sreset s = .next (resetEngine keyed)) ∧
    (∃ s rest, Served s ∧ s.inbox = .hwReset :: rest ∧
      step s = .next (hardwareReset { facing [] keyed with delay := 0 })) :=
  ⟨⟨keyed, rfl⟩, facing [.hwReset] keyed, [], Or.inl rfl, rfl, rfl⟩

theorem witness_EveryStepKeepsTheEngineInv :
    EngineInv (waiting 0 0 keyed) ∧ step (waiting 0 0 keyed) = .next (complete (waiting 0 0 keyed)) :=
  ⟨by unfold EngineInv; decide, rfl⟩

theorem witness_ErropIsZeroExactlyWithoutError :
    EngineInv State.reset ∧ (State.reset.errop = 0 ↔ State.reset.err = .ok) ∧
    step State.reset = .next State.reset := ⟨by unfold EngineInv; decide, by decide, rfl⟩

/-- A word with another `OP`, NOP itself, and a word with the `OP` of NOP and a reserved bit set. -/
theorem witness_ErropIsZeroExactlyWithoutErrorButForOpZero :
    unkeyed.err = .ok ∧ unkeyed.errop = 0 ∧ execWord 0x00000026 unkeyed = .next failed ∧
    execWord 0x00000000 unkeyed = .next unkeyed ∧
    execWord 0x00000100 unkeyed = .next (setErr .illegalCommand 0 unkeyed) := ⟨rfl, rfl, rfl, rfl, rfl⟩

theorem witness_AcceptedCommandCompletes :
    (waiting 0x00000008 2 (facing [.wait, .write 0x100 32 5] keyed)).pending = some 0x00000008 ∧
    (waiting 0x00000008 2 (facing [.wait, .write 0x100 32 5] keyed)).busy = true ∧
    ∀ e ∈ (waiting 0x00000008 2 (facing [.wait, .write 0x100 32 5] keyed)).inbox.take 2, harmless e = true := by
  decide

/-- A run with a reset still to come after the host's last access has ended; one with an access to come has not. -/
theorem witness_OutcomeIsTakenAtTheFirstEndedState :
    Ended (facing [.hwReset, .idle] keyed) ∧ ¬ Ended (facing [.hwReset, .wait] keyed) ∧ ¬ Ended (waiting 0 0 keyed) ∧
    runOutcome 1 (facing [.hwReset, .idle] keyed) =
      some (outcomeAt (facing [.hwReset, .idle] keyed) (facing [.hwReset, .idle] keyed)) := by
  refine ⟨?_, ?_, ?_, rfl⟩ <;> simp [Ended, facing, waiting, accept, keyed, loadDbuf, State.reset]

theorem witness_StickyErrorSurvivesOtherAccesses :
    failed.err ≠ .ok ∧ failed.busy = false ∧ failed.pending = none ∧
    (facing [.write 0x004 32 0] failed).inbox = .write 0x004 32 0 :: [] ∧
    HostEvent.write 0x004 32 0 ≠ .hwReset ∧
    HostEvent.write 0x004 32 0 ≠ .write 0x004 32 0x00000001 ∧ HostEvent.write 0x004 32 0 ≠ .write 0x004 32 0x00000002 ∧
    step (facing [.write 0x004 32 0] failed) = .next failed :=
  ⟨by decide, rfl, rfl, rfl, by decide, by decide, by decide, rfl⟩

theorem witness_FailedCommandChangesOnlyErrAndErrop :
    unkeyed.err = .ok ∧ execWord 0x00000026 unkeyed = .next failed ∧ failed.err ≠ .ok :=
  ⟨rfl, rfl, by decide⟩

theorem witness_ChecksFailInTheirOrder :
    (∀ r ∈ opcodeTable, r.hit 0x00000100 = false) ∧
    decode 0x0000C127 = .ok (.prgEncr 193) ∧
    expectedError (.prgEncr 193) State.reset.ctx = .wrongMode ∧
    expectedError (.prgEncr 193) unkeyed.ctx = .badCount ∧
    expectedError (.prgEncr 192) unkeyed.ctx = .invalidCommand ∧
    expectedError (.prgEncr 192) keyed.ctx = .ok ∧
    expectedError (.prgStart 128 1 60 12) unkeyed.ctx = .invalidLength ∧
    expectedError (.prgStart 128 1 60 16) unkeyed.ctx = .ok := by decide

theorem witness_ClrerrUndoesAFailedCommand :
    unkeyed.err = .ok ∧ unkeyed.errop = 0 ∧ execWord 0x00000026 unkeyed = .next failed ∧ failed.err ≠ .ok :=
  ⟨rfl, rfl, rfl, by decide⟩

theorem witness_CtxWordLayout : keyed.busy = false := rfl

theorem witness_HashInitStartsAContext : 0 % 16 = 0 ∧ 0 ≤ 256 ∧ 256 % 16 = 0 ∧ 256 ≤ 256 := by decide

/-- To the very end of the rate, short of it, and with no byte. -/
theorem witness_HashStepWithinTheRate :
    (hashing 127).ctx.mode = .hash ∧ FitsRate 1 (hashing 127) ∧ FitsRate 127 (hashing 0) ∧ FitsRate 0 (hashing 5) := by
  unfold FitsRate; decide

theorem witness_HashStepsAreSplitInvariant :
    (∀ x ∈ [List.replicate 192 (0 : Byte), [], s0 0 3], x.length ≤ 192) ∧ (hashing 5).ctx.mode = .hash := by decide +kernel

theorem witness_HashFinalWritesTheDigest : (hashing 127).ctx.mode = .hash := rfl

theorem witness_HashVerifyComparesTheDigest : (hashing 0).ctx.mode = .hash := rfl

theorem witness_VerifyAfterFinalSucceeds :
    (hashing 3).ctx.mode = .hash ∧ (hashing 3).ctx.l.toNat ≤ 256 ∧ 31 < (hashing 3).ctx.l.toNat / 4 ∧
    ∃ x : Byte, x ≠ elemAt (hashing 3).dbuf 31 := ⟨rfl, by decide, by decide, 1, by decide⟩

theorem witness_PrgStartBuildsTheContext :
    StartLengths 128 1 0 0 ∧ StartLengths 256 2 60 60 ∧ StartLengths 192 1 4 24 ∧ StartLengths 256 1 0 32 := by decide

theorem witness_PrgRestartOverlaysTheHeader :
    unkeyed.ctx.mode = .prg ∧ HeaderLengths unkeyed.ctx.l.toNat 60 0 ∧ HeaderLengths unkeyed.ctx.l.toNat 0 16 ∧
    HeaderLengths unkeyed.ctx.l.toNat 60 60 := by decide

theorem witness_PrgPhaseCommandsCommit : keyed.ctx.mode = .prg ∧ KeyMode keyed.ctx ∧ ¬ KeyMode unkeyed.ctx := by decide

theorem witness_PrgAbsorbWithinTheRate :
    unkeyed.ctx.mode = .prg ∧ FitsRate 159 unkeyed ∧ FitsRate 158 unkeyed ∧ FitsRate 0 unkeyed := by
  unfold FitsRate; decide

theorem witness_PrgSqueezeWithinTheRate : unkeyed.ctx.mode = .prg ∧ FitsRate 159 unkeyed ∧ FitsRate 1 unkeyed := by
  unfold FitsRate; decide

theorem witness_PrgEncrWithinTheRate : KeyMode keyed.ctx ∧ FitsRate 151 keyed ∧ FitsRate 1 keyed := by
  unfold FitsRate; decide

theorem witness_PrgDecrWithinTheRate : KeyMode keyed.ctx ∧ FitsRate 151 keyed ∧ FitsRate 1 keyed := by
  unfold FitsRate; decide

theorem witness_PrgStepsAreSplitInvariant :
    (∀ x ∈ [List.replicate 192 (0 : Byte), [], s0 0 3], x.length ≤ 192) ∧ unkeyed.ctx.mode = .prg ∧ KeyMode keyed.ctx := by
  decide +kernel

theorem witness_StepCommandsCompleteForEveryCount :
    192 ≤ 192 ∧ (hashing 5).ctx.mode = .hash ∧ unkeyed.ctx.mode = .prg ∧ KeyMode keyed.ctx := by decide

theorem witness_PrgRatchetXorsTheSavedState : unkeyed.ctx.mode = .prg := rfl

theorem witness_AeadRoundTrip :
    KeyMode keyed.ctx ∧ [192, 1, 0].sum = 193 ∧ (∀ c ∈ [192, 1, 0], c ≤ 192) ∧ ([] : List Nat).sum = 0 := by decide

/-- A restart without a key on a keyed context, V-P9. -/
theorem witness_OnlyStartsAndRekeyingChangeTheRate :
    exec (.prgRestart 0 0) keyed = .next (restart 0 0 keyed) ∧
    (∀ l, Instr.prgRestart 0 0 ≠ .hashInit l) ∧ (∀ l d ann key, Instr.prgRestart 0 0 ≠ .prgStart l d ann key) ∧
    Instr.prgRestart 0 0 ≠ .sreset ∧ (∀ ann key, Instr.prgRestart 0 0 = .prgRestart ann key → key = 0) :=
  ⟨rfl, by simp, by simp, by simp, by rintro ann key h; injection h with _ h2; exact h2.symm⟩

theorem witness_PhaseAfterEachCommand :
    keyed.err = .ok ∧ exec .prgDecrStart keyed = .next (enterPhase codeText .decr keyed) ∧
    (enterPhase codeText .decr keyed).err = .ok := ⟨rfl, rfl, rfl⟩

theorem witness_NoCommandReadsThePhase :
    exec .prgRatchet { keyed with ctx := { keyed.ctx with phase := .decr } } =
      .next (ratchet { keyed with ctx := { keyed.ctx with phase := .decr } }) := rfl

theorem witness_ScratchIsUnobservable :
    step (waiting 0x0000002A 0 keyed) = .next (complete (ratchet (waiting 0x0000002A 0 keyed))) ∧
    step (facing [.read 0x002 32] keyed) = .fault (.accessError 0x002 32) := ⟨rfl, rfl⟩

theorem witness_WhatEachCommandLeaves :
    exec .beltEnc keyed = .next { keyed with blk := quadBlock (beltEncr keyed.key (quadOf keyed.blk)) } ∧
    Instr.beltEnc ≠ .sreset ∧ exec .nop keyed = .next keyed := ⟨rfl, by decide, rfl⟩

theorem witness_BeltCommandsTransformTheBlock :
    ∃ x : Quad, x = { a := elemAt keyed.blk 0, b := elemAt keyed.blk 1, c := elemAt keyed.blk 2,
                      d := elemAt keyed.blk 3 } := ⟨_, rfl⟩

theorem witness_RestoreOfASavedContext :
    keyed.pending = none ∧ keyed.busy = false ∧ LegalCtx keyed.ctx ∧ failed.pending = none ∧ failed.busy = false := by
  refine ⟨rfl, rfl, .inr (.inr (by decide)), rfl, rfl⟩

end Sys2Proof.Tests
end

section
/-! PROOFS of the statements of 10_state.md. Every command is a list of checks and one effect, and every step command a
loop over one kind of byte: what a command reads, writes and keeps is said once of these, and a statement about all
commands is put together from it. The host's side and the step then go through what an action and a step can do. -/

namespace Sys2Proof.Proofs

open Sys2Proof Sys2Proof.Machine Sys2Proof.Claims Sys2Proof.Laws

/-! ### Every command: its checks, then one effect (60_exceptions.md R363) -/

/-- The checks of a command, in their order. -/
def checksOf (i : Instr) (s : State) : List (Bool × ErrCode) :=
  match i with
  | .nop | .clrerr | .sreset | .bashf | .beltEnc | .beltDec => []
  | .hashInit l => [(hashLevel l, .invalidLength)]
  | .hashStep n => [needHash s, needCount n]
  | .hashFinal | .hashVerify => [needHash s]
  | .prgStart l d ann key => [(startLengths l d ann key, .invalidLength)]
  | .prgRestart ann key => [needPrg s, (headerLengths s.ctx.l.toNat ann key, .invalidLength)]
  | .prgAbsorbStart | .prgSqueezeStart | .prgRatchet => [needPrg s]
  | .prgAbsorb n | .prgSqueeze n => [needPrg s, needCount n]
  | .prgEncrStart | .prgDecrStart => [needPrg s, needKeyMode s]
  | .prgEncr n | .prgDecr n => [needPrg s, needCount n, needKeyMode s]

/-- The effect of a command whose checks hold. -/
def effectOf (i : Instr) (s : State) : State :=
  match i with
  | .nop => s
  | .clrerr => clearError s
  | .sreset => resetEngine s
  | .bashf => permute s
  | .hashInit l => startHash l s
  | .hashStep n => forBytes n hashStepByte s
  | .hashFinal => finaliseHash s
  | .hashVerify => verifyHash s
  | .prgStart l d ann key => startPrg l d ann key s
  | .prgRestart ann key => restart ann key s
  | .prgAbsorbStart => enterPhase codeData .absorb s
  | .prgAbsorb n => forBytes n absorbByte s
  | .prgSqueezeStart => enterPhase codeOut .squeeze s
  | .prgSqueeze n => forBytes n squeezeByte s
  | .prgEncrStart => enterPhase codeText .encr s
  | .prgEncr n => forBytes n encrByte s
  | .prgDecrStart => enterPhase codeText .decr s
  | .prgDecr n => forBytes n decrByte s
  | .prgRatchet => ratchet s
  | .beltEnc => { s with blk := quadBlock (beltEncr s.key (quadOf s.blk)) }
  | .beltDec => { s with blk := quadBlock (beltDecr s.key (quadOf s.blk)) }

/-- Both tables are the model's: a command is its checks and then its effect. -/
theorem exec_eq_checked (i : Instr) (s : State) :
    exec i s = checked (opcode i) (checksOf i s) (effectOf i) s := by
  cases i <;> rfl

/-- A command whose checks hold has its effect. -/
theorem exec_pass {i : Instr} {s : State} (h : firstFailure (checksOf i s) = .ok) :
    exec i s = .next (effectOf i s) := by
  rw [exec_eq_checked, checked_pass h]

/-- Everything a command can answer: its effect, or one recorded error. -/
theorem exec_cases {i : Instr} {s t : State} (h : exec i s = .next t) :
    (firstFailure (checksOf i s) = .ok ∧ t = effectOf i s) ∨
    (∃ code, code ≠ .ok ∧ t = setErr code (opcode i) s) := by
  rw [exec_eq_checked] at h
  rcases checked_cases h with hpass | ⟨hfail, ht⟩
  · exact .inl hpass
  · exact .inr ⟨_, hfail, ht⟩

/-! ### The byte of a step command -/

/-- One iteration of a step command: the new S and DBUF are made of S, DBUF and `pos` alone, DBUF changes at the
iteration's index at most, and then `adv` moves on (42_prg.md R253 to R259, 41_hash.md R202). -/
def StepBody (body : Nat → State → State) : Prop :=
  ∃ A D : Nat → Vector Byte 192 → Vector Byte 192 → BitVec 8 → Vector Byte 192,
    (∀ i s, body i s = adv { s with S := A i s.S s.dbuf s.ctx.pos, dbuf := D i s.S s.dbuf s.ctx.pos }) ∧
    ∀ i S dbuf pos j, j ≠ i → elemAt (D i S dbuf pos) j = elemAt dbuf j

theorem stepBody_hashStepByte : StepBody hashStepByte :=
  ⟨fun i S dbuf pos => putAt S pos.toNat (elemAt dbuf i), fun _ _ dbuf _ => dbuf, fun _ _ => rfl,
    fun _ _ _ _ _ _ => rfl⟩

theorem stepBody_absorbByte : StepBody absorbByte :=
  ⟨fun i S dbuf pos => putAt S pos.toNat (elemAt S pos.toNat ^^^ elemAt dbuf i), fun _ _ dbuf _ => dbuf,
    fun _ _ => rfl, fun _ _ _ _ _ _ => rfl⟩

theorem stepBody_squeezeByte : StepBody squeezeByte :=
  ⟨fun _ S _ _ => S, fun i S dbuf pos => putAt dbuf i (elemAt S pos.toNat), fun _ _ => rfl,
    fun _ _ _ _ _ hj => elemAt_putAt_ne _ _ _ _ hj⟩

theorem stepBody_encrByte : StepBody encrByte :=
  ⟨fun i S dbuf pos => putAt S pos.toNat (elemAt S pos.toNat ^^^ elemAt dbuf i),
    fun i S dbuf pos => putAt dbuf i (elemAt S pos.toNat ^^^ elemAt dbuf i), fun _ _ => rfl,
    fun _ _ _ _ _ hj => elemAt_putAt_ne _ _ _ _ hj⟩

theorem stepBody_decrByte : StepBody decrByte :=
  ⟨fun i S dbuf pos => putAt S pos.toNat (elemAt S pos.toNat ^^^ (elemAt dbuf i ^^^ elemAt S pos.toNat)),
    fun i S dbuf pos => putAt dbuf i (elemAt dbuf i ^^^ elemAt S pos.toNat), fun _ _ => rfl,
    fun _ _ _ _ _ hj => elemAt_putAt_ne _ _ _ _ hj⟩

/-- `t` is `s` but for S, `pos` and the first `n` bytes of DBUF. -/
def StepFrame (n : Nat) (s t : State) : Prop :=
  ∃ A D p, t = { s with S := A, dbuf := D, ctx := { s.ctx with pos := p } } ∧
    ∀ j, n ≤ j → elemAt D j = elemAt s.dbuf j

theorem adv_frame (s : State) : ∃ A p, adv s = { s with S := A, ctx := { s.ctx with pos := p } } := by
  rcases adv_cases s with ⟨-, h⟩ | ⟨-, h⟩ <;> exact ⟨_, _, h⟩

/-- The frame of a step command's loop. -/
theorem forBytes_stepFrame {body : Nat → State → State} (hb : StepBody body) (n : Nat) (s : State) :
    StepFrame n s (forBytes n body s) := by
  obtain ⟨A, D, hbody, hD⟩ := hb
  refine forBytes_invariant (P := fun k t => StepFrame k s t) ?_ s ⟨s.S, s.dbuf, s.ctx.pos, rfl, fun _ _ => rfl⟩
  rintro k _ - ⟨S', dbuf', p', rfl, hdbuf⟩
  obtain ⟨S'', p'', hadv⟩ := adv_frame
    { s with S := A k S' dbuf' p', dbuf := D k S' dbuf' p', ctx := { s.ctx with pos := p' } }
  refine ⟨S'', D k S' dbuf' p', p'', (hbody k _).trans hadv, fun j hj => ?_⟩
  rw [hD _ _ _ _ _ (by omega), hdbuf j (by omega)]

theorem forBytes_dbuf {body : Nat → State → State} (hdbuf : ∀ i s, (body i s).dbuf = s.dbuf) (n : Nat) (s : State) :
    (forBytes n body s).dbuf = s.dbuf :=
  forBytes_keeps (P := fun t => t.dbuf = s.dbuf) (fun i t h => (hdbuf i t).trans h) n s rfl

/-- A loop that never writes DBUF changes S and `pos` only. -/
theorem forBytes_spongeFrame {body : Nat → State → State} (hb : StepBody body)
    (hdbuf : ∀ i s, (body i s).dbuf = s.dbuf) (n : Nat) (s : State) :
    ∃ A p, forBytes n body s = { s with S := A, ctx := { s.ctx with pos := p } } := by
  obtain ⟨A, D, p, ht, -⟩ := forBytes_stepFrame hb n s
  have hkeep := forBytes_dbuf hdbuf n s
  rw [ht] at hkeep
  exact ⟨A, p, by rw [ht, ← hkeep]⟩

theorem hashStepByte_dbuf (i : Nat) (s : State) : (hashStepByte i s).dbuf = s.dbuf := by simp [hashStepByte]

theorem absorbByte_dbuf (i : Nat) (s : State) : (absorbByte i s).dbuf = s.dbuf := by simp [absorbByte]

/-- A step command's loop keeps `pos` below the rate (42_prg.md R244). -/
theorem forBytes_pos_lt {body : Nat → State → State} (hb : StepBody body) (n : Nat) {s : State}
    (h : s.ctx.pos.toNat < s.ctx.buffLen.toNat) : (forBytes n body s).ctx.pos.toNat < s.ctx.buffLen.toNat := by
  obtain ⟨A, D, hbody, -⟩ := hb
  have hkeep : ∀ i (t : State), t.ctx.pos.toNat < s.ctx.buffLen.toNat ∧ t.ctx.buffLen = s.ctx.buffLen →
      (body i t).ctx.pos.toNat < s.ctx.buffLen.toNat ∧ (body i t).ctx.buffLen = s.ctx.buffLen := by
    rintro i t ⟨hpos, hlen⟩
    rw [hbody]
    refine ⟨?_, ?_⟩
    · rw [← hlen] at hpos ⊢
      exact adv_pos_lt { t with S := _, dbuf := _ } hpos
    · rw [adv_ctx]; exact hlen
  exact (forBytes_keeps hkeep n s ⟨h, rfl⟩).1

/-! ### T and the phase, which no command reads -/

/-- `s` with another scratch T and another phase. -/
def masked (X : Vector Byte 192) (p : Phase) (s : State) : State :=
  { s with T := X, ctx := { s.ctx with phase := p } }

theorem adv_masked (X : Vector Byte 192) (p : Phase) (s : State) : adv (masked X p s) = masked X p (adv s) :=
  (apply_ite (masked X p) (s.ctx.pos + 1 = s.ctx.buffLen) (setPos 0 (permute s)) (setPos (s.ctx.pos + 1) s)).symm

theorem forBytes_masked {body : Nat → State → State} (hb : StepBody body) (n : Nat) (X : Vector Byte 192) (p : Phase)
    (s : State) : forBytes n body (masked X p s) = masked X p (forBytes n body s) := by
  obtain ⟨A, D, hbody, -⟩ := hb
  refine forBytes_related (R := fun t u => t = masked X p u) ?_ _ _ rfl
  rintro i _ u - rfl
  rw [hbody, hbody, ← adv_masked]
  rfl

theorem rekeyRate_masked (key : Nat) (X : Vector Byte 192) (p : Phase) (s : State) :
    rekeyRate key (masked X p s) = masked X p (rekeyRate key s) := by
  unfold rekeyRate
  split <;> rfl

theorem checksOf_masked (i : Instr) (X : Vector Byte 192) (p : Phase) (s : State) :
    checksOf i (masked X p s) = checksOf i s := by
  cases i <;> rfl

/-- `u` is `t` but for T and the phase; T agrees if `sameT`, and the phase if `samePhase`. -/
def EqualUnderMask (sameT samePhase : Prop) (t u : State) : Prop :=
  ∃ Y q, u = masked Y q t ∧ (sameT → Y = t.T) ∧ (samePhase → q = t.ctx.phase)

theorem forBytes_equalUnderMask {body : Nat → State → State} (hb : StepBody body) (n : Nat) (X : Vector Byte 192)
    (p : Phase) (s : State) :
    EqualUnderMask (X = s.T) (p = s.ctx.phase) (forBytes n body s) (forBytes n body (masked X p s)) := by
  refine ⟨X, p, forBytes_masked hb n X p s, ?_, ?_⟩ <;>
    (obtain ⟨A, D, q, ht, -⟩ := forBytes_stepFrame hb n s; rw [ht]; exact id)

theorem restart_equalUnderMask (ann key : Nat) (X : Vector Byte 192) (p : Phase) (s : State) :
    EqualUnderMask (X = s.T) (p = s.ctx.phase) (restart ann key s) (restart ann key (masked X p s)) := by
  refine ⟨X, .fresh, ?_, fun h => ?_, fun _ => rfl⟩
  · have hcommit : ∀ code, commit code (masked X p s) = masked X p (commit code s) := fun _ => rfl
    rw [restart, restart, hcommit, rekeyRate_masked]
    rfl
  · simpa [restart] using h

/-- No command reads T or the phase: on states that differ in these only, its effects differ in these only. -/
theorem effectOf_masked (i : Instr) (X : Vector Byte 192) (p : Phase) (s : State) :
    EqualUnderMask (X = s.T) (p = s.ctx.phase) (effectOf i s) (effectOf i (masked X p s)) := by
  cases i with
  | hashStep n => exact forBytes_equalUnderMask stepBody_hashStepByte n X p s
  | prgAbsorb n => exact forBytes_equalUnderMask stepBody_absorbByte n X p s
  | prgSqueeze n => exact forBytes_equalUnderMask stepBody_squeezeByte n X p s
  | prgEncr n => exact forBytes_equalUnderMask stepBody_encrByte n X p s
  | prgDecr n => exact forBytes_equalUnderMask stepBody_decrByte n X p s
  | prgRestart ann key => exact restart_equalUnderMask ann key X p s
  | nop | clrerr | bashf | beltEnc | beltDec => exact ⟨X, p, rfl, id, id⟩
  | hashFinal | hashVerify | prgRatchet => exact ⟨_, p, rfl, fun _ => rfl, id⟩
  | sreset => exact ⟨_, _, rfl, fun _ => rfl, fun _ => rfl⟩
  | hashInit _ | prgStart _ _ _ _ | prgAbsorbStart | prgSqueezeStart | prgEncrStart | prgDecrStart =>
    exact ⟨X, _, rfl, id, fun _ => rfl⟩

/-- The same of whole commands, whether they fail or not. -/
theorem exec_masked {i : Instr} {s t : State} (h : exec i s = .next t) (X : Vector Byte 192) (p : Phase) :
    ∃ u, exec i (masked X p s) = .next u ∧ EqualUnderMask (X = s.T) (p = s.ctx.phase) t u := by
  rw [exec_eq_checked] at h ⊢
  rw [checksOf_masked]
  rcases checked_cases h with ⟨hpass, rfl⟩ | ⟨hfail, rfl⟩
  · exact ⟨_, checked_pass hpass, effectOf_masked i X p s⟩
  · exact ⟨_, checked_fail hfail, X, p, rfl, id, id⟩

/-! ### The phase (10_state.md R39) -/

/-- Settles O52: the phase is one of the two masks no command reads. -/
theorem noCommandReadsThePhase : Obligations.NoCommandReadsThePhase := by
  intro i s t p h
  obtain ⟨u, hu, Y, q, rfl, hY, -⟩ := exec_masked h s.T p
  rw [hY rfl] at hu
  exact ⟨q, hu⟩

/-! ### Legal contexts (10_state.md R37) -/

theorem toWord_zero : Ctx.zero.toWord = 0 := by decide

/-- Only the context of zeros has the CTX word 0. -/
theorem eq_zero_of_toWord {c : Ctx} (h : c.toWord = 0) : c = Ctx.zero := by
  have hsome : some c = some Ctx.zero := by rw [← ofWord_toWord, ← ofWord_toWord, h, toWord_zero]
  exact Option.some.inj hsome

/-- The model's test of a context is the rule's list of legal values. -/
theorem legal_iff (c : Ctx) : c.legal = true ↔ LegalCtx c := by
  unfold Ctx.legal LegalCtx
  cases hm : c.mode with
  | none =>
    simp only [beq_iff_eq, reduceCtorEq, false_and, or_false, true_and]
    exact ⟨fun h => h ▸ by decide, eq_zero_of_toWord⟩
  | hash =>
    have hd : c.d = 0#2 ↔ c.d.toNat = 0 := BitVec.toNat_inj.symm
    simp [hashLevel, hd, and_assoc]
  | prg =>
    have hphase : c.phase ∈ [Phase.fresh, .absorb, .squeeze, .encr, .decr] ↔ ¬ c.phase = .none := by
      cases c.phase <;> decide
    simp [prgLevel, prgCapacity, rate, hphase, and_assoc, or_assoc]

/-- In a legal context in use, `pos` is below the rate. -/
theorem legalCtx_pos_lt {c : Ctx} (h : LegalCtx c) (hm : c.mode ≠ .none) : c.pos.toNat < c.buffLen.toNat := by
  rcases h with ⟨hnone, -⟩ | ⟨-, -, -, -, -, hpos, -⟩ | ⟨-, -, -, -, hpos, -⟩
  · exact absurd hnone hm
  · exact hpos
  · exact hpos

/-- Moving `pos` inside the rate keeps a context legal. -/
theorem legalCtx_setPos {c : Ctx} (h : LegalCtx c) (hm : c.mode ≠ .none) {p : BitVec 8}
    (hp : p.toNat < c.buffLen.toNat) : LegalCtx { c with pos := p } := by
  rcases h with ⟨hnone, -⟩ | ⟨hmode, hl, hle, hd, hlen, -, hphase⟩ | ⟨hmode, hl, hd, hlen, -, hphase⟩
  · exact absurd hnone hm
  · exact .inr (.inl ⟨hmode, hl, hle, hd, hlen, hp, hphase⟩)
  · exact .inr (.inr ⟨hmode, hl, hd, hlen, hp, hphase⟩)

/-- A legal Prg context has one of three levels, one of two capacities, and one of their two rates. -/
theorem legalCtx_prg {c : Ctx} (h : LegalCtx c) (hm : c.mode = .prg) :
    c.l.toNat ∈ [128, 192, 256] ∧ c.d.toNat ∈ [1, 2] ∧
    c.buffLen.toNat ∈ [rate c.l.toNat c.d.toNat false, rate c.l.toNat c.d.toNat true] := by
  rcases h with ⟨hmode, -⟩ | ⟨hmode, -⟩ | ⟨-, hl, hd, hlen, -, -⟩
  · simp [hm] at hmode
  · simp [hm] at hmode
  · exact ⟨hl, hd, hlen⟩

/-- A phase command's commit sets `pos` to 0 and a phase other than none, and keeps a Prg context legal. -/
theorem legalCtx_enterPhase {c : Ctx} (h : LegalCtx c) (hm : c.mode = .prg) {p : Phase}
    (hp : p ∈ [Phase.fresh, .absorb, .squeeze, .encr, .decr]) : LegalCtx { c with pos := 0, phase := p } := by
  have hpos := legalCtx_pos_lt h (by simp [hm])
  rcases h with ⟨hmode, -⟩ | ⟨hmode, -⟩ | ⟨hmode, hl, hd, hlen, -, -⟩
  · simp [hm] at hmode
  · simp [hm] at hmode
  · exact .inr (.inr ⟨hmode, hl, hd, hlen, Nat.zero_lt_of_lt hpos, hp⟩)

/-- The rates: between 64 and 192 bytes, and at least 128 with a key. -/
theorem rate_bounds {l d : Nat} (hl : l ∈ [128, 192, 256]) (hd : d ∈ [1, 2]) :
    64 ≤ rate l d false ∧ rate l d false ≤ 192 ∧ 128 ≤ rate l d true ∧ rate l d true ≤ 192 := by
  fin_cases hl <;> fin_cases hd <;> decide

/-- A rate fits its field of CTX. -/
theorem rate_toNat {l d : Nat} (hl : l ∈ [128, 192, 256]) (hd : d ∈ [1, 2]) (keyed : Bool) :
    (BitVec.ofNat 8 (rate l d keyed)).toNat = rate l d keyed := by
  obtain ⟨-, hhi, -, hhi'⟩ := rate_bounds hl hd
  rw [BitVec.toNat_ofNat]
  cases keyed <;> exact Nat.mod_eq_of_lt (by omega)

/-- The context after a header is legal: a header without a key fits every rate, and with a key it fits the keyed one
(42_prg.md R250, R251). -/
theorem legalCtx_afterHeader {c : Ctx} {ann key : Nat} (hm : c.mode = .prg) (hl : c.l.toNat ∈ [128, 192, 256])
    (hd : c.d.toNat ∈ [1, 2]) (hlen : c.buffLen.toNat ∈ [rate c.l.toNat c.d.toNat false, rate c.l.toNat c.d.toNat true])
    (hkeyed : 0 < key → c.buffLen.toNat = rate c.l.toNat c.d.toNat true)
    (hhead : headerLengths c.l.toNat ann key = true) :
    LegalCtx { c with pos := BitVec.ofNat 8 (1 + ann + key), phase := .fresh } := by
  obtain ⟨hann, hkey⟩ : ann ≤ 60 ∧ key ≤ 60 := by
    simp only [headerLengths, Bool.and_eq_true, decide_eq_true_eq] at hhead
    omega
  obtain ⟨hlo, -, hlo', -⟩ := rate_bounds hl hd
  have hpos : (BitVec.ofNat 8 (1 + ann + key)).toNat = 1 + ann + key := by simp; omega
  refine .inr (.inr ⟨hm, hl, hd, hlen, ?_, by simp⟩)
  simp only [List.mem_cons, List.not_mem_nil, or_false] at hlen
  rw [hpos]
  change 1 + ann + key < c.buffLen.toNat
  by_cases hk : 0 < key
  · have := hkeyed hk
    omega
  · omega

/-- HASH_INIT makes a legal context. -/
theorem legalCtx_hashInitCtx {l : Nat} (h : hashLevel l = true) : LegalCtx (hashInitCtx l) := by
  obtain ⟨hmod, hle⟩ : l % 16 = 0 ∧ l ≤ 256 := by simpa [hashLevel] using h
  have hl : (BitVec.ofNat 9 l).toNat = l := by simp; omega
  have hlen : (BitVec.ofNat 8 (192 - l / 2)).toNat = 192 - l / 2 := by simp; omega
  refine .inr (.inl ⟨rfl, ?_⟩)
  simp only [hashInitCtx, hl, hlen]
  exact ⟨hmod, hle, rfl, trivial, by simp; omega, trivial⟩

/-- PRG_START makes a legal context. -/
theorem legalCtx_startCtx {l d ann key : Nat} (h : startLengths l d ann key = true) :
    LegalCtx (startCtx l d ann key) := by
  obtain ⟨⟨hl, hd⟩, hhead⟩ : (l ∈ [128, 192, 256] ∧ d ∈ [1, 2]) ∧ headerLengths l ann key = true := by
    simpa [startLengths, prgLevel, prgCapacity, or_assoc] using h
  have hlv : (BitVec.ofNat 9 l).toNat = l := by fin_cases hl <;> rfl
  have hdv : (BitVec.ofNat 2 d).toNat = d := by fin_cases hd <;> rfl
  have hlen := rate_toNat hl hd (decide (0 < key))
  refine legalCtx_afterHeader (c := startCtx l d ann key) rfl ?_ ?_ ?_ ?_ ?_ <;>
    simp only [startCtx, hlv, hdv, hlen]
  · exact hl
  · exact hd
  · cases decide (0 < key) <;> simp
  · exact fun hk => by rw [decide_eq_true hk]
  · exact hhead

theorem restart_ctx (ann key : Nat) (s : State) :
    (restart ann key s).ctx = { s.ctx with
      pos := BitVec.ofNat 8 (1 + ann + key)
      buffLen := if 0 < key then BitVec.ofNat 8 (rate s.ctx.l.toNat s.ctx.d.toNat true) else s.ctx.buffLen
      phase := .fresh } := by
  simp only [restart, rekeyRate, setPhase_ctx, setPos_ctx, xorHeader_ctx]
  split <;> rfl

/-- PRG_RESTART keeps a Prg context legal. -/
theorem legalCtx_restart {ann key : Nat} {s : State} (h : LegalCtx s.ctx) (hm : s.ctx.mode = .prg)
    (hhead : headerLengths s.ctx.l.toNat ann key = true) : LegalCtx (restart ann key s).ctx := by
  obtain ⟨hl, hd, hlen⟩ := legalCtx_prg h hm
  have hkeyed := rate_toNat hl hd true
  have hmem : (BitVec.ofNat 8 (rate s.ctx.l.toNat s.ctx.d.toNat true)).toNat ∈
      [rate s.ctx.l.toNat s.ctx.d.toNat false, rate s.ctx.l.toNat s.ctx.d.toNat true] := by rw [hkeyed]; simp
  by_cases hk : 0 < key
  · simp only [restart_ctx, if_pos hk]
    exact legalCtx_afterHeader (c := { s.ctx with buffLen := _ }) hm hl hd  hmem (fun _ => hkeyed) hhead
  · simp only [restart_ctx, if_neg hk]
    exact legalCtx_afterHeader hm hl hd hlen (fun h => absurd h hk) hhead

theorem forBytes_legalCtx {body : Nat → State → State} (hb : StepBody body) (n : Nat) {s : State}
    (h : LegalCtx s.ctx) (hm : s.ctx.mode ≠ .none) : LegalCtx (forBytes n body s).ctx := by
  have hpos := forBytes_pos_lt hb n (legalCtx_pos_lt h hm)
  obtain ⟨A, D, p, ht, -⟩ := forBytes_stepFrame hb n s
  rw [ht] at hpos ⊢
  exact legalCtx_setPos h hm hpos

theorem mode_of_needHash {s : State} {rest : List (Bool × ErrCode)} (h : firstFailure (needHash s :: rest) = .ok) :
    s.ctx.mode = .hash := by
  by_contra hm
  simp [needHash, hm] at h

theorem of_needPrg {s : State} {rest : List (Bool × ErrCode)} (h : firstFailure (needPrg s :: rest) = .ok) :
    s.ctx.mode = .prg ∧ firstFailure rest = .ok := by
  by_cases hm : s.ctx.mode = .prg
  · exact ⟨hm, by simpa [needPrg, hm] using h⟩
  · simp [needPrg, hm] at h

/-- "Every command leaves CTX legal" (10_state.md R37). -/
theorem effectOf_legalCtx {i : Instr} {s : State} (h : LegalCtx s.ctx) (hpass : firstFailure (checksOf i s) = .ok) :
    LegalCtx (effectOf i s).ctx := by
  have hstep : ∀ {body : Nat → State → State} (_ : StepBody body) (n : Nat) {rest : List (Bool × ErrCode)},
      firstFailure (needPrg s :: rest) = .ok → LegalCtx (forBytes n body s).ctx := fun hb n _ hp =>
    forBytes_legalCtx hb n h (by simp [(of_needPrg hp).1])
  cases i with
  | nop | clrerr | bashf | hashFinal | hashVerify | beltEnc | beltDec => exact h
  | sreset => exact (legal_iff _).1 rfl
  | hashInit l => exact legalCtx_hashInitCtx (by simpa [checksOf] using hpass)
  | hashStep n => exact forBytes_legalCtx stepBody_hashStepByte n h (by simp [mode_of_needHash hpass])
  | prgStart l d ann key => exact legalCtx_startCtx (by simpa [checksOf] using hpass)
  | prgRestart ann key =>
    obtain ⟨hm, hhead⟩ := of_needPrg hpass
    exact legalCtx_restart h hm (by simpa using hhead)
  | prgAbsorb n => exact hstep stepBody_absorbByte n hpass
  | prgSqueeze n => exact hstep stepBody_squeezeByte n hpass
  | prgEncr n => exact hstep stepBody_encrByte n hpass
  | prgDecr n => exact hstep stepBody_decrByte n hpass
  | prgAbsorbStart | prgSqueezeStart | prgEncrStart | prgDecrStart =>
    exact legalCtx_enterPhase h (of_needPrg hpass).1 (by decide)
  | prgRatchet =>
    have hm : s.ctx.mode ≠ .none := by simp [(of_needPrg hpass).1]
    exact legalCtx_setPos h hm (Nat.zero_lt_of_lt (legalCtx_pos_lt h hm))

/-! ### What an effect leaves (10_state.md R52) -/

/-- `t` is `s` but for S, T, DBUF and CTX. -/
def BashFrame (s t : State) : Prop := ∃ A X D c, t = { s with S := A, T := X, dbuf := D, ctx := c }

theorem forBytes_bashFrame {body : Nat → State → State} (hb : StepBody body) (n : Nat) (s : State) :
    BashFrame s (forBytes n body s) := by
  obtain ⟨A, D, p, ht, -⟩ := forBytes_stepFrame hb n s
  exact ⟨A, s.T, D, _, ht⟩

/-- PRG_RESTART writes S and CTX only. -/
theorem restart_frame (ann key : Nat) (s : State) : ∃ A c, restart ann key s = { s with S := A, ctx := c } := by
  unfold restart rekeyRate
  split <;> exact ⟨_, _, rfl⟩

/-- The commands that write more than S, T, DBUF and CTX are five. -/
theorem effectOf_cases (i : Instr) (s : State) :
    BashFrame s (effectOf i s) ∨ i = .clrerr ∨ i = .sreset ∨ i = .hashVerify ∨ i = .beltEnc ∨ i = .beltDec := by
  cases i with
  | clrerr | sreset | hashVerify | beltEnc | beltDec => simp
  | hashStep n => exact .inl (forBytes_bashFrame stepBody_hashStepByte n s)
  | prgAbsorb n => exact .inl (forBytes_bashFrame stepBody_absorbByte n s)
  | prgSqueeze n => exact .inl (forBytes_bashFrame stepBody_squeezeByte n s)
  | prgEncr n => exact .inl (forBytes_bashFrame stepBody_encrByte n s)
  | prgDecr n => exact .inl (forBytes_bashFrame stepBody_decrByte n s)
  | prgRestart ann key =>
    obtain ⟨A, c, ht⟩ := restart_frame ann key s
    exact .inl ⟨A, s.T, s.dbuf, c, ht⟩
  | nop | bashf | hashInit _ | hashFinal | prgStart _ _ _ _ | prgAbsorbStart | prgSqueezeStart | prgEncrStart
  | prgDecrStart | prgRatchet => exact .inl ⟨_, _, _, _, rfl⟩

/-- The error fields are left or cleared by an effect, never set. -/
theorem effectOf_err (i : Instr) (s : State) :
    ((effectOf i s).err = s.err ∧ (effectOf i s).errop = s.errop) ∨
    ((effectOf i s).err = .ok ∧ (effectOf i s).errop = 0) := by
  rcases effectOf_cases i s with ⟨A, X, D, c, ht⟩ | rfl | rfl | rfl | rfl | rfl
  · rw [ht]; exact .inl ⟨rfl, rfl⟩
  · exact .inr ⟨rfl, rfl⟩
  · exact .inr ⟨rfl, rfl⟩
  · exact .inl ⟨rfl, rfl⟩
  · exact .inl ⟨rfl, rfl⟩
  · exact .inl ⟨rfl, rfl⟩

/-- KEY, `busy`, PENDING and the host's side are left by every effect but SRESET's. -/
theorem effectOf_hostSide {i : Instr} (s : State) (h : i ≠ .sreset) :
    (effectOf i s).key = s.key ∧ (effectOf i s).busy = s.busy ∧ (effectOf i s).pending = s.pending ∧
    (effectOf i s).inbox = s.inbox ∧ (effectOf i s).readLog = s.readLog := by
  rcases effectOf_cases i s with ⟨A, X, D, c, ht⟩ | rfl | rfl | rfl | rfl | rfl
  · rw [ht]; exact ⟨rfl, rfl, rfl, rfl, rfl⟩
  · exact ⟨rfl, rfl, rfl, rfl, rfl⟩
  · exact absurd rfl h
  · exact ⟨rfl, rfl, rfl, rfl, rfl⟩
  · exact ⟨rfl, rfl, rfl, rfl, rfl⟩
  · exact ⟨rfl, rfl, rfl, rfl, rfl⟩

theorem effectOf_blk {i : Instr} (s : State) (h : i ≠ .sreset) (henc : i ≠ .beltEnc) (hdec : i ≠ .beltDec) :
    (effectOf i s).blk = s.blk := by
  rcases effectOf_cases i s with ⟨A, X, D, c, ht⟩ | rfl | rfl | rfl | rfl | rfl
  · rw [ht]
  · rfl
  · exact absurd rfl h
  · rfl
  · exact absurd rfl henc
  · exact absurd rfl hdec

theorem effectOf_vok {i : Instr} (s : State) (h : i ≠ .sreset) (hverify : i ≠ .hashVerify) :
    (effectOf i s).vok = s.vok := by
  rcases effectOf_cases i s with ⟨A, X, D, c, ht⟩ | rfl | rfl | rfl | rfl | rfl
  · rw [ht]
  · rfl
  · exact absurd rfl h
  · exact absurd rfl hverify
  · rfl
  · rfl

/-- DBUF is written by the four commands that produce bytes, and by SRESET. -/
theorem effectOf_dbuf {i : Instr} (s : State) (h : i ≠ .sreset) (hfinal : i ≠ .hashFinal)
    (hsqueeze : ∀ n, i ≠ .prgSqueeze n) (hencr : ∀ n, i ≠ .prgEncr n) (hdecr : ∀ n, i ≠ .prgDecr n) :
    (effectOf i s).dbuf = s.dbuf := by
  cases i with
  | sreset => exact absurd rfl h
  | hashFinal => exact absurd rfl hfinal
  | prgSqueeze n => exact absurd rfl (hsqueeze n)
  | prgEncr n => exact absurd rfl (hencr n)
  | prgDecr n => exact absurd rfl (hdecr n)
  | hashStep n => exact forBytes_dbuf hashStepByte_dbuf n s
  | prgAbsorb n => exact forBytes_dbuf absorbByte_dbuf n s
  | prgRestart ann key => simp [effectOf, restart]
  | nop | clrerr | bashf | hashInit _ | hashVerify | prgStart _ _ _ _ | prgAbsorbStart | prgSqueezeStart | prgEncrStart
  | prgDecrStart | prgRatchet | beltEnc | beltDec => rfl

theorem forBytes_T {body : Nat → State → State} (hb : StepBody body) (n : Nat) (s : State) :
    (forBytes n body s).T = s.T := by
  obtain ⟨A, D, p, ht, -⟩ := forBytes_stepFrame hb n s
  rw [ht]

/-- T is written by the three commands that use it, and by SRESET. -/
theorem effectOf_T {i : Instr} (s : State) (h : i ≠ .sreset) (hfinal : i ≠ .hashFinal) (hverify : i ≠ .hashVerify)
    (hratchet : i ≠ .prgRatchet) : (effectOf i s).T = s.T := by
  cases i with
  | sreset => exact absurd rfl h
  | hashFinal => exact absurd rfl hfinal
  | hashVerify => exact absurd rfl hverify
  | prgRatchet => exact absurd rfl hratchet
  | hashStep n => exact forBytes_T stepBody_hashStepByte n s
  | prgAbsorb n => exact forBytes_T stepBody_absorbByte n s
  | prgSqueeze n => exact forBytes_T stepBody_squeezeByte n s
  | prgEncr n => exact forBytes_T stepBody_encrByte n s
  | prgDecr n => exact forBytes_T stepBody_decrByte n s
  | prgRestart ann key => simp [effectOf, restart]
  | nop | clrerr | bashf | hashInit _ | prgStart _ _ _ _ | prgAbsorbStart | prgSqueezeStart | prgEncrStart
  | prgDecrStart | beltEnc | beltDec => rfl

/-- What the effect of a command leaves and an error leaves too, the command leaves. -/
theorem exec_keeps {α : Type} {f : State → α} {i : Instr} {s t : State} (h : exec i s = .next t)
    (herr : ∀ code op, f (setErr code op s) = f s) (heffect : f (effectOf i s) = f s) : f t = f s := by
  rcases exec_cases h with ⟨-, rfl⟩ | ⟨code, -, rfl⟩
  · exact heffect
  · exact herr code _

/-- Settles O54, a field at a time: a failed command leaves it, and so does each effect that is not excepted. -/
theorem whatEachCommandLeaves : Obligations.WhatEachCommandLeaves := by
  intro i s t h hreset
  obtain ⟨hkey, hbusy, hpending, hinbox, hlog⟩ := effectOf_hostSide s hreset
  refine ⟨exec_keeps (f := State.key) h (fun _ _ => rfl) hkey, fun henc hdec => ?_, fun hverify => ?_,
    fun hfinal hsqueeze hencr hdecr => ?_, fun hfinal hverify hratchet => ?_, fun hi => ?_,
    exec_keeps (f := State.busy) h (fun _ _ => rfl) hbusy, exec_keeps (f := State.pending) h (fun _ _ => rfl) hpending,
    exec_keeps (f := State.inbox) h (fun _ _ => rfl) hinbox, exec_keeps (f := State.readLog) h (fun _ _ => rfl) hlog⟩
  · exact exec_keeps (f := State.blk) h (fun _ _ => rfl) (effectOf_blk s hreset henc hdec)
  · exact exec_keeps (f := State.vok) h (fun _ _ => rfl) (effectOf_vok s hreset hverify)
  · exact exec_keeps (f := State.dbuf) h (fun _ _ => rfl) (effectOf_dbuf s hreset hfinal hsqueeze hencr hdecr)
  · exact exec_keeps (f := State.T) h (fun _ _ => rfl) (effectOf_T s hreset hfinal hverify hratchet)
  · have hS : (effectOf i s).S = s.S ∧ (effectOf i s).ctx = s.ctx := by
      rcases hi with rfl | rfl | rfl | rfl | rfl | rfl <;> exact ⟨rfl, rfl⟩
    exact ⟨exec_keeps (f := State.S) h (fun _ _ => rfl) hS.1, exec_keeps (f := State.ctx) h (fun _ _ => rfl) hS.2⟩

/-! ### The step commands, at every count (10_state.md R46) -/

theorem keyMode_iff (c : Ctx) : keyMode c = true ↔ KeyMode c := by
  have hcast : (16 : Int) * (192 - (c.buffLen.toNat : Int)) = (c.l.toNat : Int) * (2 + (c.d.toNat : Int)) ↔
      16 * 192 = c.l.toNat * (2 + c.d.toNat) + 16 * c.buffLen.toNat := by
    zify
    constructor <;> intro h <;> linarith
  simp only [keyMode, KeyMode, Bool.and_eq_true, beq_iff_eq, hcast]

/-- Settles O47: the checks hold, and the loop's frame is that of its byte. -/
theorem stepCommandsCompleteForEveryCount : Obligations.StepCommandsCompleteForEveryCount := by
  intro s n hn
  have hcount : countFits n = true := by simpa [countFits] using hn
  refine ⟨fun hm => ?_, fun hm => ?_, fun hm => ?_, fun hk => ?_⟩
  · obtain ⟨A, p, ht⟩ := forBytes_spongeFrame stepBody_hashStepByte hashStepByte_dbuf n s
    exact ⟨A, p, ht ▸ exec_pass (i := .hashStep n) (by simp [checksOf, needHash, needCount, hm, hcount])⟩
  · obtain ⟨A, p, ht⟩ := forBytes_spongeFrame stepBody_absorbByte absorbByte_dbuf n s
    exact ⟨A, p, ht ▸ exec_pass (i := .prgAbsorb n) (by simp [checksOf, needPrg, needCount, hm, hcount])⟩
  · obtain ⟨A, D, p, ht, hD⟩ := forBytes_stepFrame stepBody_squeezeByte n s
    exact ⟨A, D, p, ht ▸ exec_pass (i := .prgSqueeze n) (by simp [checksOf, needPrg, needCount, hm, hcount]), hD⟩
  · have hkey := (keyMode_iff s.ctx).2 hk
    have hm := hk.1
    refine ⟨?_, ?_⟩
    · obtain ⟨A, D, p, ht, hD⟩ := forBytes_stepFrame stepBody_encrByte n s
      exact ⟨A, D, p, ht ▸ exec_pass (i := .prgEncr n)
        (by simp [checksOf, needPrg, needCount, needKeyMode, hm, hcount, hkey]), hD⟩
    · obtain ⟨A, D, p, ht, hD⟩ := forBytes_stepFrame stepBody_decrByte n s
      exact ⟨A, D, p, ht ▸ exec_pass (i := .prgDecr n)
        (by simp [checksOf, needPrg, needCount, needKeyMode, hm, hcount, hkey]), hD⟩

/-! ### A command word (60_exceptions.md R362 to R364) -/

/-- The decoder keeps the `OP` byte (30_encoding.md R110). -/
theorem opcode_of_decode {w : Word} {i : Instr} (h : decode w = .ok i) : opcode i = opByte w := by
  have hop : ∀ {k : Nat}, (opByte w).toNat = k → BitVec.ofNat 8 k = opByte w := by
    rintro _ rfl
    simp
  unfold decode formatA formatH formatN formatS formatR at h
  split at h
  case h_22 => exact absurd h (by simp)
  all_goals
    obtain ⟨-, rfl⟩ := whenReservedZero_ok.1 h
    exact hop ‹_›

/-- Everything the execution of a word can answer: a command's effect, or one error with the word's own `OP`. -/
theorem execWord_cases {w : Word} {s t : State} (h : execWord w s = .next t) :
    (∃ i, decode w = .ok i ∧ firstFailure (checksOf i s) = .ok ∧ t = effectOf i s) ∨
    (∃ code, code ≠ .ok ∧ t = setErr code (opByte w) s) := by
  cases hdec : decode w with
  | ok i =>
    rw [execWord_ok hdec] at h
    rcases exec_cases h with ⟨hpass, ht⟩ | ⟨code, hcode, ht⟩
    · exact .inl ⟨i, rfl, hpass, ht⟩
    · exact .inr ⟨code, hcode, by rw [ht, opcode_of_decode hdec]⟩
  | error r =>
    rw [execWord_error hdec] at h
    injection h with ht
    exact .inr ⟨.illegalCommand, by simp, ht.symm⟩

/-- Of the words with `OP` 0 only NOP, the word 0, decodes (30_encoding.md R118, R120). -/
theorem decode_opZero {w : Word} (h : opByte w = 0) :
    decode w = if w = 0 then .ok .nop else .error (.reservedBits 0) := by
  have hbits : w.extractLsb' 8 24 = 0#24 ↔ w = 0 := by
    refine ⟨fun hrest => ?_, fun hw => by rw [hw]; rfl⟩
    have happ : w.extractLsb' 8 24 ++ opByte w = w := by
      apply BitVec.eq_of_getLsbD_eq
      intro j hj
      simp only [opByte, BitVec.getLsbD_append, BitVec.getLsbD_extractLsb']
      split
      · simp [*]
      · rw [decide_eq_true (by omega), Bool.true_and, Nat.add_sub_cancel' (by omega)]
    rw [← happ, hrest, h]
    rfl
  unfold decode
  rw [h]
  simp [formatA, whenReservedZero, hbits, h]

/-- Settles O60, by the word: with another `OP` than 0 an error leaves `errop` other than 0; with `OP` 0 there are NOP,
which leaves no error, and the words that do not decode. -/
theorem erropIsZeroExactlyWithoutErrorButForOpZero : Obligations.ErropIsZeroExactlyWithoutErrorButForOpZero := by
  intro w s t herr herrop h
  change ((t.errop = 0 ↔ t.err = .ok) ↔ (opByte w ≠ 0 ∨ w = 0)) ∧ (opByte w = 0 → w ≠ 0 → _)
  by_cases hop : opByte w = 0
  · have hdec := decode_opZero hop
    by_cases hw : w = 0
    · rw [if_pos hw] at hdec
      rw [execWord_ok hdec] at h
      obtain rfl : s = t := by injection h
      simp [hw, herr, herrop]
    · rw [if_neg hw] at hdec
      rw [execWord_error hdec, hop] at h
      obtain rfl : setErr .illegalCommand 0 s = t := by injection h
      exact ⟨iff_of_false (by simp) (not_or.2 ⟨not_not.2 hop, hw⟩), fun _ _ => ⟨rfl, rfl⟩⟩
  · refine ⟨iff_of_true ?_ (.inl hop), fun hop' => absurd hop' hop⟩
    rcases execWord_cases h with ⟨i, -, -, rfl⟩ | ⟨code, hcode, rfl⟩
    · rcases effectOf_err i s with ⟨h1, h2⟩ | ⟨h1, h2⟩
      · exact iff_of_true (h2.trans herrop) (h1.trans herr)
      · exact iff_of_true h2 h1
    · exact iff_of_false hop hcode

/-! ### The host's side -/

/-- When the surroundings are served, one action of theirs is the step; only the latency counter moves beside it. -/
theorem step_served {s : State} (h : Served s) : ∃ d, step s = surroundings { s with delay := d } := by
  by_cases hp : s.pending = none
  · exact ⟨s.delay, step_idle hp⟩
  · obtain ⟨w, hw⟩ := Option.ne_none_iff_exists'.mp hp
    exact ⟨s.delay - 1, step_waiting hw (h.resolve_left hp)⟩

theorem step_served_cons {s : State} (h : Served s) {e : HostEvent} {rest : List HostEvent} (hi : s.inbox = e :: rest) :
    ∃ d, step s = hostAction e { s with inbox := rest, delay := d } := by
  obtain ⟨d, hd⟩ := step_served h
  exact ⟨d, hd.trans (surroundings_cons _ e rest hi)⟩

theorem accessDefined_word {off : Offset} (h : off.toNat % 4 = 0) : accessDefined off 32 = true := by
  simp [accessDefined, h]

theorem placeAt_reserved {off : Offset} (h : ReservedOffset off) : placeAt off = .reserved := by
  unfold ReservedOffset at h
  have hr := placeAt_range off
  cases hp : placeAt off <;> rw [hp] at hr <;> simp at hr ⊢ <;> omega

/-- A read of a place that is readable while busy adds its word to the log and changes nothing else. -/
theorem busRead_readable {off : Offset} (h : unreadableWhileBusy (placeAt off) = false) (s : State) :
    busRead off s = { s with readLog := s.readLog ++ [placeWord s (placeAt off)] } := by
  simp [busRead, readValue, h]

/-- A write to ID, to STATUS or to a reserved offset changes nothing. -/
theorem busWrite_ignored {off : Offset} (h : placeAt off = .id ∨ placeAt off = .status ∨ placeAt off = .reserved)
    (v : Word) (s : State) : busWrite off v s = s := by
  unfold busWrite
  split
  · rfl
  · rcases h with h | h | h <;> rw [h] <;> rfl

/-- Settles O10: these places are readable while busy, and a write to them is dropped. -/
theorem idAndReservedOffsets : Obligations.IdAndReservedOffsets := by
  intro s off rest hserved haligned
  have hdef := accessDefined_word haligned
  refine ⟨fun hi => ?_, fun v hi hoff => ?_⟩
  · obtain ⟨d, hstep⟩ := step_served_cons hserved hi
    rw [hostAction, if_pos hdef] at hstep
    refine ⟨fun hid => ⟨d, ?_⟩, fun hres => ⟨d, ?_⟩⟩
    · have hp : placeAt off = .id := by rw [hid]; rfl
      rw [hstep, busRead_readable (by rw [hp]; rfl), hp]
      rfl
    · have hp := placeAt_reserved hres
      rw [hstep, busRead_readable (by rw [hp]; rfl), hp]
      rfl
  · obtain ⟨d, hstep⟩ := step_served_cons hserved hi
    have hp : placeAt off = .id ∨ placeAt off = .status ∨ placeAt off = .reserved := by
      rcases hoff with rfl | rfl | hres
      · exact .inl rfl
      · exact .inr (.inl rfl)
      · exact .inr (.inr (placeAt_reserved hres))
    rw [hostAction, if_pos hdef, busWrite_ignored hp] at hstep
    exact ⟨d, hstep⟩

/-- Settles O13: the words that are taken are those of the legal contexts, and a word has one context. -/
theorem ctxWriteIsTakenExactlyWhenLegal : Obligations.CtxWriteIsTakenExactlyWhenLegal := by
  intro s v hb
  have hwrite : busWrite 0x00C v s = writeCtx v s := busWrite_idle _ v s hb
  rw [hwrite]
  rcases writeCtx_cases v s with ⟨c, hword, hlegal, hw⟩ | ⟨hno, hw⟩
  · refine ⟨fun c' _ hword' => ?_, fun hno => absurd ⟨c, (legal_iff c).1 hlegal, hword⟩ hno⟩
    have hsame : some c = some c' := by rw [← ofWord_toWord, ← ofWord_toWord, hword, hword']
    rw [hw, Option.some.inj hsame]
  · exact ⟨fun c hc hword => absurd ⟨c, hword, (legal_iff c).2 hc⟩ hno, fun _ => hw⟩

/-- Settles O21: of what an action can do to the engine, only a reset touches `err` and `errop`, and with an error only
CLRERR and SRESET are accepted. -/
theorem stickyErrorSurvivesOtherAccesses : Obligations.StickyErrorSurvivesOtherAccesses := by
  intro s t e rest herr hbusy hpend hi hreset hclrerr hsreset h
  rw [step_idle hpend, surroundings_cons s e rest hi] at h
  rcases hostAction_cases h with ⟨-, rfl⟩ | ⟨off, width, -, -, rfl⟩ | ⟨off, width, v, rfl, hdef, rfl⟩ | ⟨-, rfl⟩ | ⟨hhw, -⟩
  · exact ⟨rfl, rfl, hbusy, hpend⟩
  · exact ⟨rfl, rfl, hbusy, hpend⟩
  · rcases busWrite_cases off v { s with inbox := rest } with hw | ⟨-, hp, hv, -⟩ | ⟨-, -, c, -, -, hw⟩ | ⟨-, A, hw⟩ |
      ⟨-, A, hw⟩ | ⟨-, A, hw⟩ | ⟨-, A, hw⟩
    case inr.inl =>
      obtain ⟨rfl, -⟩ : width = 32 ∧ off.toNat % 4 = 0 := by simpa [accessDefined] using hdef
      have hr := placeAt_range off
      rw [hp] at hr
      obtain rfl : off = 0x004 := BitVec.eq_of_toNat_eq hr
      rcases hv with hok | rfl | rfl
      · exact absurd hok herr
      · exact absurd rfl hclrerr
      · exact absurd rfl hsreset
    all_goals
      rw [hw]
      exact ⟨rfl, rfl, hbusy, hpend⟩
  · rw [pollStatus_eq]
    exact ⟨rfl, rfl, hbusy, hpend⟩
  · exact absurd hhw hreset

/-! ### The words of STATUS and CTX (10_state.md R33 to R36) -/

theorem readValue_status (s : State) : readValue 0x008 s = statusWord s := by
  have hp : placeAt 0x008 = .status := rfl
  rw [readValue, hp]
  simp [unreadableWhileBusy, placeWord]

theorem readValue_ctx {s : State} (h : s.busy = false) : readValue 0x00C s = s.ctx.toWord := by
  have hp : placeAt 0x00C = .ctx := rfl
  rw [readValue, hp, h]
  simp [placeWord]

/-- The STATUS word, bit by bit (10_state.md R33). -/
theorem statusWord_getLsbD (s : State) {k : Nat} (hk : k < 32) :
    (statusWord s).getLsbD k =
      if k = 0 then s.busy else if k = 1 then keyMode s.ctx else if k = 2 then s.vok else if k = 3 then false
      else if k < 8 then s.err.toBits.getLsbD (k - 4) else if k < 16 then s.errop.getLsbD (k - 8) else false := by
  simp only [statusWord, bit, BitVec.getLsbD_append, BitVec.getLsbD_ofBool, BitVec.getLsbD_zero]
  interval_cases k <;> rfl

/-- A field of a word is known by its bits. -/
theorem extract_eq_of_bits {w : Word} {lo n : Nat} {x : BitVec n} (h : ∀ k < n, w.getLsbD (lo + k) = x.getLsbD k) :
    w.extractLsb' lo n = x := by
  apply BitVec.eq_of_getLsbD_eq
  intro k hk
  simp [hk, h k hk]

/-- Settles O25: each field by its bits. -/
theorem statusWordLayout : Obligations.StatusWordLayout := by
  intro s
  rw [readValue_status]
  have herr : (statusWord s).extractLsb' 4 4 = s.err.toBits := extract_eq_of_bits fun k hk => by
    rw [statusWord_getLsbD s (by omega)]
    interval_cases k <;> rfl
  have herrop : (statusWord s).extractLsb' 8 8 = s.errop := extract_eq_of_bits fun k hk => by
    rw [statusWord_getLsbD s (by omega)]
    interval_cases k <;> rfl
  have hreserved : (statusWord s).extractLsb' 16 16 = 0 := extract_eq_of_bits fun k hk => by
    rw [statusWord_getLsbD s (by omega)]
    interval_cases k <;> rfl
  refine ⟨statusWord_getLsbD s (by decide), ?_, statusWord_getLsbD s (by decide), statusWord_getLsbD s (by decide),
    ?_, herrop, hreserved⟩
  · rw [statusWord_getLsbD s (by decide), ← keyMode_iff]
    rfl
  · rw [herr]
    cases s.err <;> rfl

/-- Settles O26: the fields of the CTX word, with the codes of mode and phase. -/
theorem ctxWordLayout : Obligations.CtxWordLayout := by
  intro s hb
  rw [readValue_ctx hb]
  obtain ⟨hpos, hlen, hl, hd, hmode, hphase⟩ := ctx_fields_of_toWord s.ctx
  refine ⟨hpos, hlen, hl, hd, ?_, ?_⟩
  · rw [hmode]
    cases s.ctx.mode <;> rfl
  · rw [hphase]
    cases s.ctx.phase <;> rfl

/-! ### Reset (10_state.md R53) -/

/-- The three ways to a reset state all end in what `resetEngine` leaves. -/
theorem reset_eq_resetEngine {t : State}
    (h : t = State.reset ∨ (∃ s, exec .sreset s = .next t) ∨
      (∃ s rest, Served s ∧ s.inbox = .hwReset :: rest ∧ step s = .next t)) : ∃ s, t = resetEngine s := by
  rcases h with rfl | ⟨s, hs⟩ | ⟨s, rest, hserved, hi, hs⟩
  · exact ⟨State.reset, rfl⟩
  · rw [exec_pass rfl] at hs
    injection hs with ht
    exact ⟨s, ht.symm⟩
  · obtain ⟨d, hstep⟩ := step_served_cons hserved hi
    rw [hstep] at hs
    injection hs with ht
    exact ⟨_, ht.symm⟩

theorem statusWord_reset : statusWord State.reset = 0 := by decide

/-- Settles O16: the values are those of the state after a reset of the engine, from whatever state. -/
theorem resetValues : Obligations.ResetValues := by
  intro t ht
  obtain ⟨s, rfl⟩ := reset_eq_resetEngine ht
  have hzero : ∀ i, elemAt zeroBytes i = 0 := fun i => elemAt_replicate_zero i
  exact ⟨rfl, (readValue_status _).trans statusWord_reset, (readValue_ctx rfl).trans toWord_zero, rfl, rfl, rfl, rfl,
    rfl, rfl, rfl, fun i _ => ⟨hzero i, hzero i, hzero i⟩, fun j _ => elemAt_replicate_zero j,
    fun j _ => elemAt_replicate_zero j, rfl⟩

theorem engineInv_resetEngine (s : State) : EngineInv (resetEngine s) :=
  ⟨by simp [State.reset], rfl, fun _ => rfl⟩

/-- Settles O17: the state after reset is what a reset leaves. -/
theorem engineInvHoldsAtReset : Obligations.EngineInvHoldsAtReset := engineInv_resetEngine State.reset

/-! ### The invariant of the engine (10_state.md R33, R37, R43) -/

/-- The state in which the word `0x00000100` is due. -/
def opZeroDue : State := placeCommand 0x00000100 State.reset

/-- Refutes O19: the word `0x00000100` raises ILLEGAL_COMMAND with its `OP`, which is 0 (V-E2). -/
theorem not_erropIsZeroExactlyWithoutError : ¬ Obligations.ErropIsZeroExactlyWithoutError := by
  intro h
  have hinv : EngineInv opZeroDue := ⟨by simp [opZeroDue, placeCommand], rfl, fun _ => rfl⟩
  have hstep : step opZeroDue = .next (complete (setErr .illegalCommand 0 opZeroDue)) := rfl
  have herr : ErrCode.illegalCommand = .ok := (h _ _ hinv (by decide) hstep).1 rfl
  exact absurd herr (by decide)

/-- A pending word that completes keeps the invariant: its effect leaves CTX legal and clears or leaves the error
fields, and an error is not `ok`. -/
theorem engineInv_execWord {w : Word} {s t : State} (hinv : EngineInv s) (h : execWord w s = .next t) :
    EngineInv (complete t) := by
  obtain ⟨-, hlegal, herr⟩ := hinv
  refine ⟨by simp, ?_⟩
  change t.ctx.legal = true ∧ (t.err = .ok → t.errop = 0)
  rcases execWord_cases h with ⟨i, -, hpass, rfl⟩ | ⟨code, hcode, rfl⟩
  · refine ⟨(legal_iff _).2 (effectOf_legalCtx ((legal_iff _).1 hlegal) hpass), fun hok => ?_⟩
    rcases effectOf_err i s with ⟨he, hop⟩ | ⟨-, hop⟩
    · rw [hop, herr (he ▸ hok)]
    · exact hop
  · exact ⟨hlegal, fun hok => absurd hok hcode⟩

/-- A write of the host keeps the invariant: an acceptance sets `busy` and PENDING, and a new CTX is legal. -/
theorem engineInv_busWrite {s : State} (hinv : EngineInv s) (off : Offset) (v : Word) :
    EngineInv (busWrite off v s) := by
  obtain ⟨hbusy, hlegal, herr⟩ := hinv
  rcases busWrite_cases off v s with hw | ⟨-, -, -, hw⟩ | ⟨-, -, c, -, hc, hw⟩ | ⟨-, A, hw⟩ | ⟨-, A, hw⟩ | ⟨-, A, hw⟩ |
    ⟨-, A, hw⟩ <;> rw [hw]
  case inr.inl => exact ⟨by simp, hlegal, herr⟩
  case inr.inr.inl => exact ⟨hbusy, hc, herr⟩
  all_goals exact ⟨hbusy, hlegal, herr⟩

theorem engineInv_hostAction {e : HostEvent} {s t : State} (hinv : EngineInv s) (h : hostAction e s = .next t) :
    EngineInv t := by
  rcases hostAction_cases h with ⟨-, rfl⟩ | ⟨off, width, -, -, rfl⟩ | ⟨off, width, v, -, -, rfl⟩ | ⟨-, rfl⟩ | ⟨-, rfl⟩
  · exact hinv
  · exact hinv
  · exact engineInv_busWrite hinv off v
  · rw [pollStatus_eq]
    exact hinv
  · exact engineInv_resetEngine s

theorem engineInv_surroundings {s t : State} (hinv : EngineInv s) (h : surroundings s = .next t) : EngineInv t := by
  cases hi : s.inbox with
  | nil =>
    rw [surroundings_nil s hi] at h
    injection h with ht
    exact ht ▸ hinv
  | cons e rest =>
    rw [surroundings_cons s e rest hi] at h
    exact engineInv_hostAction (s := { s with inbox := rest }) hinv h

/-- Settles O18, by what a step can do: it completes a due command, or the surroundings move. -/
theorem everyStepKeepsTheEngineInv : Obligations.EveryStepKeepsTheEngineInv := by
  intro s t hinv h
  rcases step_cases h with ⟨w, u, -, -, hexec, rfl⟩ | ⟨w, -, -, hs⟩ | ⟨-, hs⟩
  · exact engineInv_execWord hinv hexec
  · exact engineInv_surroundings (s := { s with delay := s.delay - 1 }) hinv hs
  · exact engineInv_surroundings hinv hs

/-! ### The scratch T (10_state.md R44) -/

/-- `s` with another scratch T. -/
def withT (X : Vector Byte 192) (s : State) : State := { s with T := X }

/-- The second outcome is the first but for T. -/
def SameButT (a b : Outcome) : Prop :=
  (∀ t, a = .next t → ∃ Y, b = .next (withT Y t)) ∧ (∀ r, a = .fault r → b = .fault r)

theorem sameButT_next (Y : Vector Byte 192) (t : State) : SameButT (.next t) (.next (withT Y t)) := by
  refine ⟨?_, (fun _ h => nomatch h)⟩
  rintro _ ⟨⟩
  exact ⟨Y, rfl⟩

theorem sameButT_fault (r : Fault) : SameButT (.fault r) (.fault r) := ⟨(fun _ h => nomatch h), fun _ h => h⟩

theorem sameButT_exec (i : Instr) (X : Vector Byte 192) (s : State) : SameButT (exec i s) (exec i (withT X s)) := by
  obtain ⟨t, ht⟩ := exec_next i s
  obtain ⟨u, hu, Y, q, rfl, -, hq⟩ := exec_masked ht X s.ctx.phase
  obtain rfl := hq rfl
  change exec i (withT X s) = .next (withT Y t) at hu
  rw [ht, hu]
  exact sameButT_next Y t

theorem sameButT_execWord (w : Word) (X : Vector Byte 192) (s : State) :
    SameButT (execWord w s) (execWord w (withT X s)) := by
  cases h : decode w with
  | ok i =>
    rw [execWord_ok h, execWord_ok h]
    exact sameButT_exec i X s
  | error r =>
    rw [execWord_error h, execWord_error h]
    exact sameButT_next X _

theorem sameButT_completed {a b : Outcome} (h : SameButT a b) : SameButT (completed a) (completed b) := by
  obtain ⟨hnext, hfault⟩ := h
  cases a with
  | next t =>
    obtain ⟨Y, rfl⟩ := hnext t rfl
    exact sameButT_next Y (complete t)
  | fault r =>
    rw [hfault r rfl]
    exact sameButT_fault r
  | refused r => exact ⟨(fun _ h => nomatch h), fun _ h => nomatch h⟩

/-- T has no place in the register window. -/
theorem readValue_withT (off : Offset) (X : Vector Byte 192) (s : State) :
    readValue off (withT X s) = readValue off s := by
  unfold readValue
  cases placeAt off <;> rfl

theorem busRead_withT (off : Offset) (X : Vector Byte 192) (s : State) :
    busRead off (withT X s) = withT X (busRead off s) := by
  rw [busRead, readValue_withT]
  rfl

theorem issue_withT (w : Word) (X : Vector Byte 192) (s : State) : issue w (withT X s) = withT X (issue w s) := by
  change (if s.busy then withT X s
    else if s.err = .ok ∨ w = 0x00000001 ∨ w = 0x00000002 then withT X (accept w (Config.tCmd w s.ctx.toWord) s)
    else withT X s) = _
  unfold issue
  split_ifs <;> rfl

theorem writeCtx_withT (v : Word) (X : Vector Byte 192) (s : State) :
    writeCtx v (withT X s) = withT X (writeCtx v s) := by
  unfold writeCtx
  cases Ctx.ofLegalWord v <;> rfl

theorem busWrite_withT (off : Offset) (v : Word) (X : Vector Byte 192) (s : State) :
    busWrite off v (withT X s) = withT X (busWrite off v s) := by
  by_cases hb : s.busy = true
  · rw [busWrite_busy off v s hb, busWrite_busy off v (withT X s) hb]
  · have hidle : s.busy = false := by simpa using hb
    rw [busWrite_idle off v s hidle, busWrite_idle off v (withT X s) hidle]
    cases placeAt off with
    | cmd => exact issue_withT v X s
    | ctx => exact writeCtx_withT v X s
    | id | status | reserved | dbuf _ | S _ | key _ | blk _ => rfl

theorem sameButT_hostAction (e : HostEvent) (X : Vector Byte 192) (s : State) :
    SameButT (hostAction e s) (hostAction e (withT X s)) := by
  cases e with
  | idle => exact sameButT_next X s
  | read off width =>
    simp only [hostAction, busRead_withT]
    split
    · exact sameButT_next X _
    · exact sameButT_fault _
  | write off width v =>
    simp only [hostAction, busWrite_withT]
    split
    · exact sameButT_next X _
    · exact sameButT_fault _
  | wait =>
    simp only [hostAction, pollStatus_eq, busRead_withT]
    exact sameButT_next X _
  | hwReset => exact sameButT_next zeroBytes (resetEngine s)

theorem sameButT_surroundings (X : Vector Byte 192) (s : State) :
    SameButT (surroundings s) (surroundings (withT X s)) := by
  cases hi : s.inbox with
  | nil =>
    rw [surroundings_nil s hi, surroundings_nil (withT X s) hi]
    exact sameButT_next X s
  | cons e rest =>
    rw [surroundings_cons s e rest hi, surroundings_cons (withT X s) e rest hi]
    exact sameButT_hostAction e X { s with inbox := rest }

/-- Settles O53, by what is due: the pending command, or an action of the surroundings. -/
theorem scratchIsUnobservable : Obligations.ScratchIsUnobservable := by
  intro s X
  change SameButT (step s) (step (withT X s))
  by_cases hp : s.pending = none
  · rw [step_idle hp, step_idle (s := withT X s) hp]
    exact sameButT_surroundings X s
  · obtain ⟨w, hw⟩ := Option.ne_none_iff_exists'.mp hp
    by_cases hd : s.delay = 0
    · rw [step_due hw hd, step_due (s := withT X s) hw hd]
      exact sameButT_completed (sameButT_execWord w X s)
    · rw [step_waiting hw hd, step_waiting (s := withT X s) hw hd]
      exact sameButT_surroundings X { s with delay := s.delay - 1 }

end Sys2Proof.Proofs
end

section
/-! PROOFS of the statements of 20_memory.md. A defined access is one step of the surroundings: what a read or a write
then leaves is said once, busy or not, and the statements are read off it with the place of the offset. -/

namespace Sys2Proof.Proofs

open Sys2Proof Sys2Proof.Machine Sys2Proof.Claims Sys2Proof.Laws

/-! ### The value of a read -/

/-- The word of a place is made of the engine's own elements. -/
theorem placeWord_of_sameEngine {s t : State} (h : SameEngine s t) (p : Place) : placeWord t p = placeWord s p := by
  obtain ⟨hbusy, hvok, herr, herrop, hctx, hS, -, hdbuf, hkey, hblk, -⟩ := h
  cases p <;> simp only [placeWord, statusWord, hbusy, hvok, herr, herrop, hctx, hS, hdbuf, hkey, hblk]

/-- So a read returns the same in two states that differ on the host's side, but for the draw. -/
theorem readValue_of_sameEngine {s t : State} (h : SameEngine s t) (hdraws : t.draws = s.draws) (off : Offset) :
    readValue off t = readValue off s := by
  have hbusy : t.busy = s.busy := h.1
  rw [readValue, readValue, hbusy, hdraws, placeWord_of_sameEngine h]

theorem readValue_idle {s : State} (h : s.busy = false) (off : Offset) :
    readValue off s = placeWord s (placeAt off) := by simp [readValue, h]

theorem readValue_readable {off : Offset} (h : unreadableWhileBusy (placeAt off) = false) (s : State) :
    readValue off s = placeWord s (placeAt off) := by simp [readValue, h]

theorem readValue_draw {off : Offset} {s : State} (hbusy : s.busy = true)
    (h : unreadableWhileBusy (placeAt off) = true) : readValue off s = Config.busyRead s.draws := by
  simp [readValue, hbusy, h]

/-- The aligned offsets of CTX and the arrays are those of 20_memory.md R89. -/
theorem unreadableWhileBusy_of_arrayOffset {off : Offset} (haligned : off.toNat % 4 = 0) (h : ArrayOffset off) :
    unreadableWhileBusy (placeAt off) = true := by
  unfold ArrayOffset at h
  have hr := placeAt_range off
  cases hp : placeAt off <;> rw [hp] at hr <;> simp [unreadableWhileBusy] at hr ⊢ <;> omega

/-! ### A defined access as one step -/

/-- A defined read as a step: the host gets the value, and of the rest only the model's own counters can move. -/
theorem step_read {s : State} {off : Offset} {rest : List HostEvent} (h : Served s) (haligned : off.toNat % 4 = 0)
    (hi : s.inbox = .read off 32 :: rest) :
    ∃ d, step s = .next { s with
      inbox := rest, delay := d, readLog := s.readLog ++ [readValue off s],
      draws := if s.busy && unreadableWhileBusy (placeAt off) then s.draws + 1 else s.draws } := by
  obtain ⟨d, hstep⟩ := step_served_cons h hi
  have hvalue : readValue off { s with inbox := rest, delay := d } = readValue off s :=
    readValue_of_sameEngine ⟨rfl, rfl, rfl, rfl, rfl, rfl, rfl, rfl, rfl, rfl, rfl⟩ rfl off
  rw [hostAction, if_pos (accessDefined_word haligned), busRead, hvalue] at hstep
  exact ⟨d, hstep⟩

/-- A defined write as a step. -/
theorem step_write {s : State} {off : Offset} {v : Word} {rest : List HostEvent} (h : Served s)
    (haligned : off.toNat % 4 = 0) (hi : s.inbox = .write off 32 v :: rest) :
    ∃ d, step s = .next (busWrite off v { s with inbox := rest, delay := d }) := by
  obtain ⟨d, hstep⟩ := step_served_cons h hi
  rw [hostAction, if_pos (accessDefined_word haligned)] at hstep
  exact ⟨d, hstep⟩

/-- Settles O9, by the place of the offset: ID, CMD, STATUS and the reserved offsets are readable while busy, and the
others give the draw. -/
theorem readsWhileBusy : Obligations.ReadsWhileBusy := by
  intro s w off rest hbusy _ hdelay haligned hi
  obtain ⟨d, hstep⟩ := step_read (.inr hdelay) haligned hi
  refine ⟨readValue off s, d, _, hstep, ?id, ?status, ?zero, ?array⟩
  case id =>
    rintro rfl
    exact readValue_readable rfl s
  case status =>
    rintro rfl
    have hbit : (statusWord s).getLsbD 0 = s.busy := statusWord_getLsbD s (by decide)
    exact ⟨readValue_status s, by rw [readValue_status, hbit, hbusy]⟩
  case zero =>
    rintro (rfl | hres)
    · exact readValue_readable rfl s
    · have hp := placeAt_reserved hres
      rw [readValue_readable (by rw [hp]; rfl), hp]
      rfl
  case array =>
    intro harray
    have hdraw := unreadableWhileBusy_of_arrayOffset haligned harray
    exact ⟨readValue_draw hbusy hdraw, by rw [hbusy, hdraw]; rfl⟩

/-! ### The bytes of a word access (20_memory.md R82) -/

/-- Byte `j` of the eight bytes of two words. -/
theorem leByte_append (hi lo : Word) {j : Nat} (hj : j < 8) :
    leByte (hi ++ lo : Lane) j = if j < 4 then leByte lo j else leByte hi (j - 4) := by
  apply BitVec.eq_of_getLsbD_eq
  intro b hb
  have hbit := leByte_getLsbD (hi ++ lo : Lane) j b hb
  rw [hbit, BitVec.getLsbD_append]
  by_cases h : j < 4
  · rw [if_pos h, if_pos (by omega), leByte_getLsbD _ _ _ hb]
  · rw [if_neg h, if_neg (by omega), leByte_getLsbD _ _ _ hb]
    congr 1
    omega

/-- A lane is its two words, the even one the lower half. -/
theorem lane64_eq_words {n : Nat} (A : Vector Byte n) (k : Nat) :
    lane64 A k = word32 A (2 * k + 1) ++ word32 A (2 * k) := by
  apply lane_ext
  intro j hj
  rw [leByte_lane64 _ _ _ hj, leByte_append _ _ hj]
  split
  · rw [leByte_word32 _ _ _ ‹_›]
    congr 1
    omega
  · rw [leByte_word32 _ _ _ (by omega)]
    congr 1
    omega

/-- Reading inside an array after `A[k] <- v`. -/
theorem elemAt_putAt_inside {w n : Nat} (A : Vector (BitVec w) n) {k : Nat} (v : BitVec w) (hk : k < n) (i : Nat) :
    elemAt (putAt A k v) i = if i = k then v else elemAt A i := by simp [elemAt_putAt, hk]

/-- Settles O12: the offset fixes the place, and an access to a place is one to a word of its array. -/
theorem wordAccessesMoveFourBytes : Obligations.WordAccessesMoveFourBytes := by
  intro s off v k hb
  rw [readValue_idle hb, busWrite_idle off v s hb]
  refine ⟨fun hk hoff => ?dbuf, fun hk hoff => ?S, fun hk hoff => ?key, fun hk hoff => ?blk,
    fun off' hk hlow hhigh => ?lane⟩
  case dbuf =>
    rw [placeAt_dbuf hoff hk]
    exact ⟨leByte_word32 s.dbuf k, _, rfl, fun i hi => elemAt_putWord32 s.dbuf k i v hi⟩
  case S =>
    rw [placeAt_S hoff hk]
    exact ⟨leByte_word32 s.S k, _, rfl, fun i hi => elemAt_putWord32 s.S k i v hi⟩
  case key =>
    rw [placeAt_key hoff hk]
    exact ⟨rfl, _, rfl, fun i _ => elemAt_putAt_inside s.key v hk i⟩
  case blk =>
    rw [placeAt_blk hoff hk]
    exact ⟨rfl, _, rfl, fun i _ => elemAt_putAt_inside s.blk v hk i⟩
  case lane =>
    have hplace : placeAt off = .S (2 * k) := placeAt_S (by omega) (by omega)
    have hplace' : placeAt off' = .S (2 * k + 1) := placeAt_S (by omega) (by omega)
    rw [readValue_idle hb, hplace, hplace']
    exact lane64_eq_words s.S k

/-! ### Ignored writes, repeated reads and access errors -/

/-- Settles O8: the step is the write, and a busy engine drops it. -/
theorem writesWhileBusyAreIgnored : Obligations.WritesWhileBusyAreIgnored := by
  intro s w v off rest hbusy _ hdelay haligned hi
  obtain ⟨d, hstep⟩ := step_write (.inr hdelay) haligned hi
  have hignored := busWrite_busy off v { s with inbox := rest, delay := d } hbusy
  exact ⟨d, by rw [hstep, hignored]⟩

theorem sameEngine_busRead (off : Offset) (s : State) : SameEngine s (busRead off s) :=
  ⟨rfl, rfl, rfl, rfl, rfl, rfl, rfl, rfl, rfl, rfl, rfl⟩

/-- Settles O11: the engine is the same after a read, and while idle a read gives the word of its place. -/
theorem readsHaveNoSideEffect : Obligations.ReadsHaveNoSideEffect := by
  intro s off
  have hsame := sameEngine_busRead off s
  refine ⟨hsame, fun hb => ?_⟩
  have hb' : (busRead off s).busy = false := hb
  rw [readValue_idle hb', readValue_idle hb, placeWord_of_sameEngine hsame]

theorem accessDefined_iff (off : Offset) (width : Nat) :
    accessDefined off width = true ↔ width = 32 ∧ off.toNat % 4 = 0 := by simp [accessDefined]

/-- Settles O14: the action meets the width and the alignment before anything else. -/
theorem accessErrorIsAFaultOfTheHost : Obligations.AccessErrorIsAFaultOfTheHost := by
  intro s off width rest hserved hbad
  have hundef : ¬ accessDefined off width = true := by
    rw [accessDefined_iff]
    omega
  refine ⟨fun hi => ?_, fun v hi => ?_⟩
  · obtain ⟨d, hstep⟩ := step_served_cons hserved hi
    rw [hstep, hostAction, if_neg hundef]
  · obtain ⟨d, hstep⟩ := step_served_cons hserved hi
    rw [hstep, hostAction, if_neg hundef]

end Sys2Proof.Proofs
end

section
/-! PROOFS of the statements of 30_encoding.md. A word is its `OP`, the reserved bits of its format and the fields: the
decoder is said once in these terms, the encoder is put next to it, and the opcode table is the same reading written as
masks. The last part runs SAVE and RESTORE, one step for each access. -/

namespace Sys2Proof.Proofs

open Sys2Proof Sys2Proof.Machine Sys2Proof.Claims Sys2Proof.Laws

/-! ### The five formats, and the decoder said in them (30_encoding.md R112, R118) -/

/-- The formats of a command word (30_encoding.md R112). -/
inductive Format where
  /-- no field -/
  | A
  /-- `N` -/
  | N
  /-- `L` -/
  | H
  /-- `L`, `D`, `A` and `K` -/
  | S
  /-- `A` and `K` -/
  | R

/-- The format of a command (30_encoding.md R118). -/
def formatOf : Instr → Format
  | .hashInit _ => .H
  | .hashStep _ | .prgAbsorb _ | .prgSqueeze _ | .prgEncr _ | .prgDecr _ => .N
  | .prgStart _ _ _ _ => .S
  | .prgRestart _ _ => .R
  | .nop | .clrerr | .sreset | .bashf | .hashFinal | .hashVerify | .prgAbsorbStart | .prgSqueezeStart | .prgEncrStart
  | .prgDecrStart | .prgRatchet | .beltEnc | .beltDec => .A

/-- The reserved bits of the format are 0 in the word (30_encoding.md R120). -/
def Format.reservedZero (w : Word) : Format → Bool
  | .A => w.extractLsb' 8 24 == 0
  | .N => w.extractLsb' 16 16 == 0
  | .H => w.extractLsb' 17 15 == 0
  | .S => w.extractLsb' 31 1 == 0
  | .R => w.extractLsb' 31 1 == 0 && w.extractLsb' 8 11 == 0

/-- The same bits as a mask (`reservedZero_iff`). -/
def Format.reserved : Format → Word
  | .A => 0xFFFFFF00
  | .N => 0xFFFF0000
  | .H => 0xFFFE0000
  | .S => 0x80000000
  | .R => 0x8007FF00

/-- The bits of a format's fields as a mask (`fieldBits_withFields`). -/
def Format.fields : Format → Word
  | .A => 0
  | .N => fieldAt 8 (2 ^ 8 - 1)
  | .H => fieldAt 8 (2 ^ 9 - 1)
  | .S => fieldAt 8 (2 ^ 9 - 1) ||| fieldAt 17 (2 ^ 2 - 1) ||| fieldAt 19 (2 ^ 6 - 1) ||| fieldAt 25 (2 ^ 6 - 1)
  | .R => fieldAt 19 (2 ^ 6 - 1) ||| fieldAt 25 (2 ^ 6 - 1)

/-- The command of `i`'s mnemonic whose fields are those of the word. -/
def withFields (w : Word) (i : Instr) : Instr :=
  match i with
  | .hashInit _ => .hashInit (fieldL w)
  | .hashStep _ => .hashStep (fieldN w)
  | .prgStart _ _ _ _ => .prgStart (fieldL w) (fieldD w) (fieldA w) (fieldK w)
  | .prgRestart _ _ => .prgRestart (fieldA w) (fieldK w)
  | .prgAbsorb _ => .prgAbsorb (fieldN w)
  | .prgSqueeze _ => .prgSqueeze (fieldN w)
  | .prgEncr _ => .prgEncr (fieldN w)
  | .prgDecr _ => .prgDecr (fieldN w)
  | .nop | .clrerr | .sreset | .bashf | .hashFinal | .hashVerify | .prgAbsorbStart | .prgSqueezeStart | .prgEncrStart
  | .prgDecrStart | .prgRatchet | .beltEnc | .beltDec => i

/-- Formats and fields are the model's: a word with the `OP` of a command is read by that command's format. -/
theorem decode_of_opcode {w : Word} {i : Instr} (h : opByte w = opcode i) :
    decode w = whenReservedZero w ((formatOf i).reservedZero w) (withFields w i) := by
  unfold decode
  rw [h]
  cases i <;> rfl

/-- A word decodes to the command of its `OP` with the fields it holds, when the reserved bits are 0. -/
theorem decode_ok_iff {w : Word} {i : Instr} :
    decode w = .ok i ↔ opByte w = opcode i ∧ (formatOf i).reservedZero w = true ∧ withFields w i = i := by
  constructor
  · intro h
    have hop := (opcode_of_decode h).symm
    rw [decode_of_opcode hop, whenReservedZero_ok] at h
    exact ⟨hop, h⟩
  · rintro ⟨hop, h⟩
    rw [decode_of_opcode hop, whenReservedZero_ok]
    exact h

/-! ### Reading a field back from a word put together of fields (30_encoding.md R112, R123) -/

@[simp] theorem extract_opcode (op : Byte) {lo n : Nat} (h : 8 ≤ lo) : (op.setWidth 32).extractLsb' lo n = 0#n :=
  extract_eq_of_bits fun k _ => by
    rw [BitVec.getLsbD_setWidth, BitVec.getLsbD_of_ge op (lo + k) (by omega)]
    simp

theorem fieldAt_getLsbD_of_lt {lo k : Nat} (v : Nat) (h : k < lo) : (fieldAt lo v).getLsbD k = false := by
  rw [fieldAt, BitVec.getLsbD_shiftLeft, decide_eq_true h]
  simp

@[simp] theorem extract_fieldAt_self {lo n v : Nat} (h : lo + n ≤ 32) :
    (fieldAt lo v).extractLsb' lo n = BitVec.ofNat n v :=
  extract_eq_of_bits fun k hk => by
    rw [fieldAt_getLsbD _ _ _ (by omega), BitVec.getLsbD_ofNat]
    simp [hk]

@[simp] theorem extract_fieldAt_below {lo lo' n : Nat} (v : Nat) (h : lo' + n ≤ lo) :
    (fieldAt lo v).extractLsb' lo' n = 0#n :=
  extract_eq_of_bits fun k hk => by
    rw [fieldAt_getLsbD_of_lt v (by omega)]
    simp

theorem extract_fieldAt_above {lo m v lo' n : Nat} (hv : v < 2 ^ m) (h : lo + m ≤ lo') (h' : lo' + n ≤ 32) :
    (fieldAt lo v).extractLsb' lo' n = 0#n :=
  extract_eq_of_bits fun k hk => by
    rw [fieldAt_getLsbD _ _ _ (by omega), testBit_of_lt hv (by omega)]
    simp

theorem opByte_setWidth (op : Byte) : opByte (op.setWidth 32) = op :=
  extract_eq_of_bits fun k hk => by
    rw [Nat.zero_add, BitVec.getLsbD_setWidth, decide_eq_true (by omega), Bool.true_and]

theorem opByte_fieldBits (i : Instr) : opByte (fieldBits i) = 0#8 := by
  cases i <;> simp [opByte, fieldBits, BitVec.extractLsb'_or]

theorem opByte_encode (i : Instr) : opByte (encode i) = opcode i := by
  have hop := opByte_setWidth (opcode i)
  have hfields := opByte_fieldBits i
  unfold opByte at hop hfields
  rw [opByte, encode, BitVec.extractLsb'_or, hop, hfields, BitVec.or_zero]

/-- From the word of a command whose fields fit, its format reads no reserved bit and the same fields. -/
theorem read_encode {i : Instr} (h : i.WellFormed) :
    (formatOf i).reservedZero (encode i) = true ∧ withFields (encode i) i = i := by
  cases i with
  | hashInit l =>
    have hl : l < 512 := by simpa [Instr.WellFormed, Instr.wellFormed] using h
    simp [formatOf, Format.reservedZero, withFields, encode, fieldBits, fieldL, BitVec.extractLsb'_or,
      extract_fieldAt_above (m := 9) hl, hl]
  | hashStep n | prgAbsorb n | prgSqueeze n | prgEncr n | prgDecr n =>
    have hn : n < 256 := by simpa [Instr.WellFormed, Instr.wellFormed] using h
    simp [formatOf, Format.reservedZero, withFields, encode, fieldBits, fieldN, BitVec.extractLsb'_or,
      extract_fieldAt_above (m := 8) hn, hn]
  | prgStart l d ann key =>
    obtain ⟨⟨⟨hl, hd⟩, hann⟩, hkey⟩ : ((l < 512 ∧ d < 4) ∧ ann < 64) ∧ key < 64 := by
      simpa [Instr.WellFormed, Instr.wellFormed] using h
    simp [formatOf, Format.reservedZero, withFields, encode, fieldBits, fieldL, fieldD, fieldA, fieldK,
      BitVec.extractLsb'_or, extract_fieldAt_above (m := 9) hl, extract_fieldAt_above (m := 2) hd,
      extract_fieldAt_above (m := 6) hann, extract_fieldAt_above (m := 6) hkey, hl, hd, hann, hkey]
  | prgRestart ann key =>
    obtain ⟨hann, hkey⟩ : ann < 64 ∧ key < 64 := by simpa [Instr.WellFormed, Instr.wellFormed] using h
    simp [formatOf, Format.reservedZero, withFields, encode, fieldBits, fieldA, fieldK, BitVec.extractLsb'_or,
      extract_fieldAt_above (m := 6) hann, extract_fieldAt_above (m := 6) hkey, hann, hkey]
  | _ => exact ⟨rfl, rfl⟩

/-- Settles O1: the word has the command's `OP`, and its format reads the fields back from their places. -/
theorem decodeEncodeRoundTrip : Obligations.DecodeEncodeRoundTrip := fun i h =>
  decode_ok_iff.2 ⟨opByte_encode i, read_encode h⟩

/-! ### Fields as masked bits -/

/-- A field read at `lo` and put back there is that part of the word. -/
theorem fieldAt_extract (w : Word) (lo n : Nat) :
    fieldAt lo (w.extractLsb' lo n).toNat = w &&& fieldAt lo (2 ^ n - 1) := by
  apply BitVec.eq_of_getLsbD_eq
  intro k hk
  rw [BitVec.getLsbD_and, fieldAt_getLsbD _ _ _ hk, fieldAt_getLsbD _ _ _ hk, BitVec.testBit_toNat,
    BitVec.getLsbD_extractLsb', Nat.testBit_two_pow_sub_one]
  by_cases hlo : lo ≤ k
  · rw [Nat.add_sub_cancel' hlo, decide_eq_true hlo, Bool.true_and, Bool.true_and, Bool.and_comm]
  · simp [hlo]

theorem fieldAt_eq_zero_iff {lo n v : Nat} (hv : v < 2 ^ n) (h : lo + n ≤ 32) : fieldAt lo v = 0#32 ↔ v = 0 := by
  refine ⟨fun hzero => ?_, fun hzero => by rw [hzero]; simp [fieldAt]⟩
  have hself := extract_fieldAt_self (v := v) h
  rw [hzero, BitVec.extractLsb'_zero] at hself
  simpa [Nat.mod_eq_of_lt hv] using (congrArg BitVec.toNat hself).symm

/-- The bits of a field are 0 exactly when the word has none of them. -/
theorem extract_eq_zero_iff (w : Word) {lo n : Nat} (h : lo + n ≤ 32) :
    w.extractLsb' lo n = 0#n ↔ w &&& fieldAt lo (2 ^ n - 1) = 0#32 := by
  rw [← fieldAt_extract, fieldAt_eq_zero_iff (w.extractLsb' lo n).isLt h, ← BitVec.toNat_inj]
  rfl

theorem reservedZero_iff (w : Word) (f : Format) : f.reservedZero w = true ↔ w &&& f.reserved = 0#32 := by
  cases f with
  | A => exact beq_iff_eq.trans (extract_eq_zero_iff w (lo := 8) (n := 24) (by decide))
  | N => exact beq_iff_eq.trans (extract_eq_zero_iff w (lo := 16) (n := 16) (by decide))
  | H => exact beq_iff_eq.trans (extract_eq_zero_iff w (lo := 17) (n := 15) (by decide))
  | S => exact beq_iff_eq.trans (extract_eq_zero_iff w (lo := 31) (n := 1) (by decide))
  | R =>
    have hsplit : Format.R.reserved = fieldAt 31 (2 ^ 1 - 1) ||| fieldAt 8 (2 ^ 11 - 1) := by decide
    rw [hsplit, BitVec.and_or_distrib_left, BitVec.or_eq_zero_iff, ← extract_eq_zero_iff w (by decide),
      ← extract_eq_zero_iff w (by decide)]
    simp [Format.reservedZero]

/-- The `OP` byte as bits of the word. -/
theorem setWidth_opByte (w : Word) : (opByte w).setWidth 32 = w &&& 0xFF := by
  apply BitVec.eq_of_getLsbD_eq
  intro k hk
  have hmask : (0xFF : Word).getLsbD k = decide (k < 8) := by
    interval_cases k <;> rfl
  rw [BitVec.getLsbD_and, hmask, opByte, BitVec.getLsbD_setWidth, BitVec.getLsbD_extractLsb', Nat.zero_add,
    decide_eq_true hk, Bool.true_and, Bool.and_comm]

/-- The fields a command takes from a word are put back where they were. -/
theorem fieldBits_withFields (w : Word) (i : Instr) : fieldBits (withFields w i) = w &&& (formatOf i).fields := by
  cases i with
  | hashInit l => exact fieldAt_extract w 8 9
  | hashStep n | prgAbsorb n | prgSqueeze n | prgEncr n | prgDecr n => exact fieldAt_extract w 8 8
  | prgStart l d ann key | prgRestart ann key =>
    simp only [withFields, fieldBits, fieldL, fieldD, fieldA, fieldK, fieldAt_extract, ← BitVec.and_or_distrib_left]
    rfl
  | _ => exact BitVec.and_zero.symm

/-- `OP`, the reserved bits and the fields are the whole word (30_encoding.md R112). -/
theorem Format.masks_cover (f : Format) : 0xFF ||| f.reserved ||| f.fields = BitVec.allOnes 32 := by
  cases f <;> decide

/-! ### A word that decodes -/

theorem opcode_withFields (w : Word) (i : Instr) : opcode (withFields w i) = opcode i := by cases i <;> rfl

theorem mnemonic_withFields (w : Word) (i : Instr) : mnemonic (withFields w i) = mnemonic i := by cases i <;> rfl

theorem wellFormed_withFields (w : Word) (i : Instr) : (withFields w i).WellFormed := by
  cases i <;> simp [withFields, Instr.WellFormed, Instr.wellFormed, fieldN, fieldL, fieldD, fieldA, fieldK, Nat.mod_lt]

/-- `OP`, the reserved bits, which are 0, and the fields are the whole word. -/
theorem encode_withFields {w : Word} {i : Instr} (hop : opByte w = opcode i)
    (hzero : (formatOf i).reservedZero w = true) : encode (withFields w i) = w := by
  have hop' : w &&& 0xFF = (opcode i).setWidth 32 := by rw [← hop, setWidth_opByte]
  calc encode (withFields w i)
      = (w &&& 0xFF) ||| (w &&& (formatOf i).fields) := by
        rw [encode, opcode_withFields, fieldBits_withFields, hop']
    _ = w &&& (0xFF ||| (formatOf i).reserved ||| (formatOf i).fields) := by
        rw [BitVec.and_or_distrib_left, BitVec.and_or_distrib_left, (reservedZero_iff w _).1 hzero, BitVec.or_zero]
    _ = w := by rw [Format.masks_cover, BitVec.and_allOnes]

/-- Settles O2: the command holds the word's own fields, which with `OP` and the reserved zeros are the word. -/
theorem decodedCommandReencodesToItsWord : Obligations.DecodedCommandReencodesToItsWord := by
  intro w i h
  obtain ⟨hop, hzero, hfields⟩ := decode_ok_iff.1 h
  rw [← hfields]
  exact ⟨wellFormed_withFields w i, encode_withFields hop hzero⟩

/-! ### The opcode table -/

/-- A command of each mnemonic, in the order of the table. -/
def commands : List Instr :=
  [.nop, .clrerr, .sreset, .bashf, .hashInit 0, .hashStep 0, .hashFinal, .hashVerify, .prgStart 0 0 0 0,
   .prgRestart 0 0, .prgAbsorbStart, .prgAbsorb 0, .prgSqueezeStart, .prgSqueeze 0, .prgEncrStart, .prgEncr 0,
   .prgDecrStart, .prgDecr 0, .prgRatchet, .beltEnc, .beltDec]

/-- The row of a command: its mask is `OP` and the reserved bits of its format, its pattern `OP` alone. -/
def rowOf (i : Instr) : OpcodeRow :=
  { mnemonic := mnemonic i, pattern := (opcode i).setWidth 32, mask := 0xFF ||| (formatOf i).reserved }

/-- The masks and patterns of the table are those of the formats. -/
theorem opcodeTable_eq_map : opcodeTable = commands.map rowOf := by decide

theorem mem_opcodeTable_iff {r : OpcodeRow} : r ∈ opcodeTable ↔ ∃ i, rowOf i = r := by
  rw [opcodeTable_eq_map, List.mem_map]
  refine ⟨fun ⟨i, _, h⟩ => ⟨i, h⟩, fun ⟨i, h⟩ => ⟨withFields 0 i, ?_, ?_⟩⟩
  · cases i <;> simp [commands, withFields, fieldN, fieldL, fieldD, fieldA, fieldK]
  · rw [← h]
    cases i <;> rfl

theorem pattern_injective :
    ∀ r ∈ opcodeTable, ∀ r' ∈ opcodeTable, r.pattern = r'.pattern → r = r' := by decide

/-- The bits a format fixes are `OP` alone exactly when that is the word's `OP` and no reserved bit is set. -/
theorem and_fixed_eq_iff (w : Word) (op : Byte) (f : Format) :
    w &&& (0xFF ||| f.reserved) = op.setWidth 32 ↔ opByte w = op ∧ w &&& f.reserved = 0#32 := by
  constructor
  · intro h
    have hop : op.setWidth 32 &&& 0xFF = op.setWidth 32 := by rw [← setWidth_opByte, opByte_setWidth]
    have hlow : (0xFF ||| f.reserved) &&& 0xFF = 0xFF := by cases f <;> decide
    have hhigh : (0xFF ||| f.reserved) &&& f.reserved = f.reserved := by cases f <;> decide
    have hapart : 0xFF &&& f.reserved = 0#32 := by cases f <;> decide
    constructor
    · rw [← opByte_setWidth (opByte w), setWidth_opByte, ← hlow, ← BitVec.and_assoc, h, hop, opByte_setWidth]
    · rw [← hhigh, ← BitVec.and_assoc, h, ← hop, BitVec.and_assoc, hapart, BitVec.and_zero]
  · rintro ⟨rfl, hzero⟩
    rw [BitVec.and_or_distrib_left, hzero, BitVec.or_zero, setWidth_opByte]

/-- A word hits the row of a command when it has the command's `OP` and no reserved bit of its format. -/
theorem rowOf_hit_iff (i : Instr) (w : Word) :
    (rowOf i).hit w = true ↔ opByte w = opcode i ∧ (formatOf i).reservedZero w = true := by
  rw [OpcodeRow.hit, beq_iff_eq, reservedZero_iff]
  exact and_fixed_eq_iff w (opcode i) (formatOf i)

/-- Settles O3: a row asks of a word what the decoder asks, `OP` and the reserved bits of its format. -/
theorem decodeAgreesWithTheOpcodeTable : Obligations.DecodeAgreesWithTheOpcodeTable := by
  intro w
  refine ⟨fun i h => ?decoded, fun r hr hit => ?hit, fun r hr r' hr' hit hit' => ?unique⟩
  case decoded =>
    obtain ⟨hop, hzero, -⟩ := decode_ok_iff.1 h
    exact ⟨rowOf i, mem_opcodeTable_iff.2 ⟨i, rfl⟩, (rowOf_hit_iff i w).2 ⟨hop, hzero⟩, rfl⟩
  case hit =>
    obtain ⟨i, rfl⟩ := mem_opcodeTable_iff.1 hr
    obtain ⟨hop, hzero⟩ := (rowOf_hit_iff i w).1 hit
    exact ⟨withFields w i, by rw [decode_of_opcode hop, whenReservedZero_ok]; exact ⟨hzero, rfl⟩,
      (mnemonic_withFields w i).symm⟩
  case unique =>
    obtain ⟨i, rfl⟩ := mem_opcodeTable_iff.1 hr
    obtain ⟨j, rfl⟩ := mem_opcodeTable_iff.1 hr'
    have hop : opcode i = opcode j := ((rowOf_hit_iff i w).1 hit).1.symm.trans ((rowOf_hit_iff j w).1 hit').1
    exact pattern_injective _ hr _ hr' (congrArg (BitVec.setWidth 32) hop)

/-! ### Words that do not decode -/

/-- Every `OP` is reserved or defined (30_encoding.md R118, R119). -/
theorem reservedOp_or_opcode : ∀ op : Byte, ReservedOp op.toNat ∨ ∃ i ∈ commands, opcode i = op := by decide

theorem not_reservedOp_opcode (i : Instr) : ¬ ReservedOp (opcode i).toNat := by cases i <;> simp [opcode]

/-- With a defined `OP`, a reserved bit is set exactly when the format's bits are not all 0. -/
theorem reservedBitSet_iff {w : Word} {i : Instr} (h : opByte w = opcode i) :
    ReservedBitSet w ↔ (formatOf i).reservedZero w = false := by
  have hop : (w.extractLsb' 0 8).toNat = (opcode i).toNat := congrArg BitVec.toNat h
  unfold ReservedBitSet
  rw [hop]
  cases i <;> simp [opcode, formatOf, Format.reservedZero, imp_iff_not_or]

/-- The words of 30_encoding.md R119 and R120 are those the decoder rejects. -/
theorem reserved_iff_decode_error (w : Word) :
    ReservedOp (w.extractLsb' 0 8).toNat ∨ ReservedBitSet w ↔ ∃ r, decode w = .error r := by
  rcases reservedOp_or_opcode (opByte w) with hres | ⟨i, -, hop⟩
  · refine iff_of_true (.inl hres) ?_
    cases hdec : decode w with
    | error r => exact ⟨r, rfl⟩
    | ok i => exact absurd (opcode_of_decode hdec ▸ hres) (not_reservedOp_opcode i)
  · have hdefined : ¬ ReservedOp (opByte w).toNat := hop ▸ not_reservedOp_opcode i
    refine (or_iff_right hdefined).trans ?_
    rw [reservedBitSet_iff hop.symm, decode_of_opcode hop.symm]
    cases (formatOf i).reservedZero w <;> simp [whenReservedZero]

/-- Settles O5: the step of a rejected word records the error and completes it, and by O3 the words that hit a row are
those that decode. -/
theorem illegalWordRaisesIllegalCommand : Obligations.IllegalWordRaisesIllegalCommand := by
  refine ⟨fun s w hpending hdelay hres => ?_, fun w => ?_⟩
  · obtain ⟨r, hdec⟩ := (reserved_iff_decode_error w).1 hres
    rw [step_due hpending hdelay, execWord_error hdec]
    rfl
  · obtain ⟨hhit, hdecodes, -⟩ := decodeAgreesWithTheOpcodeTable w
    rw [reserved_iff_decode_error]
    constructor
    · rintro ⟨e, he⟩ r hr
      by_contra hit
      obtain ⟨i, hok, -⟩ := hdecodes r hr (by simpa using hit)
      simp [he] at hok
    · intro hmiss
      cases hdec : decode w with
      | error e => exact ⟨e, rfl⟩
      | ok i =>
        obtain ⟨r, hr, hit, -⟩ := hhit i hdec
        exact absurd hit (by simp [hmiss r hr])

/-- Settles O4: the decoder evaluates each word to its answer. -/
theorem exampleWordsDecode : Obligations.ExampleWordsDecode := by
  refine ⟨?_, ?_, ?_, ?_, ?_, ?_, ?_, ?_, ?_⟩ <;> rfl

/-! ### Runs over the accesses of a host program -/

theorem run_succ {s t : State} (h : step s = .next t) (k : Nat) : core.run (k + 1) s = core.run k t := by
  have hcore : core.step s = .next t := h
  simp only [Host.Core.run, hcore]

/-- With nothing pending, an action of the host is the step, and the latency counter stays. -/
theorem run_action {s t : State} (hp : s.pending = none) {e : HostEvent} {rest : List HostEvent}
    (h : hostAction e { s with inbox := rest } = .next t) (m : Nat) :
    core.run (m + 1) { s with inbox := e :: rest } = core.run m t :=
  run_succ ((step_idle (s := { s with inbox := e :: rest }) hp).trans h) m

/-- A read of the host's on an idle engine. -/
theorem run_read {s : State} (hp : s.pending = none) (hb : s.busy = false) {off : Offset}
    (haligned : off.toNat % 4 = 0) (rest : List HostEvent) (m : Nat) :
    core.run (m + 1) { s with inbox := .read off 32 :: rest } =
      core.run m { s with inbox := rest, readLog := s.readLog ++ [placeWord s (placeAt off)] } := by
  refine run_action hp ?_ m
  have hvalue : readValue off { s with inbox := rest } = placeWord s (placeAt off) :=
    (readValue_idle (s := { s with inbox := rest }) hb off).trans
      (placeWord_of_sameEngine ⟨rfl, rfl, rfl, rfl, rfl, rfl, rfl, rfl, rfl, rfl, rfl⟩ _)
  rw [hostAction, if_pos (accessDefined_word haligned), busRead, hvalue]
  simp [hb]

/-- A write of the host's on an idle engine. -/
theorem run_write {s : State} (hp : s.pending = none) (hb : s.busy = false) {off : Offset}
    (haligned : off.toNat % 4 = 0) (v : Word) (rest : List HostEvent) (m : Nat) :
    core.run (m + 1) { s with inbox := .write off 32 v :: rest } =
      core.run m (writePlace v { s with inbox := rest } (placeAt off)) := by
  refine run_action hp ?_ m
  rw [hostAction, if_pos (accessDefined_word haligned)]
  exact congrArg _ (busWrite_idle off v _ hb)

/-- The offset of word `k` of S. -/
theorem offS_toNat {k : Nat} (hk : k < 48) : (BitVec.ofNat 12 (offS + 4 * k)).toNat = 0x200 + 4 * k := by
  rw [BitVec.toNat_ofNat, Nat.mod_eq_of_lt (by unfold offS; omega), offS]

/-- Words of S, read one after the other. -/
theorem run_readS {ks : List Nat} (hks : ∀ k ∈ ks, k < 48) {s : State} (hp : s.pending = none) (hb : s.busy = false)
    (rest : List HostEvent) (m : Nat) :
    core.run (m + ks.length) { s with inbox := (ks.map fun k => hostRd (offS + 4 * k)) ++ rest } =
      core.run m { s with inbox := rest, readLog := s.readLog ++ ks.map (word32 s.S) } := by
  induction ks generalizing s with
  | nil => simp
  | cons k ks ih =>
    obtain ⟨hk, hks⟩ := List.forall_mem_cons.1 hks
    have hoff := offS_toNat hk
    refine (run_read hp hb (by omega) _ (m + ks.length)).trans ?_
    rw [placeAt_S hoff hk]
    refine (ih hks (s := { s with readLog := s.readLog ++ [word32 s.S k] }) hp hb).trans ?_
    simp

/-- Words written to S, one after the other. -/
theorem run_writeS {ks : List Nat} (hks : ∀ k ∈ ks, k < 48) (f : Nat → Word) {s : State} (hp : s.pending = none)
    (hb : s.busy = false) (rest : List HostEvent) (m : Nat) :
    core.run (m + ks.length) { s with inbox := (ks.map fun k => hostWr (offS + 4 * k) (f k)) ++ rest } =
      core.run m { s with inbox := rest, S := ks.foldl (fun A k => putWord32 A k (f k)) s.S } := by
  induction ks generalizing s with
  | nil => rfl
  | cons k ks ih =>
    obtain ⟨hk, hks⟩ := List.forall_mem_cons.1 hks
    have hoff := offS_toNat hk
    refine (run_write hp hb (by omega) _ _ (m + ks.length)).trans ?_
    rw [placeAt_S hoff hk]
    exact ih hks (s := { s with S := putWord32 s.S k (f k) }) hp hb

/-! ### The image of SAVE (30_encoding.md R136) -/

/-- The first `m` words of `B` written over `A` are the first `4m` bytes of `B`. -/
theorem elemAt_foldl_putWord32 (A B : Vector Byte 192) (m : Nat) {i : Nat} (hi : i < 192) :
    elemAt ((List.range m).foldl (fun A k => putWord32 A k (word32 B k)) A) i =
      if i < 4 * m then elemAt B i else elemAt A i := by
  induction m with
  | zero => simp
  | succ m ih =>
    rw [List.range_succ, List.foldl_append, List.foldl_cons, List.foldl_nil, elemAt_putWord32 _ _ _ _ hi, ih]
    by_cases hlast : 4 * m ≤ i ∧ i < 4 * m + 4
    · rw [if_pos hlast, if_pos (by omega), leByte_word32 _ _ _ (by omega), Nat.add_sub_cancel' hlast.1]
    · rw [if_neg hlast]
      congr 1
      simp only [eq_iff_iff]
      omega

/-- All words of an array written over another give that array. -/
theorem foldl_putWord32 (A B : Vector Byte 192) :
    (List.range 48).foldl (fun A k => putWord32 A k (word32 B k)) A = B :=
  array_ext fun i hi => by rw [elemAt_foldl_putWord32 A B 48 hi, if_pos hi]

theorem length_flatMap_wordBytes (ws : List Word) : (ws.flatMap wordBytes).length = 4 * ws.length := by
  induction ws with
  | nil => rfl
  | cons v ws ih =>
    rw [List.flatMap_cons, List.length_append, ih, List.length_cons, Nat.mul_succ, Nat.add_comm]
    rfl

/-- Byte `j` of word `k` of a string of words. -/
theorem getD_flatMap_wordBytes (ws : List Word) (k : Nat) {j : Nat} (hj : j < 4) :
    (ws.flatMap wordBytes).getD (4 * k + j) 0 = leByte (ws.getD k 0) j := by
  induction ws generalizing k with
  | nil => simp [leByte]
  | cons v ws ih =>
    cases k with
    | zero => interval_cases j <;> rfl
    | succ k =>
      have hnext : ((v :: ws).flatMap wordBytes).getD (4 * k + j + 4) 0 =
          (ws.flatMap wordBytes).getD (4 * k + j) 0 := rfl
      rw [Nat.mul_succ, Nat.add_right_comm, hnext, ih]
      rfl

/-- Byte `j` of word `k` of a byte string. -/
theorem leByte_stringWord (X : List Byte) (k : Nat) {j : Nat} (hj : j < 4) :
    leByte (stringWord X k) j = X.getD (4 * k + j) 0 :=
  leByte_word32 (⟨X.toArray, rfl⟩ : Vector Byte X.length) k j hj

theorem stringWord_flatMap (ws : List Word) (k : Nat) : stringWord (ws.flatMap wordBytes) k = ws.getD k 0 :=
  word_ext fun j hj => by rw [leByte_stringWord _ _ hj, getD_flatMap_wordBytes _ _ hj]

theorem stringWord_take (X : List Byte) {k n : Nat} (h : 4 * k + 4 ≤ n) : stringWord (X.take n) k = stringWord X k :=
  word_ext fun j hj => by
    rw [leByte_stringWord _ _ hj, leByte_stringWord _ _ hj, List.getD_eq_getElem?_getD, List.getD_eq_getElem?_getD,
      List.getElem?_take_of_lt (by omega)]

/-- RESTORE of an image of 49 words writes the first 48 to S and the last to CTX. -/
theorem hostRestore_readResult {ws : List Word} (h : ws.length = 49) :
    hostRestore (readResult ws 196) =
      ((List.range 48).map fun k => hostWr (offS + 4 * k) (ws.getD k 0)) ++ [hostWr offCtx (ws.getD 48 0)] := by
  have hlen := length_flatMap_wordBytes ws
  have himage : readResult ws 196 = ws.flatMap wordBytes := List.take_of_length_le (by omega)
  have hcount : ((ws.flatMap wordBytes).take 192).length = 192 := by rw [List.length_take]; omega
  rw [hostRestore, himage, hostLoad, hcount, stringWord_flatMap]
  refine congrArg (· ++ _) (List.map_congr_left fun k hk => ?_)
  have hk' := List.mem_range.1 hk
  rw [stringWord_take _ (by omega), stringWord_flatMap]

/-- The words SAVE reads. -/
def savedWords (s : State) : List Word := (List.range 48).map (word32 s.S) ++ [s.ctx.toWord]

theorem savedWords_getD_S (s : State) {k : Nat} (hk : k < 48) : (savedWords s).getD k 0 = word32 s.S k := by
  simp [savedWords, List.getElem?_append, hk]

theorem savedWords_getD_ctx (s : State) : (savedWords s).getD 48 0 = s.ctx.toWord := by
  simp [savedWords]

theorem hostRestore_savedWords (s : State) :
    hostRestore (readResult (savedWords s) 196) =
      ((List.range 48).map fun k => hostWr (offS + 4 * k) (word32 s.S k)) ++ [hostWr offCtx s.ctx.toWord] := by
  rw [hostRestore_readResult (by simp [savedWords]), savedWords_getD_ctx]
  exact congrArg (· ++ _) (List.map_congr_left fun k hk => by rw [savedWords_getD_S s (List.mem_range.1 hk)])

theorem run_save {s : State} (hp : s.pending = none) (hb : s.busy = false) :
    core.run 49 { s with inbox := hostSave, readLog := [] } = .next { s with inbox := [], readLog := savedWords s } :=
  (run_readS (s := { s with readLog := [] }) (fun _ => List.mem_range.1) hp hb [hostRd offCtx] 1).trans
    (run_read (s := { s with readLog := (List.range 48).map (word32 s.S) }) (off := 0x00C) hp hb rfl [] 0)

theorem run_restore {s : State} (hctx : LegalCtx s.ctx) {u : State} (hp : u.pending = none) (hb : u.busy = false) :
    core.run 49 { u with inbox := hostRestore (readResult (savedWords s) 196) } =
      .next { u with S := s.S, ctx := s.ctx, inbox := [] } := by
  have htaken : Ctx.ofLegalWord s.ctx.toWord = some s.ctx := ofLegalWord_eq_some.2 ⟨rfl, (legal_iff _).2 hctx⟩
  rw [hostRestore_savedWords]
  refine (run_writeS (fun _ => List.mem_range.1) (word32 s.S) hp hb _ 1).trans ?_
  rw [foldl_putWord32]
  refine (run_write (s := { u with S := s.S }) (off := 0x00C) hp hb rfl _ [] 0).trans (congrArg Host.Outcome.next ?_)
  have hplace : placeAt 0x00C = .ctx := rfl
  rw [hplace, writePlace, writeCtx, htaken]

/-- Settles O58: the image holds the 48 words of S and the CTX word, which is taken since CTX is legal. -/
theorem restoreOfASavedContext : Obligations.RestoreOfASavedContext := by
  intro s hp hb hctx
  exact ⟨_, run_save hp hb, ⟨rfl, rfl, rfl, rfl, rfl, rfl, rfl, rfl, rfl, rfl, rfl⟩,
    fun u hup hub => run_restore hctx hup hub⟩

end Sys2Proof.Proofs
end

section
/-! PROOFS of the statements of 40_bashf.md. The lane maps are the powers of `P1`, so round `k + 1` by renaming keeps
the logical lane `x` at place `P1^k(x)`; the physical form holds it at `x`. One round keeps the two in step. -/

namespace Sys2Proof.Proofs

open Sys2Proof Sys2Proof.Machine Sys2Proof.Claims Sys2Proof.Laws

/-! ### The lane maps (40_bashf.md R154, R155) -/

theorem laneMap1_lt (x : Nat) : laneMap 1 x < 24 := by
  simp only [laneMap, laneMap1]
  split
  · omega
  · split
    · rename_i h
      have hxor : x ^^^ 1 < 2 ^ 4 := Nat.xor_lt_two_pow h (by decide)
      omega
    · omega

theorem laneMap3_lt {x : Nat} (hx : x < 24) : laneMap3 x < 24 := by
  unfold laneMap3
  omega

theorem laneMap3_laneMap3 (x : Nat) : laneMap3 (laneMap3 x) = x := by
  unfold laneMap3
  omega

/-- `P3` is written by a formula of its own: entry by entry it is `P1` applied three times. -/
theorem laneMap3_eq_iterate : ∀ x, x < 24 → laneMap3 x = (laneMap 1)^[3] x := by decide

/-- `P4` and `P5` are `P1` applied to `P3` once and twice. -/
theorem laneMap_eq_iterate {k x : Nat} (hk : k < 6) (hx : x < 24) : laneMap k x = (laneMap 1)^[k] x := by
  have hP3 := laneMap3_eq_iterate x hx
  match k, hk with
  | 0, _ | 1, _ | 2, _ => rfl
  | 3, _ => exact hP3
  | 4, _ => exact congrArg laneMap1 hP3
  | 5, _ => exact congrArg (laneMap 1)^[2] hP3

/-- `P1^6 = P3 ∘ P3`, which is the identity. -/
theorem laneMap1_isPeriodicPt {x : Nat} (hx : x < 24) : Function.IsPeriodicPt (laneMap 1) 6 x := by
  have hsplit : (laneMap 1)^[6] x = (laneMap 1)^[3] ((laneMap 1)^[3] x) := rfl
  rw [Function.IsPeriodicPt, Function.IsFixedPt, hsplit, ← laneMap3_eq_iterate x hx,
    ← laneMap3_eq_iterate _ (laneMap3_lt hx), laneMap3_laneMap3]

/-- The cycle of lane 0 under `P1` is 0, 15, 22, 4, 11, 18. -/
theorem laneMap1_iterate_zero_ne : ∀ k, k < 6 → 0 < k → (laneMap 1)^[k] 0 ≠ 0 := by decide

/-- Settles O28: `P3` is `P1^3` and its own inverse, and lane 0 first comes back after six steps. -/
theorem laneMapsAreIteratesOfP1 : Obligations.LaneMapsAreIteratesOfP1 :=
  ⟨fun _ hk _ hx => laneMap_eq_iterate hk hx, fun _ hx => (laneMap1_isPeriodicPt hx).eq,
    fun k hpos hk => ⟨0, by decide, laneMap1_iterate_zero_ne k hk hpos⟩⟩

/-- The map of the schedule at the start of round `k + 1` is `P1^k` (40_bashf.md R157). -/
theorem laneMap_mod {k x : Nat} (hx : x < 24) : laneMap (k % 6) x = (laneMap 1)^[k] x := by
  rw [laneMap_eq_iterate (Nat.mod_lt _ (by decide)) hx, (laneMap1_isPeriodicPt hx).iterate_mod_apply]

theorem laneMap_mod_succ {k x : Nat} (hx : x < 24) :
    laneMap ((k + 1) % 6) x = laneMap (k % 6) (laneMap 1 x) := by
  rw [laneMap_mod hx, laneMap_mod (laneMap1_lt x), Function.iterate_succ_apply]

/-- A renaming of the 24 lanes: no lane leaves them, and no two get one name. -/
structure RenamesLanes (p : Nat → Nat) : Prop where
  mapsTo : Set.MapsTo p (Set.Iio 24) (Set.Iio 24)
  injOn : Set.InjOn p (Set.Iio 24)

theorem RenamesLanes.lt {p : Nat → Nat} (hp : RenamesLanes p) {x : Nat} (hx : x < 24) : p x < 24 := hp.mapsTo hx

theorem RenamesLanes.eq_iff {p : Nat → Nat} (hp : RenamesLanes p) {x y : Nat} (hx : x < 24) (hy : y < 24) :
    p x = p y ↔ x = y := hp.injOn.eq_iff hx hy

theorem renamesLanes_laneMap1 : RenamesLanes (laneMap 1) :=
  ⟨fun x _ => laneMap1_lt x,
    fun _ hx _ hy h => (laneMap1_isPeriodicPt hx).eq_of_apply_eq_same (laneMap1_isPeriodicPt hy) (by decide) h⟩

theorem renamesLanes_laneMap_mod (k : Nat) : RenamesLanes (laneMap (k % 6)) := by
  have hpow : Set.EqOn (laneMap 1)^[k] (laneMap (k % 6)) (Set.Iio 24) := fun _ hx => (laneMap_mod hx).symm
  obtain ⟨hmaps, hinj⟩ := renamesLanes_laneMap1
  exact ⟨(hmaps.iterate k).congr hpow, (hinj.iterate hmaps k).congr hpow⟩

/-! ### The calls of a round (40_bashf.md R156) -/

/-- The lanes that call `j` of a round reads and writes. -/
def tripleLanes (p : Nat → Nat) (j : Nat) : List Nat := [p j, p (j + 8), p (j + 16)]

theorem mem_tripleLanes {p : Nat → Nat} {i j : Nat} (hj : j < 8) (h : i ∈ tripleLanes p j) :
    ∃ x, x < 24 ∧ x % 8 = j ∧ i = p x := by
  simp only [tripleLanes, List.mem_cons, List.not_mem_nil, or_false] at h
  obtain h | h | h := h
  · exact ⟨j, by omega, by omega, h⟩
  · exact ⟨j + 8, by omega, by omega, h⟩
  · exact ⟨j + 16, by omega, by omega, h⟩

theorem tripleLanes_disjoint {p : Nat → Nat} (hp : RenamesLanes p) {j j' : Nat} (hj : j < 8) (hj' : j' < 8)
    (hne : j ≠ j') {i : Nat} (h : i ∈ tripleLanes p j) : i ∉ tripleLanes p j' := by
  intro h'
  obtain ⟨x, hx, hxj, rfl⟩ := mem_tripleLanes hj h
  obtain ⟨y, hy, hyj, hxy⟩ := mem_tripleLanes hj' h'
  have := (hp.eq_iff hx hy).1 hxy
  omega

/-- A call writes no lane outside its triple. -/
theorem elemAt_sboxTriple_of_notMem {p : Nat → Nat} {i j : Nat} (W : Vector Lane 24) (h : i ∉ tripleLanes p j) :
    elemAt (sboxTriple p W j) i = elemAt W i := by
  simp only [tripleLanes, List.mem_cons, List.not_mem_nil, or_false, not_or] at h
  obtain ⟨h0, h8, h16⟩ := h
  rw [sboxTriple, elemAt_putAt_ne _ _ _ _ h16, elemAt_putAt_ne _ _ _ _ h8, elemAt_putAt_ne _ _ _ _ h0]

/-- A call reads no lane outside its triple: what it leaves at a lane depends on its triple and that lane alone. -/
theorem elemAt_sboxTriple_congr {p : Nat → Nat} {i j : Nat} {A B : Vector Lane 24}
    (htriple : ∀ m ∈ tripleLanes p j, elemAt A m = elemAt B m) (hi : elemAt A i = elemAt B i) :
    elemAt (sboxTriple p A j) i = elemAt (sboxTriple p B j) i := by
  simp only [tripleLanes, List.forall_mem_cons] at htriple
  obtain ⟨h0, h8, h16, -⟩ := htriple
  simp only [sboxTriple, elemAt_putAt, h0, h8, h16, hi]

/-- Where the earlier of two calls with disjoint triples does not write, the later one is as if made alone. -/
theorem elemAt_sboxTriple_sboxTriple {p : Nat → Nat} {j j' : Nat} (W : Vector Lane 24)
    (hdisj : ∀ m ∈ tripleLanes p j', m ∉ tripleLanes p j) {i : Nat} (hi : i ∉ tripleLanes p j) :
    elemAt (sboxTriple p (sboxTriple p W j) j') i = elemAt (sboxTriple p W j') i :=
  elemAt_sboxTriple_congr (fun m hm => elemAt_sboxTriple_of_notMem W (hdisj m hm)) (elemAt_sboxTriple_of_notMem W hi)

theorem sboxTriple_comm {p : Nat → Nat} (hp : RenamesLanes p) {j j' : Nat} (hj : j < 8) (hj' : j' < 8) (hne : j ≠ j')
    (W : Vector Lane 24) : sboxTriple p (sboxTriple p W j) j' = sboxTriple p (sboxTriple p W j') j := by
  have hdisj : ∀ m ∈ tripleLanes p j, m ∉ tripleLanes p j' := fun _ => tripleLanes_disjoint hp hj hj' hne
  have hdisj' : ∀ m ∈ tripleLanes p j', m ∉ tripleLanes p j := fun _ => tripleLanes_disjoint hp hj' hj hne.symm
  refine array_ext fun i _ => ?_
  by_cases hi : i ∈ tripleLanes p j'
  · rw [elemAt_sboxTriple_sboxTriple W hdisj' (hdisj' i hi), elemAt_sboxTriple_of_notMem _ (hdisj' i hi)]
  · rw [elemAt_sboxTriple_sboxTriple W hdisj hi, elemAt_sboxTriple_of_notMem _ hi]

/-- Settles O31: the lane map gives different names to different lanes, so the two triples are disjoint. -/
theorem sboxCallsOfARoundCommute : Obligations.SboxCallsOfARoundCommute := by
  intro k j j' W hk hj hj' hne
  have hp := renamesLanes_laneMap_mod k
  rw [Nat.mod_eq_of_lt hk] at hp
  exact sboxTriple_comm hp hj hj' hne W

/-! ### The physical form (40_bashf.md R159) -/

/-- The lanes in logical order: logical lane `x` is the one held at place `p x`. -/
def logicalLanes (p : Nat → Nat) (W : Vector Lane 24) : Vector Lane 24 := tabulate 24 fun x => elemAt W (p x)

theorem elemAt_logicalLanes (p : Nat → Nat) (W : Vector Lane 24) {x : Nat} (hx : x < 24) :
    elemAt (logicalLanes p W) x = elemAt W (p x) := elemAt_tabulate _ x hx

theorem logicalLanes_laneMap_zero (W : Vector Lane 24) : logicalLanes (laneMap 0) W = W := tabulate_elemAt W

theorem logicalLanes_comp {p q r : Nat → Nat} (hq : ∀ x, q x < 24) (h : ∀ x, x < 24 → r x = p (q x))
    (W : Vector Lane 24) : logicalLanes q (logicalLanes p W) = logicalLanes r W :=
  array_ext fun x hx => by
    rw [elemAt_logicalLanes _ _ hx, elemAt_logicalLanes _ _ (hq x), elemAt_logicalLanes _ _ hx, h x hx]

/-- A write at the place of logical lane `i` is a write of logical lane `i`. -/
theorem logicalLanes_putAt {p : Nat → Nat} (hp : RenamesLanes p) (W : Vector Lane 24) {i : Nat} (hi : i < 24)
    (v : Lane) : logicalLanes p (putAt W (p i) v) = putAt (logicalLanes p W) i v :=
  array_ext fun x hx => by
    simp only [elemAt_logicalLanes _ _ hx, elemAt_putAt, hp.eq_iff hx hi, hp.lt hi, hi]

/-- A call by renamed lanes is the call on the logical lanes themselves. -/
theorem logicalLanes_sboxTriple {p : Nat → Nat} (hp : RenamesLanes p) (W : Vector Lane 24) {j : Nat} (hj : j < 8) :
    logicalLanes p (sboxTriple p W j) = sboxTriple id (logicalLanes p W) j := by
  have h8 : j + 8 < 24 := by omega
  have h16 : j + 16 < 24 := by omega
  have h0 : j < 24 := by omega
  simp only [sboxTriple, logicalLanes_putAt hp _ h0, logicalLanes_putAt hp _ h8, logicalLanes_putAt hp _ h16, id_eq,
    elemAt_logicalLanes _ _ h0, elemAt_logicalLanes _ _ h8, elemAt_logicalLanes _ _ h16]

theorem logicalLanes_foldl_sboxTriple {p : Nat → Nat} (hp : RenamesLanes p) {js : List Nat} (hjs : ∀ j ∈ js, j < 8)
    (W : Vector Lane 24) :
    logicalLanes p (js.foldl (sboxTriple p) W) = js.foldl (sboxTriple id) (logicalLanes p W) := by
  induction js generalizing W with
  | nil => rfl
  | cons j js ih =>
    obtain ⟨hj, hjs⟩ := List.forall_mem_cons.1 hjs
    rw [List.foldl_cons, List.foldl_cons, ih hjs, logicalLanes_sboxTriple hp W hj]

theorem logicalLanes_sboxLayer {p : Nat → Nat} (hp : RenamesLanes p) (W : Vector Lane 24) :
    logicalLanes p (sboxLayer p W) = sboxLayer id (logicalLanes p W) :=
  logicalLanes_foldl_sboxTriple hp (fun _ => List.mem_range.1) W

/-- The physical round makes the calls in place, moves the lanes by `P1`, and adds the constant to lane 23. -/
theorem physicalRound_eq (W : Vector Lane 24) (k : Nat) :
    physicalRound W k =
      putAt (logicalLanes (laneMap 1) (sboxLayer id W)) 23
        (elemAt (logicalLanes (laneMap 1) (sboxLayer id W)) 23 ^^^ roundConst (k + 1)) := rfl

/-- One round by renaming, seen through the next round's names, is one physical round on what this round's names
show: where `p_next = p ∘ P1`, renaming does what moving the lanes does. -/
theorem logicalLanes_bashR {p pNext : Nat → Nat} (hp : RenamesLanes p) (hNext : RenamesLanes pNext)
    (hcomp : ∀ x, x < 24 → pNext x = p (laneMap 1 x)) (W : Vector Lane 24) (k : Nat) :
    logicalLanes pNext (bashR W p pNext (k + 1)) = physicalRound (logicalLanes p W) k := by
  have hmoved : logicalLanes (laneMap 1) (sboxLayer id (logicalLanes p W)) = logicalLanes pNext (sboxLayer p W) := by
    rw [← logicalLanes_sboxLayer hp, logicalLanes_comp laneMap1_lt hcomp]
  rw [physicalRound_eq, hmoved, bashR, logicalLanes_putAt hNext _ (by decide), elemAt_logicalLanes _ _ (by decide)]

/-- After `m` rounds the physical form holds the logical lanes of the form by renaming, under the names of round
`m + 1`. -/
theorem foldl_physicalRound (W : Vector Lane 24) (m : Nat) :
    (List.range m).foldl physicalRound W =
      logicalLanes (laneMap (m % 6))
        ((List.range m).foldl (fun W k => bashR W (laneMap (k % 6)) (laneMap ((k + 1) % 6)) (k + 1)) W) := by
  induction m with
  | zero => exact (logicalLanes_laneMap_zero W).symm
  | succ m ih =>
    rw [List.range_succ, List.foldl_append, List.foldl_append, ih]
    exact (logicalLanes_bashR (renamesLanes_laneMap_mod m) (renamesLanes_laneMap_mod (m + 1))
      (fun _ => laneMap_mod_succ) _ m).symm

/-- Settles O29, by induction on the rounds; after 24 of them the names are those of `P0` again. -/
theorem bashF0EqualsThePhysicalForm : Obligations.BashF0EqualsThePhysicalForm := by
  intro W
  exact (logicalLanes_laneMap_zero (bashF0 W)).symm.trans (foldl_physicalRound W 24).symm

/-! ### The S-transform on constant triples (40_bashf.md R163) -/

theorem rotl64_zero (r : Nat) : rotl64 0#64 r = 0#64 := by
  apply BitVec.eq_of_getLsbD_eq
  intro i _
  simp [rotl64, BitVec.getLsbD_rotateLeft]

/-- A bit of a rotation, wrapped round or not, is a bit of the lane itself. -/
theorem rotl64_allOnes (r : Nat) : rotl64 (BitVec.allOnes 64) r = BitVec.allOnes 64 := by
  apply BitVec.eq_of_getLsbD_eq
  intro i hi
  rw [rotl64, BitVec.getLsbD_rotateLeft, BitVec.getLsbD_allOnes, BitVec.getLsbD_allOnes, BitVec.getLsbD_allOnes]
  by_cases hwrap : i < r % 64
  · simp [hwrap, hi]
    omega
  · simp [hwrap, hi]
    omega

/-- Settles O30: both lanes are fixed by every rotation, and what is left of `bashS` is a closed computation. -/
theorem sboxOfZerosAndOnes : Obligations.SboxOfZerosAndOnes := by
  intro r
  have hones : ∀ m, rotl64 0xFFFFFFFFFFFFFFFF#64 m = 0xFFFFFFFFFFFFFFFF#64 := rotl64_allOnes
  constructor
  · simp [bashS, rotl64_zero]
  · simp [bashS, rotl64_zero, hones]

/-! ### The command (40_bashf.md R160, R161) -/

/-- Settles O32: the effect is `permute`, and the lane view of `bash_f` of S is `bash_f0` of the lane view of S. -/
theorem bashfPermutesTheLanesOfS : Obligations.BashfPermutesTheLanesOfS := by
  intro s
  refine ⟨bashF s.S, rfl, fun j hj => ?_⟩
  calc lane64 (bashF s.S) j = elemAt (lanesOf (bashF s.S)) j := (elemAt_tabulate _ j hj).symm
    _ = elemAt (bashF0 (lanesOf s.S)) j := by rw [lanesOf_bashF]

end Sys2Proof.Proofs
end

section
/-! PROOFS of the statements of 41_hash.md. A step command of the sponge, HASH_STEP among them, is a loop over one byte
that two functions describe: the new rate byte and the new byte of DBUF, both of the two old bytes. The loop within the
rate and the split of a string are said once, for every such byte. -/

namespace Sys2Proof.Proofs

open Sys2Proof Sys2Proof.Machine Sys2Proof.Claims Sys2Proof.Laws

/-! ### Two facts about overlays -/

/-- An overlay grows by one element at its end. -/
theorem putAt_overlay {w n : Nat} (A : Vector (BitVec w) n) (lo len : Nat) (f : Nat → BitVec w) :
    putAt (overlay A lo len f) (lo + len) (f len) = overlay A lo (len + 1) f := by
  apply array_ext
  intro i hi
  rw [elemAt_putAt, elemAt_overlay _ _ _ _ _ hi, elemAt_overlay _ _ _ _ _ hi]
  by_cases hend : i = lo + len
  · subst hend
    simp [hi]
  · rw [if_neg (by simp [hend])]
    exact if_congr (by omega) rfl rfl

/-- Laying an array's own first elements over it changes nothing. -/
theorem overlay_elemAt {w n : Nat} (A : Vector (BitVec w) n) (len : Nat) : overlay A 0 len (elemAt A) = A := by
  apply array_ext
  intro i hi
  simp [elemAt_overlay _ _ _ _ _ hi]

/-! ### A rate byte and a byte of DBUF (41_hash.md R202, 42_prg.md R243) -/

/-- One iteration makes the new rate byte by `f` and the new byte of DBUF by `g`, both of the old rate byte and the old
byte of DBUF, and then `adv` moves on. -/
def RateBody (f g : Byte → Byte → Byte) (body : Nat → State → State) : Prop :=
  ∀ i s, body i s = adv (setDbufByte i (g (rateByte s) (elemAt s.dbuf i))
    (setRateByte (f (rateByte s) (elemAt s.dbuf i)) s))

section
variable {f g : Byte → Byte → Byte} {body : Nat → State → State}

theorem RateBody.stepBody (hb : RateBody f g body) : StepBody body :=
  ⟨fun i S dbuf pos => putAt S pos.toNat (f (elemAt S pos.toNat) (elemAt dbuf i)),
    fun i S dbuf pos => putAt dbuf i (g (elemAt S pos.toNat) (elemAt dbuf i)), hb,
    fun _ _ _ _ _ hj => elemAt_putAt_ne _ _ _ _ hj⟩

/-! ### The loop within the rate -/

/-- S after `n` bytes within the rate, but for the permutation at its end. -/
def rateAfter (f : Byte → Byte → Byte) (n : Nat) (s : State) : Vector Byte 192 :=
  overlay s.S s.ctx.pos.toNat n fun i => f (elemAt s.S (s.ctx.pos.toNat + i)) (elemAt s.dbuf i)

/-- DBUF after `n` bytes within the rate. -/
def dbufAfter (g : Byte → Byte → Byte) (n : Nat) (s : State) : Vector Byte 192 :=
  overlay s.dbuf 0 n fun i => g (elemAt s.S (s.ctx.pos.toNat + i)) (elemAt s.dbuf i)

/-- `s` with other bytes and `pos` moved on by `n`, short of the end of the rate. -/
def movedOn (n : Nat) (A D : Vector Byte 192) (s : State) : State :=
  { s with S := A, dbuf := D, ctx := { s.ctx with pos := s.ctx.pos + BitVec.ofNat 8 n } }

theorem movedOn_pos {n : Nat} {s : State} (h : s.ctx.pos.toNat + n < 256) (A D : Vector Byte 192) :
    (movedOn n A D s).ctx.pos.toNat = s.ctx.pos.toNat + n := by
  simp only [movedOn, BitVec.toNat_add, BitVec.toNat_ofNat]
  omega

theorem movedOn_pos_succ (n : Nat) (A D : Vector Byte 192) (s : State) :
    (movedOn n A D s).ctx.pos + 1 = s.ctx.pos + BitVec.ofNat 8 (n + 1) := by
  rw [movedOn, BitVec.add_assoc, BitVec.ofNat_add]
  rfl

/-- Short of the end of the rate, `afterRate` only moves on. -/
theorem afterRate_eq_movedOn {n : Nat} {s : State} (h : n = 0 ∨ s.ctx.pos.toNat + n < s.ctx.buffLen.toNat)
    (A D : Vector Byte 192) : { afterRate n A s with dbuf := D } = movedOn n A D s := by
  rw [afterRate, if_neg (by omega)]
  rfl

theorem afterRate_dbuf (n : Nat) (A : Vector Byte 192) (s : State) : (afterRate n A s).dbuf = s.dbuf := by
  unfold afterRate
  split <;> rfl

/-- What fits the rate fits DBUF. -/
theorem le_of_fitsRate {n : Nat} {s : State} (h : FitsRate n s) : n ≤ 192 := by
  obtain ⟨hfit, hlen⟩ := h
  omega

/-- `adv` after the byte at `pos + n` ends a run of `n + 1` bytes. -/
theorem adv_movedOn {n : Nat} {s : State} (h : FitsRate (n + 1) s) (A D : Vector Byte 192) :
    adv (movedOn n A D s) = { afterRate (n + 1) A s with dbuf := D } := by
  obtain ⟨hfit, hlen⟩ := h
  have hend : (movedOn n A D s).ctx.pos + 1 = s.ctx.buffLen ↔ s.ctx.pos.toNat + (n + 1) = s.ctx.buffLen.toNat := by
    rw [← BitVec.toNat_inj, BitVec.toNat_add, movedOn_pos (by omega)]
    simp
    omega
  rcases adv_cases (movedOn n A D s) with ⟨hfull, hadv⟩ | ⟨hshort, hadv⟩
  · rw [hadv, afterRate, if_pos ⟨n.succ_pos, hend.1 hfull⟩]
    rfl
  · rw [hadv, movedOn_pos_succ, afterRate, if_neg fun hfull => hshort (hend.2 hfull.2)]
    rfl

/-- The loop comes to the byte at `pos + n` with that byte and `DBUF[n]` as they were, and writes the next of each. -/
theorem body_movedOn (hb : RateBody f g body) {n : Nat} {s : State}
    (h : s.ctx.pos.toNat + n < 192) :
    body n (movedOn n (rateAfter f n s) (dbufAfter g n s) s) =
      adv (movedOn n (rateAfter f (n + 1) s) (dbufAfter g (n + 1) s) s) := by
  have hpos := movedOn_pos (n := n) (s := s) (by omega) (rateAfter f n s) (dbufAfter g n s)
  have hold : elemAt (rateAfter f n s) (s.ctx.pos.toNat + n) = elemAt s.S (s.ctx.pos.toNat + n) := by
    rw [rateAfter, elemAt_overlay _ _ _ _ _ h, if_neg (by omega)]
  have hbyte : elemAt (dbufAfter g n s) n = elemAt s.dbuf n := by
    rw [dbufAfter, elemAt_overlay _ _ _ _ _ (by omega), if_neg (by omega)]
  have hS : putAt (rateAfter f n s) (s.ctx.pos.toNat + n) (f (elemAt s.S (s.ctx.pos.toNat + n)) (elemAt s.dbuf n)) =
      rateAfter f (n + 1) s := putAt_overlay _ _ _ _
  have hD : putAt (dbufAfter g n s) n (g (elemAt s.S (s.ctx.pos.toNat + n)) (elemAt s.dbuf n)) =
      dbufAfter g (n + 1) s := by
    have := putAt_overlay s.dbuf 0 n fun i => g (elemAt s.S (s.ctx.pos.toNat + i)) (elemAt s.dbuf i)
    rwa [Nat.zero_add] at this
  rw [hb, setDbufByte, setRateByte, rateByte, hpos]
  simp only [movedOn, hold, hbyte, hS, hD]

/-- A step command within the rate: both arrays at once, and the permutation at the very end of the rate. -/
theorem forBytes_withinRate (hb : RateBody f g body) {n : Nat} {s : State}
    (h : FitsRate n s) :
    forBytes n body s = { afterRate n (rateAfter f n s) s with dbuf := dbufAfter g n s } := by
  obtain ⟨hfit, hlen⟩ := h
  induction n with
  | zero =>
    rw [forBytes_zero, afterRate_eq_movedOn (.inl rfl)]
    simp [movedOn, rateAfter, dbufAfter]
  | succ n ih =>
    rw [forBytes_succ, ih (by omega), afterRate_eq_movedOn (.inr (by omega)), body_movedOn hb (by omega),
      adv_movedOn ⟨hfit, hlen⟩]

/-! ### A string as one loop and as pieces (41_hash.md R204, 42_prg.md R248) -/

/-- A string in two parts is streamed one after the other. -/
theorem stream_append (f g : Byte → Byte → Byte) (buffLen : BitVec 8) (x y : List Byte)
    (st : Vector Byte 192 × BitVec 8) :
    stream f g buffLen (x ++ y) st =
      ((stream f g buffLen x st).1 ++ (stream f g buffLen y (stream f g buffLen x st).2).1,
        (stream f g buffLen y (stream f g buffLen x st).2).2) := by
  induction x generalizing st with
  | nil => rfl
  | cons b x ih =>
    obtain ⟨A, pos⟩ := st
    simp only [List.cons_append, stream, ih]

theorem readDbuf_succ (n : Nat) (s : State) : readDbuf (n + 1) s = readDbuf n s ++ [elemAt s.dbuf n] := by
  simp [readDbuf, List.range_succ]

/-- A string loaded into DBUF is read back from it (30_encoding.md R126, R127). -/
theorem readDbuf_loadDbuf {x : List Byte} (h : x.length ≤ 192) (s : State) : readDbuf x.length (loadDbuf x s) = x := by
  apply List.ext_getElem (by simp [readDbuf])
  intro i _ hi
  simp [readDbuf, loadDbuf, elemAt_overlay _ _ _ _ _ (Nat.lt_of_lt_of_le hi h), hi]

/-- S and `pos` after `adv`. -/
theorem adv_sponge (s : State) :
    ((adv s).S, (adv s).ctx.pos) = if s.ctx.pos + 1 = s.ctx.buffLen then (bashF s.S, 0) else (s.S, s.ctx.pos + 1) := by
  unfold adv
  split <;> rfl

/-- One byte of the stream is one iteration of the step command. -/
theorem stream_singleton (hb : RateBody f g body) {n : Nat} (hn : n < 192) (s : State) :
    stream f g s.ctx.buffLen [elemAt s.dbuf n] (s.S, s.ctx.pos) =
      ([elemAt (body n s).dbuf n], ((body n s).S, (body n s).ctx.pos)) := by
  rw [hb, adv_sponge, adv_dbuf, setDbufByte_dbuf, setRateByte_dbuf, elemAt_putAt_self _ _ _ hn]
  rfl

/-- The byte loop of a step command is the stream of the first `n` bytes of DBUF. -/
theorem stream_readDbuf (hb : RateBody f g body) {n : Nat} (hn : n ≤ 192) (s : State) :
    stream f g s.ctx.buffLen (readDbuf n s) (s.S, s.ctx.pos) =
      (readDbuf n (forBytes n body s), ((forBytes n body s).S, (forBytes n body s).ctx.pos)) := by
  induction n with
  | zero => rfl
  | succ n ih =>
    obtain ⟨A, D, p, ht, hD⟩ := forBytes_stepFrame hb.stepBody n s
    have hnext : elemAt s.dbuf n = elemAt (forBytes n body s).dbuf n := by
      rw [ht]
      exact (hD n le_rfl).symm
    have hlen : s.ctx.buffLen = (forBytes n body s).ctx.buffLen := by rw [ht]
    have hkeep : readDbuf n (body n (forBytes n body s)) = readDbuf n (forBytes n body s) := by
      refine List.map_congr_left fun i hi => ?_
      rw [hb, adv_dbuf, setDbufByte_dbuf]
      exact elemAt_putAt_ne _ _ _ _ (List.mem_range.1 hi).ne
    rw [readDbuf_succ, stream_append, ih (by omega), hnext, hlen, stream_singleton hb (by omega), forBytes_succ,
      readDbuf_succ, hkeep]

/-- A step command that runs its loop wherever it is allowed is the same over every split of a string: a piece at a
time, the stream goes on from the S and `pos` the piece left. -/
theorem splitInvariant_of_rateBody {mk : Nat → Instr} {allowed : Ctx → Prop} (hb : RateBody f g body)
    (hexec : ∀ n s, n ≤ 192 → allowed s.ctx → exec (mk n) s = .next (forBytes n body s))
    (hallowed : ∀ c p, allowed c → allowed { c with pos := p }) : SplitInvariant mk f g allowed := by
  intro pieces s hpieces ha
  induction pieces generalizing s with
  | nil => exact ⟨[], s, rfl, rfl, rfl⟩
  | cons x xs ih =>
    have hx : x.length ≤ 192 := hpieces x List.mem_cons_self
    have hstream := stream_readDbuf hb hx (loadDbuf x s)
    have hrun := hexec x.length (loadDbuf x s) hx ha
    obtain ⟨A, D, p, hu, -⟩ := forBytes_stepFrame hb.stepBody x.length (loadDbuf x s)
    generalize forBytes x.length body (loadDbuf x s) = u at hstream hrun hu
    have hctx : u.ctx = { s.ctx with pos := u.ctx.pos } := by rw [hu]; rfl
    have hlen : u.ctx.buffLen = s.ctx.buffLen := by rw [hctx]
    obtain ⟨out, t, hxs, hrest, hframe⟩ :=
      ih u (fun y hy => hpieces y (List.mem_cons_of_mem x hy)) (hctx ▸ hallowed s.ctx u.ctx.pos ha)
    rw [hlen] at hrest
    rw [readDbuf_loadDbuf hx] at hstream
    change stream f g s.ctx.buffLen x (s.S, s.ctx.pos) = _ at hstream
    refine ⟨readDbuf x.length u ++ out, t, ?_, ?_, ?_⟩
    · simp only [runPieces, hrun, hxs, Option.map_some]
    · rw [List.flatten_cons, stream_append, hstream, hrest]
    · rw [hframe, hu]
      rfl

end

/-! ### HASH_INIT (41_hash.md R200) -/

theorem elemAt_hashInitBlock (l j : Nat) :
    elemAt (hashInitBlock l) j = if j = 184 then BitVec.ofNat 8 (l / 4) else 0 := by
  rw [hashInitBlock, elemAt_putAt, zeroBytes, elemAt_replicate_zero]
  exact if_congr (by omega) rfl rfl

/-- Settles O33: the level passes the check, and the effect is the new block and the new context. -/
theorem hashInitStartsAContext : Obligations.HashInitStartsAContext := by
  intro s l hmod hle
  have hpass : firstFailure (checksOf (.hashInit l) s) = .ok := by simp [checksOf, hashLevel, hmod, hle]
  exact ⟨hashInitBlock l, exec_pass hpass, fun j _ => elemAt_hashInitBlock l j⟩

/-! ### HASH_STEP (41_hash.md R202, R204) -/

/-- HASH_STEP overwrites the rate byte, and leaves that of DBUF. -/
theorem rateBody_hashStepByte : RateBody (fun _ b => b) (fun _ b => b) hashStepByte := by
  intro i s
  have hkeep : setDbufByte i (elemAt s.dbuf i) (setRateByte (elemAt s.dbuf i) s) = setRateByte (elemAt s.dbuf i) s := by
    simp [setDbufByte, setRateByte]
  rw [hkeep, hashStepByte]

theorem exec_hashStep {n : Nat} {s : State} (hm : s.ctx.mode = .hash) (hn : n ≤ 192) :
    exec (.hashStep n) s = .next (forBytes n hashStepByte s) :=
  exec_pass (i := .hashStep n) (by simp [checksOf, needHash, needCount, countFits, hm, hn])

/-- Settles O34: the run within the rate of the byte that overwrites, which leaves DBUF. -/
theorem hashStepWithinTheRate : Obligations.HashStepWithinTheRate := by
  intro s n hm h
  refine ⟨rateAfter (fun _ b => b) n s, ?_, fun j hj => elemAt_overlay _ _ _ _ _ hj⟩
  have hdbuf : dbufAfter (fun _ b => b) n s = (afterRate n (rateAfter (fun _ b => b) n s) s).dbuf := by
    rw [afterRate_dbuf]
    exact overlay_elemAt _ _
  rw [exec_hashStep hm (le_of_fitsRate h), forBytes_withinRate rateBody_hashStepByte h, hdbuf]

/-- Settles O35: HASH_STEP runs the loop of the byte that overwrites in every hash context. -/
theorem hashStepsAreSplitInvariant : Obligations.HashStepsAreSplitInvariant :=
  splitInvariant_of_rateBody rateBody_hashStepByte (fun _ _ hn hm => exec_hashStep hm hn) fun _ _ hm => hm

/-! ### The digest (41_hash.md R205 to R207) -/

theorem exec_hashFinal {s : State} (hm : s.ctx.mode = .hash) : exec .hashFinal s = .next (finaliseHash s) :=
  exec_pass (i := .hashFinal) (by simp [checksOf, needHash, hm])

theorem exec_hashVerify {s : State} (hm : s.ctx.mode = .hash) : exec .hashVerify s = .next (verifyHash s) :=
  exec_pass (i := .hashVerify) (by simp [checksOf, needHash, hm])

/-- The copy that is permuted for the digest is the padded one. -/
theorem padded_finalBlock (s : State) : Padded s (finalBlock s.S s.ctx) := by
  intro j hj
  rw [finalBlock, elemAt_putAt, elemAt_overlay _ _ _ _ _ hj]
  by_cases hpos : j = s.ctx.pos.toNat
  · rw [if_pos ⟨hpos, hpos ▸ hj⟩, if_pos hpos]
  · rw [if_neg (fun h => hpos h.1), if_neg hpos]
    exact if_congr (by omega) rfl rfl

theorem elemAt_finaliseHash_dbuf (s : State) {i : Nat} (hi : i < 192) :
    elemAt (finaliseHash s).dbuf i =
      if i < s.ctx.l.toNat / 4 then elemAt (bashF (finalBlock s.S s.ctx)) i else elemAt s.dbuf i := by
  rw [finaliseHash, storeDigest, elemAt_overlay _ _ _ _ _ hi]
  simp [hashOut, digestLength]

/-- `vok` after HASH_VERIFY (41_hash.md R207). -/
theorem verifyHash_vok_iff (s : State) :
    (verifyHash s).vok = true ↔
      ∀ i, i < s.ctx.l.toNat / 4 → elemAt s.dbuf i = elemAt (bashF (finalBlock s.S s.ctx)) i := by
  simp [verifyHash, recordVerdict, digestMatches, hashOut, digestLength]

/-- Settles O36: T is `bash_f` of the padded copy, and the digest is laid over DBUF. -/
theorem hashFinalWritesTheDigest : Obligations.HashFinalWritesTheDigest := by
  intro s hm
  exact ⟨finalBlock s.S s.ctx, (finaliseHash s).dbuf, exec_hashFinal hm, padded_finalBlock s,
    fun i hi => elemAt_finaliseHash_dbuf s hi⟩

/-- Settles O37: T is `bash_f` of the padded copy, and `vok` compares it with DBUF. -/
theorem hashVerifyComparesTheDigest : Obligations.HashVerifyComparesTheDigest := by
  intro s hm
  exact ⟨finalBlock s.S s.ctx, (verifyHash s).vok, exec_hashVerify hm, padded_finalBlock s, verifyHash_vok_iff s⟩

/-- Settles O38: HASH_FINAL leaves S and CTX, so HASH_VERIFY compares with the digest that stands in DBUF, whose every
byte counts. -/
theorem verifyAfterFinalSucceeds : Obligations.VerifyAfterFinalSucceeds := by
  intro s hm hl
  have hdigest : ∀ i, i < s.ctx.l.toNat / 4 →
      elemAt (finaliseHash s).dbuf i = elemAt (bashF (finalBlock s.S s.ctx)) i := fun i hi => by
    rw [elemAt_finaliseHash_dbuf s (by omega), if_pos hi]
  refine ⟨finaliseHash s, verifyHash (finaliseHash s), exec_hashFinal hm, exec_hashVerify hm,
    (verifyHash_vok_iff _).2 hdigest, fun i x hi hx => ⟨_, exec_hashVerify hm, ?_⟩⟩
  rw [← Bool.not_eq_true, verifyHash_vok_iff]
  intro hmatch
  have hbyte : elemAt (putAt (finaliseHash s).dbuf i x) i = elemAt (bashF (finalBlock s.S s.ctx)) i := hmatch i hi
  rw [elemAt_putAt_self _ _ _ (by omega), ← hdigest i hi] at hbyte
  exact hx hbyte

end Sys2Proof.Proofs
end

section
/-! PROOFS of the statements of 42_prg.md. The four step commands are rate bytes of the kind of 41_hash.md, and their
loops are run there; the other commands are a commit and what follows it. The AEAD round trip chains these stages: the
ciphertext leads decryption through the states encryption went through. -/

namespace Sys2Proof.Proofs

open Sys2Proof Sys2Proof.Machine Sys2Proof.Claims Sys2Proof.Laws

/-! ### The checks of the Prg commands (42_prg.md R246, R250, R251) -/

theorem headerLengths_iff (l ann key : Nat) : headerLengths l ann key = true ↔ HeaderLengths l ann key := by
  simp [headerLengths, HeaderLengths, and_assoc]

theorem startLengths_iff (l d ann key : Nat) : startLengths l d ann key = true ↔ StartLengths l d ann key := by
  simp [startLengths, StartLengths, headerLengths_iff, prgLevel, prgCapacity, and_assoc, or_assoc]

theorem firstFailure_needPrg {s : State} (h : s.ctx.mode = .prg) (rest : List (Bool × ErrCode)) :
    firstFailure (needPrg s :: rest) = firstFailure rest := by simp [needPrg, h]

theorem firstFailure_needCount {n : Nat} (h : n ≤ 192) (rest : List (Bool × ErrCode)) :
    firstFailure (needCount n :: rest) = firstFailure rest := by simp [needCount, countFits, h]

theorem firstFailure_needKeyMode {s : State} (h : KeyMode s.ctx) (rest : List (Bool × ErrCode)) :
    firstFailure (needKeyMode s :: rest) = firstFailure rest := by simp [needKeyMode, (keyMode_iff s.ctx).2 h]

theorem exec_prgStart {l d ann key : Nat} (h : StartLengths l d ann key) (s : State) :
    exec (.prgStart l d ann key) s = .next (startPrg l d ann key s) :=
  exec_pass (i := .prgStart l d ann key) (by simp [checksOf, (startLengths_iff l d ann key).2 h])

section
variable {s : State} {n : Nat}

theorem exec_prgRestart {ann key : Nat} (hm : s.ctx.mode = .prg) (h : HeaderLengths s.ctx.l.toNat ann key) :
    exec (.prgRestart ann key) s = .next (restart ann key s) :=
  exec_pass (i := .prgRestart ann key)
    ((firstFailure_needPrg hm _).trans (by simp [(headerLengths_iff s.ctx.l.toNat ann key).2 h]))

theorem exec_prgAbsorbStart (hm : s.ctx.mode = .prg) :
    exec .prgAbsorbStart s = .next (enterPhase codeData .absorb s) :=
  exec_pass (i := .prgAbsorbStart) (firstFailure_needPrg hm [])

theorem exec_prgSqueezeStart (hm : s.ctx.mode = .prg) :
    exec .prgSqueezeStart s = .next (enterPhase codeOut .squeeze s) :=
  exec_pass (i := .prgSqueezeStart) (firstFailure_needPrg hm [])

theorem exec_prgEncrStart (hk : KeyMode s.ctx) : exec .prgEncrStart s = .next (enterPhase codeText .encr s) :=
  exec_pass (i := .prgEncrStart) ((firstFailure_needPrg hk.1 _).trans (firstFailure_needKeyMode hk []))

theorem exec_prgDecrStart (hk : KeyMode s.ctx) : exec .prgDecrStart s = .next (enterPhase codeText .decr s) :=
  exec_pass (i := .prgDecrStart) ((firstFailure_needPrg hk.1 _).trans (firstFailure_needKeyMode hk []))

theorem exec_prgAbsorb (hn : n ≤ 192) (hm : s.ctx.mode = .prg) :
    exec (.prgAbsorb n) s = .next (forBytes n absorbByte s) :=
  exec_pass (i := .prgAbsorb n) ((firstFailure_needPrg hm _).trans (firstFailure_needCount hn []))

theorem exec_prgSqueeze (hn : n ≤ 192) (hm : s.ctx.mode = .prg) :
    exec (.prgSqueeze n) s = .next (forBytes n squeezeByte s) :=
  exec_pass (i := .prgSqueeze n) ((firstFailure_needPrg hm _).trans (firstFailure_needCount hn []))

theorem exec_prgEncr (hn : n ≤ 192) (hk : KeyMode s.ctx) : exec (.prgEncr n) s = .next (forBytes n encrByte s) :=
  exec_pass (i := .prgEncr n)
    ((firstFailure_needPrg hk.1 _).trans ((firstFailure_needCount hn _).trans (firstFailure_needKeyMode hk [])))

theorem exec_prgDecr (hn : n ≤ 192) (hk : KeyMode s.ctx) : exec (.prgDecr n) s = .next (forBytes n decrByte s) :=
  exec_pass (i := .prgDecr n)
    ((firstFailure_needPrg hk.1 _).trans ((firstFailure_needCount hn _).trans (firstFailure_needKeyMode hk [])))

theorem exec_prgRatchet (hm : s.ctx.mode = .prg) : exec .prgRatchet s = .next (ratchet s) :=
  exec_pass (i := .prgRatchet) (firstFailure_needPrg hm [])

end

/-! ### PRG_START and PRG_RESTART (42_prg.md R250, R251) -/

/-- S after PRG_START: the header ends below the byte of level and capacity. -/
theorem elemAt_startBlock (l d : Nat) {ann key : Nat} (dbuf : Vector Byte 192) (hfit : ann + key < 183) {j : Nat}
    (hj : j < 192) :
    elemAt (startBlock l d ann key dbuf) j =
      if j < 1 + ann + key then headerByte dbuf ann key j
      else if j = 184 then BitVec.ofNat 8 (l / 4 + d) else 0 := by
  rw [startBlock, elemAt_putAt, elemAt_overlay _ _ _ _ _ hj, zeroBytes, elemAt_replicate_zero]
  by_cases hhead : j < 1 + ann + key
  · rw [if_neg (by omega), if_pos (by omega), if_pos hhead, Nat.sub_zero]
  · rw [if_neg hhead, if_neg (c := 0 ≤ j ∧ j < 0 + (1 + ann + key)) (by omega)]
    exact if_congr (by omega) rfl rfl

/-- The header is its length byte and then the annotation and the key, as they lie in DBUF. -/
theorem headerByte_eq (dbuf : Vector Byte 192) (ann key j : Nat) :
    headerByte dbuf ann key j =
      if j = 0 then BitVec.ofNat 8 (4 * ann + key / 4)
      else if j < 1 + ann then elemAt dbuf (j - 1)
      else elemAt dbuf (ann + (j - (1 + ann))) := by
  rw [headerByte]
  by_cases hann : j < 1 + ann
  · rw [if_pos hann]
  · have hkey : ann + (j - (1 + ann)) = j - 1 := by omega
    rw [if_neg hann, hkey]

theorem rate_eq (l d key : Nat) :
    rate l d (decide (0 < key)) = if key = 0 then 192 - d * l / 4 else 192 - l * (2 + d) / 16 := by
  by_cases hzero : key = 0 <;> simp [rate, hzero, Nat.pos_iff_ne_zero]

/-- Settles O39: the effect is the new block, which is the header below the byte of level and capacity, and the new
context. -/
theorem prgStartBuildsTheContext : Obligations.PrgStartBuildsTheContext := by
  intro s l d ann key h
  have hfit : ann + key < 183 := by
    obtain ⟨-, -, hann, -, hkey, -, -⟩ := h
    omega
  refine ⟨startBlock l d ann key s.dbuf, ?_, fun j hj => ?_⟩
  · rw [exec_prgStart h, startPrg, startCtx, rate_eq]
  · rw [elemAt_startBlock l d s.dbuf hfit hj]
    by_cases hhead : j < 1 + ann + key
    · rw [if_pos hhead, headerByte_eq, if_pos hhead]
    · rw [if_neg hhead, if_neg (c := j = 0) (by omega), if_neg (c := j < 1 + ann) (by omega), if_neg hhead]

/-- Before its permutation a commit has made the block of 42_prg.md R242. -/
theorem committed_commitBlock (code : Byte) (s : State) : Committed code s (commitBlock code s.S s.ctx) :=
  fun j hj => elemAt_commitBlock code s.S s.ctx j hj

theorem restart_S (ann key : Nat) (s : State) :
    (restart ann key s).S = (xorHeader ann key (commit (if 0 < key then codeKey else codeNull) s)).S := by
  simp [restart]

theorem elemAt_xorHeader (ann key : Nat) (s : State) {j : Nat} (hj : j < 192) :
    elemAt (xorHeader ann key s).S j =
      elemAt s.S j ^^^ if j < 1 + ann + key then headerByte s.dbuf ann key j else 0 := by
  rw [xorHeader_S, elemAt_overlay _ _ _ _ _ hj]
  by_cases hhead : j < 1 + ann + key
  · rw [if_pos (by omega), if_pos hhead, Nat.sub_zero]
  · rw [if_neg (by omega), if_neg hhead]
    exact BitVec.xor_zero.symm

/-- Settles O40: the commit is made before the rate changes, and the header is laid over the permuted block. -/
theorem prgRestartOverlaysTheHeader : Obligations.PrgRestartOverlaysTheHeader := by
  intro s ann key hm h
  have hcode : (if 0 < key then codeKey else codeNull) = if key = 0 then 0x01 else 0x05 := by
    by_cases hzero : key = 0 <;> simp [hzero, codeKey, codeNull, Nat.pos_iff_ne_zero]
  refine ⟨commitBlock (if key = 0 then 0x01 else 0x05) s.S s.ctx, (restart ann key s).S, ?_,
    committed_commitBlock _ s, fun j hj => ?_⟩
  · obtain ⟨A, c, hframe⟩ := restart_frame ann key s
    have hctx := restart_ctx ann key s
    rw [exec_prgRestart hm h]
    rw [hframe] at hctx ⊢
    obtain rfl := hctx
    by_cases hzero : key = 0
    · simp [hzero]
    · simp [hzero, Nat.pos_iff_ne_zero, rate]
  · rw [restart_S, elemAt_xorHeader _ _ _ hj, commit_S, commit_dbuf, hcode, headerByte]
    by_cases hhead : j < 1 + ann + key
    · rw [if_pos hhead, if_pos hhead]
    · rw [if_neg hhead, if_neg (c := j = 0) (by omega), if_neg hhead]

/-! ### The phase commands and PRG_RATCHET (42_prg.md R252 to R260) -/

/-- Settles O41: each command is its commit, and its phase. -/
theorem prgPhaseCommandsCommit : Obligations.PrgPhaseCommandsCommit := by
  intro s hm
  exact ⟨⟨_, exec_prgAbsorbStart hm, committed_commitBlock codeData s⟩,
    ⟨_, exec_prgSqueezeStart hm, committed_commitBlock codeOut s⟩,
    fun hk => ⟨_, exec_prgEncrStart hk, exec_prgDecrStart hk, committed_commitBlock codeText s⟩⟩

/-- Settles O48: the commit leaves T, which holds the old S, and that is added byte by byte. -/
theorem prgRatchetXorsTheSavedState : Obligations.PrgRatchetXorsTheSavedState := by
  intro s hm
  exact ⟨commitBlock codeNull s.S s.ctx, xorArrays (bashF (commitBlock codeNull s.S s.ctx)) s.S, exec_prgRatchet hm,
    committed_commitBlock codeNull s, fun j hj => elemAt_xorArrays _ _ j hj⟩

/-! ### The bytes of the four step commands (42_prg.md R253, R255, R257, R259) -/

/-- PRG_ABSORB leaves the byte of DBUF. -/
theorem rateBody_absorbByte : RateBody (fun a b => a ^^^ b) (fun _ b => b) absorbByte := by
  intro i s
  have hkeep : ∀ x, setDbufByte i (elemAt s.dbuf i) (setRateByte x s) = setRateByte x s := by
    simp [setDbufByte, setRateByte]
  rw [hkeep, absorbByte]

/-- PRG_SQUEEZE leaves the rate byte. -/
theorem rateBody_squeezeByte : RateBody (fun a _ => a) (fun a _ => a) squeezeByte := by
  intro i s
  have hkeep : setRateByte (rateByte s) s = s := by simp [setRateByte, rateByte]
  rw [hkeep, squeezeByte]

theorem rateBody_encrByte : RateBody (fun a b => a ^^^ b) (fun a b => a ^^^ b) encrByte := fun _ _ => rfl

/-- The plaintext byte XORed into the rate byte it came from is the ciphertext byte. -/
theorem rateBody_decrByte : RateBody (fun _ b => b) (fun a b => a ^^^ b) decrByte := by
  intro i s
  have hcipher : rateByte s ^^^ (elemAt s.dbuf i ^^^ rateByte s) = elemAt s.dbuf i := by
    rw [BitVec.xor_comm (elemAt s.dbuf i), ← BitVec.xor_assoc, BitVec.xor_self, BitVec.zero_xor]
  rw [decrByte, hcipher, BitVec.xor_comm (elemAt s.dbuf i)]
  rfl

/-! ### The step commands within the rate (42_prg.md R243) -/

theorem elemAt_rateAfter (f : Byte → Byte → Byte) (n : Nat) (s : State) {j : Nat} (hj : j < 192) :
    elemAt (rateAfter f n s) j =
      if s.ctx.pos.toNat ≤ j ∧ j < s.ctx.pos.toNat + n then f (elemAt s.S j) (elemAt s.dbuf (j - s.ctx.pos.toNat))
      else elemAt s.S j := by
  rw [rateAfter, elemAt_overlay _ _ _ _ _ hj]
  refine if_ctx_congr Iff.rfl (fun hin => ?_) fun _ => rfl
  rw [Nat.add_sub_cancel' hin.1]

theorem elemAt_rateAfter_xor (n : Nat) (s : State) {j : Nat} (hj : j < 192) :
    elemAt (rateAfter (fun a b => a ^^^ b) n s) j = elemAt s.S j ^^^
      (if s.ctx.pos.toNat ≤ j ∧ j < s.ctx.pos.toNat + n then elemAt s.dbuf (j - s.ctx.pos.toNat) else 0) := by
  rw [elemAt_rateAfter _ _ _ hj]
  split
  · rfl
  · exact BitVec.xor_zero.symm

/-- A byte that leaves the rate leaves S. -/
theorem rateAfter_keep (n : Nat) (s : State) : rateAfter (fun a _ => a) n s = s.S :=
  array_ext fun j hj => by rw [elemAt_rateAfter _ _ _ hj, ite_self]

theorem elemAt_dbufAfter (g : Byte → Byte → Byte) (n : Nat) (s : State) {i : Nat} (hi : i < 192) :
    elemAt (dbufAfter g n s) i =
      if i < n then g (elemAt s.S (s.ctx.pos.toNat + i)) (elemAt s.dbuf i) else elemAt s.dbuf i := by
  rw [dbufAfter, elemAt_overlay _ _ _ _ _ hi]
  exact if_congr (by omega) rfl rfl

/-- A byte that leaves its place in DBUF leaves DBUF. -/
theorem dbufAfter_keep (n : Nat) (s : State) : dbufAfter (fun _ b => b) n s = s.dbuf :=
  array_ext fun i hi => by rw [elemAt_dbufAfter _ _ _ hi, ite_self]

/-- Settles O42: the run within the rate of the byte that is XORed in, which leaves DBUF. -/
theorem prgAbsorbWithinTheRate : Obligations.PrgAbsorbWithinTheRate := by
  intro s n hm h
  refine ⟨rateAfter (fun a b => a ^^^ b) n s, ?_, fun j hj => elemAt_rateAfter_xor n s hj⟩
  rw [exec_prgAbsorb (le_of_fitsRate h) hm, forBytes_withinRate rateBody_absorbByte h, dbufAfter_keep,
    ← afterRate_dbuf n (rateAfter (fun a b => a ^^^ b) n s) s]

/-- Settles O43: the run within the rate of the byte that is copied out, which leaves S. -/
theorem prgSqueezeWithinTheRate : Obligations.PrgSqueezeWithinTheRate := by
  intro s n hm h
  refine ⟨dbufAfter (fun a _ => a) n s, ?_, fun i hi => elemAt_dbufAfter _ n s hi⟩
  rw [exec_prgSqueeze (le_of_fitsRate h) hm, forBytes_withinRate rateBody_squeezeByte h, rateAfter_keep]

/-- Settles O44: the run within the rate of the byte that is XORed in and read back. -/
theorem prgEncrWithinTheRate : Obligations.PrgEncrWithinTheRate := by
  intro s n hk h
  refine ⟨rateAfter (fun a b => a ^^^ b) n s, dbufAfter (fun a b => a ^^^ b) n s, ?_,
    fun j hj => elemAt_rateAfter_xor n s hj, fun i hi => elemAt_dbufAfter _ n s hi⟩
  rw [exec_prgEncr (le_of_fitsRate h) hk, forBytes_withinRate rateBody_encrByte h]

/-- Settles O45: the run within the rate of the byte that takes the ciphertext's place and gives the plaintext. -/
theorem prgDecrWithinTheRate : Obligations.PrgDecrWithinTheRate := by
  intro s n hk h
  refine ⟨rateAfter (fun _ b => b) n s, dbufAfter (fun a b => a ^^^ b) n s, ?_,
    fun j hj => elemAt_rateAfter _ n s hj, fun i hi => elemAt_dbufAfter _ n s hi⟩
  rw [exec_prgDecr (le_of_fitsRate h) hk, forBytes_withinRate rateBody_decrByte h]

/-! ### The step commands over every split (42_prg.md R248) -/

theorem splitInvariant_prgAbsorb :
    SplitInvariant .prgAbsorb (fun a b => a ^^^ b) (fun _ b => b) (fun c => c.mode = .prg) :=
  splitInvariant_of_rateBody rateBody_absorbByte (fun _ _ => exec_prgAbsorb) fun _ _ hm => hm

theorem splitInvariant_prgSqueeze :
    SplitInvariant .prgSqueeze (fun a _ => a) (fun a _ => a) (fun c => c.mode = .prg) :=
  splitInvariant_of_rateBody rateBody_squeezeByte (fun _ _ => exec_prgSqueeze) fun _ _ hm => hm

theorem splitInvariant_prgEncr : SplitInvariant .prgEncr (fun a b => a ^^^ b) (fun a b => a ^^^ b) KeyMode :=
  splitInvariant_of_rateBody rateBody_encrByte (fun _ _ => exec_prgEncr) fun _ _ hk => hk

theorem splitInvariant_prgDecr : SplitInvariant .prgDecr (fun _ b => b) (fun a b => a ^^^ b) KeyMode :=
  splitInvariant_of_rateBody rateBody_decrByte (fun _ _ => exec_prgDecr) fun _ _ hk => hk

/-- Settles O46: each of the four runs the loop of its byte wherever its checks hold. -/
theorem prgStepsAreSplitInvariant : Obligations.PrgStepsAreSplitInvariant :=
  ⟨splitInvariant_prgAbsorb, splitInvariant_prgSqueeze, splitInvariant_prgEncr, splitInvariant_prgDecr⟩

/-! ### The rate, key mode and the phase after each command (42_prg.md R245, R247) -/

/-- The part of CTX that the rate and key mode are made of. -/
def rateContext (s : State) : Ctx := { s.ctx with pos := 0, phase := .none }

theorem rateContext_buffLen (s : State) : (rateContext s).buffLen = s.ctx.buffLen := rfl

theorem keyMode_rateContext (s : State) : KeyMode (rateContext s) ↔ KeyMode s.ctx := Iff.rfl

theorem forBytes_ctx {body : Nat → State → State} (hb : StepBody body) (n : Nat) (s : State) :
    ∃ p, (forBytes n body s).ctx = { s.ctx with pos := p } := by
  obtain ⟨A, D, p, ht, -⟩ := forBytes_stepFrame hb n s
  exact ⟨p, by rw [ht]⟩

theorem forBytes_rateContext {body : Nat → State → State} (hb : StepBody body) (n : Nat) (s : State) :
    rateContext (forBytes n body s) = rateContext s := by
  obtain ⟨p, hctx⟩ := forBytes_ctx hb n s
  simp [rateContext, hctx]

theorem forBytes_phase {body : Nat → State → State} (hb : StepBody body) (n : Nat) (s : State) :
    (forBytes n body s).ctx.phase = s.ctx.phase := by
  obtain ⟨p, hctx⟩ := forBytes_ctx hb n s
  rw [hctx]

/-- The effects that change more of CTX than `pos` and the phase are four. -/
theorem effectOf_rateContext {i : Instr} (s : State) (hinit : ∀ l, i ≠ .hashInit l)
    (hstart : ∀ l d ann key, i ≠ .prgStart l d ann key) (hreset : i ≠ .sreset)
    (hrestart : ∀ ann key, i = .prgRestart ann key → key = 0) : rateContext (effectOf i s) = rateContext s := by
  cases i with
  | hashInit l => exact absurd rfl (hinit l)
  | prgStart l d ann key => exact absurd rfl (hstart l d ann key)
  | sreset => exact absurd rfl hreset
  | prgRestart ann key =>
    obtain rfl := hrestart ann key rfl
    simp [rateContext, effectOf, restart_ctx]
  | hashStep n => exact forBytes_rateContext stepBody_hashStepByte n s
  | prgAbsorb n => exact forBytes_rateContext stepBody_absorbByte n s
  | prgSqueeze n => exact forBytes_rateContext stepBody_squeezeByte n s
  | prgEncr n => exact forBytes_rateContext stepBody_encrByte n s
  | prgDecr n => exact forBytes_rateContext stepBody_decrByte n s
  | nop | clrerr | bashf | hashFinal | hashVerify | prgAbsorbStart | prgSqueezeStart | prgEncrStart | prgDecrStart
  | prgRatchet | beltEnc | beltDec => rfl

/-- Settles O50: what the rate and key mode are made of is left by every other command, failed or not. -/
theorem onlyStartsAndRekeyingChangeTheRate : Obligations.OnlyStartsAndRekeyingChangeTheRate := by
  intro i s t h hinit hstart hreset hrestart
  have hkeep : rateContext t = rateContext s :=
    exec_keeps (f := rateContext) h (fun _ _ => rfl) (effectOf_rateContext s hinit hstart hreset hrestart)
  exact ⟨by rw [← rateContext_buffLen t, hkeep, rateContext_buffLen],
    by rw [← keyMode_rateContext t, hkeep, keyMode_rateContext]⟩

theorem effectOf_phase (i : Instr) (s : State) : (effectOf i s).ctx.phase = phaseAfter i s.ctx.phase := by
  cases i with
  | hashStep n => exact forBytes_phase stepBody_hashStepByte n s
  | prgAbsorb n => exact forBytes_phase stepBody_absorbByte n s
  | prgSqueeze n => exact forBytes_phase stepBody_squeezeByte n s
  | prgEncr n => exact forBytes_phase stepBody_encrByte n s
  | prgDecr n => exact forBytes_phase stepBody_decrByte n s
  | nop | clrerr | sreset | bashf | hashInit _ | hashFinal | hashVerify | prgStart _ _ _ _ | prgRestart _ _
  | prgAbsorbStart | prgSqueezeStart | prgEncrStart | prgDecrStart | prgRatchet | beltEnc | beltDec => rfl

/-- Settles O51: a command that does not fail has its effect, and each effect its phase. -/
theorem phaseAfterEachCommand : Obligations.PhaseAfterEachCommand := by
  intro i s t _ h hok
  rcases exec_cases h with ⟨-, rfl⟩ | ⟨code, hcode, rfl⟩
  · exact effectOf_phase i s
  · exact absurd hok hcode

/-! ### Streams (42_prg.md R248) -/

theorem length_stream (f g : Byte → Byte → Byte) (buffLen : BitVec 8) (x : List Byte)
    (st : Vector Byte 192 × BitVec 8) : (stream f g buffLen x st).1.length = x.length := by
  induction x generalizing st with
  | nil => rfl
  | cons b x ih =>
    obtain ⟨A, pos⟩ := st
    simp only [stream, List.length_cons, ih]

/-- The byte loop of decryption over the ciphertext goes through the states of encryption: at each byte the rate takes
the same ciphertext byte, and the old rate byte XORed in twice leaves the plaintext byte (42_prg.md R259, R261). -/
theorem stream_decr_encr (buffLen : BitVec 8) (x : List Byte) (st : Vector Byte 192 × BitVec 8) :
    stream (fun _ b => b) (fun a b => a ^^^ b) buffLen (stream (fun a b => a ^^^ b) (fun a b => a ^^^ b) buffLen x st).1
      st = (x, (stream (fun a b => a ^^^ b) (fun a b => a ^^^ b) buffLen x st).2) := by
  induction x generalizing st with
  | nil => rfl
  | cons b x ih =>
    obtain ⟨A, pos⟩ := st
    have hplain : elemAt A pos.toNat ^^^ (elemAt A pos.toNat ^^^ b) = b := by
      rw [← BitVec.xor_assoc, BitVec.xor_self, BitVec.zero_xor]
    simp only [stream, ih, hplain]

/-- `chunks` is a split into pieces that fit DBUF (30_encoding.md R128). -/
theorem length_of_mem_chunks {X x : List Byte} (h : x ∈ chunks X) : x.length ≤ 192 := by
  obtain ⟨k, -, rfl⟩ := List.mem_map.1 h
  exact List.length_take_le 192 _

theorem flatten_map_take_drop (X : List Byte) (m : Nat) :
    ((List.range m).map fun k => (X.drop (192 * k)).take 192).flatten = X.take (192 * m) := by
  induction m with
  | zero => simp
  | succ m ih =>
    rw [List.range_succ, List.map_append, List.flatten_append, ih, Nat.mul_succ, List.take_add]
    simp

theorem flatten_chunks (X : List Byte) : (chunks X).flatten = X := by
  rw [chunks, flatten_map_take_drop, List.take_of_length_le (by omega)]

/-! ### The AEAD round trip (42_prg.md R261) -/

theorem issue1_eq {i : Instr} {s t : State} (h : exec i s = .next t) : issue1 i s = some t := by rw [issue1, h]

/-- The AEAD sequence, stage by stage: `a` after the header, `b` after the text, `t` after the tag. -/
theorem aeadRun_eq {start : Instr} {mk : Nat → Instr} {header text out tag x : List Byte} {tagPieces : List Nat}
    {s a a' b t : State} (hm : s.ctx.mode = .prg) (hmb : b.ctx.mode = .prg)
    (habsorb : runPieces .prgAbsorb (chunks header) (enterPhase codeData .absorb s) = some (x, a))
    (hstart : exec start a = .next a') (htext : runPieces mk (chunks text) a' = some (out, b))
    (htag : runPieces .prgSqueeze (tagPieces.map fun c => List.replicate c 0) (enterPhase codeOut .squeeze b) =
      some (tag, t)) : aeadRun start mk header text tagPieces s = some (out, tag, t) := by
  simp only [aeadRun, issue1_eq (exec_prgAbsorbStart hm), habsorb, issue1_eq hstart, htext,
    issue1_eq (exec_prgSqueezeStart hmb), htag, Option.bind_eq_bind, Option.bind_some, Option.pure_def]

/-- Encryption of a text and decryption of its ciphertext, from one keyed state, end in the same S and CTX but for the
phase. -/
theorem encr_decr_text {a : State} (hk : KeyMode a.ctx) (plaintext : List Byte) :
    ∃ ciphertext b b', b.ctx.mode = .prg ∧
      runPieces .prgEncr (chunks plaintext) (enterPhase codeText .encr a) = some (ciphertext, b) ∧
      runPieces .prgDecr (chunks ciphertext) (enterPhase codeText .decr a) = some (plaintext, b') ∧
      b'.S = b.S ∧ b'.ctx = { b.ctx with phase := .decr } := by
  obtain ⟨ciphertext, b, hencr, hstream, hframe⟩ :=
    splitInvariant_prgEncr (chunks plaintext) (enterPhase codeText .encr a) (fun _ => length_of_mem_chunks) hk
  obtain ⟨out, b', hdecr, hstream', hframe'⟩ :=
    splitInvariant_prgDecr (chunks ciphertext) (enterPhase codeText .decr a) (fun _ => length_of_mem_chunks) hk
  rw [flatten_chunks] at hstream hstream'
  have hback := stream_decr_encr a.ctx.buffLen plaintext ((enterPhase codeText .encr a).S, 0)
  have hsame : (plaintext, (b.S, b.ctx.pos)) = (out, (b'.S, b'.ctx.pos)) := by
    rw [← hstream']
    exact (hstream ▸ hback).symm
  obtain ⟨rfl, hS, hpos⟩ : plaintext = out ∧ b.S = b'.S ∧ b.ctx.pos = b'.ctx.pos := by simpa using hsame
  refine ⟨ciphertext, b, b', by rw [hframe]; exact hk.1, hencr, hdecr, hS.symm, ?_⟩
  rw [hframe', hframe, hpos]
  rfl

/-- The tag and the end of a sequence depend on S and CTX after the text, and on no phase there. -/
theorem tag_of_sameSponge {b b' : State} {p : Phase} (hm : b.ctx.mode = .prg) (hS : b'.S = b.S)
    (hctx : b'.ctx = { b.ctx with phase := p }) {pieces : List Nat} (hpieces : ∀ c ∈ pieces, c ≤ 192) :
    ∃ tag t t', tag.length = pieces.sum ∧
      runPieces .prgSqueeze (pieces.map fun c => List.replicate c 0) (enterPhase codeOut .squeeze b) = some (tag, t) ∧
      runPieces .prgSqueeze (pieces.map fun c => List.replicate c 0) (enterPhase codeOut .squeeze b') = some (tag, t') ∧
      t'.S = t.S ∧ t'.ctx = t.ctx := by
  have hzeros : ∀ x ∈ pieces.map fun c => List.replicate c (0 : Byte), x.length ≤ 192 := by simpa using hpieces
  have hm' : b'.ctx.mode = .prg := by rw [hctx]; exact hm
  obtain ⟨tag, t, hrun, hstream, hframe⟩ := splitInvariant_prgSqueeze _ (enterPhase codeOut .squeeze b) hzeros hm
  obtain ⟨tag', t', hrun', hstream', hframe'⟩ := splitInvariant_prgSqueeze _ (enterPhase codeOut .squeeze b') hzeros hm'
  have hS' : (enterPhase codeOut .squeeze b').S = (enterPhase codeOut .squeeze b).S := by
    simp only [enterPhase, setPhase_S, commit_S, commitBlock, hS, hctx]
  have hctx' : (enterPhase codeOut .squeeze b').ctx = (enterPhase codeOut .squeeze b).ctx := by
    simp only [enterPhase, setPhase_ctx, commit_ctx, hctx]
  rw [hS', hctx', hstream] at hstream'
  obtain ⟨rfl, hSt, hpos⟩ : tag = tag' ∧ t.S = t'.S ∧ t.ctx.pos = t'.ctx.pos := by simpa using hstream'
  refine ⟨tag, t, t', ?_, hrun, hrun', hSt.symm, ?_⟩
  · refine (congrArg (fun r => r.1.length) hstream).symm.trans ((length_stream _ _ _ _ _).trans ?_)
    simp [Function.comp_def]
  · rw [hframe', hframe, hctx', hpos]

/-- Settles O49: both sequences absorb the header alike, meet again after the text but for DBUF and the phase, and so
squeeze the same tag. -/
theorem aeadRoundTrip : Obligations.AeadRoundTrip := by
  intro s header plaintext n pieces hk hsum hpieces
  obtain ⟨x, a, habsorb, -, hframe⟩ :=
    splitInvariant_prgAbsorb (chunks header) (enterPhase codeData .absorb s) (fun _ => length_of_mem_chunks) hk.1
  have hka : KeyMode a.ctx := by rw [hframe]; exact hk
  obtain ⟨ciphertext, b, b', hm, hencr, hdecr, hS, hctx⟩ := encr_decr_text hka plaintext
  have hm' : b'.ctx.mode = .prg := by rw [hctx]; exact hm
  obtain ⟨tag, t, t', hlen, htag, htag', hSt, hctxt⟩ := tag_of_sameSponge hm hS hctx hpieces
  exact ⟨ciphertext, tag, t, t', hlen.trans hsum,
    aeadRun_eq hk.1 hm habsorb (exec_prgEncrStart hka) hencr htag,
    aeadRun_eq hk.1 hm' habsorb (exec_prgDecrStart hka) hdecr htag', hSt, hctxt⟩

end Sys2Proof.Proofs
end

section
/-! PROOFS of the statements of 43_belt.md. A round run backwards, with its keys reversed, is the round itself on the
variables in reverse order, and the permutation of encryption made twice is that order: so each round of decryption
takes back one round of encryption. A table entry of the G-functions is a substituted byte rotated into its place. -/

namespace Sys2Proof.Proofs

open Sys2Proof Sys2Proof.Machine Sys2Proof.Claims Sys2Proof.Laws

/-! ### A round undoes itself on the reversed variables (43_belt.md R305, R311) -/

/-- `(d, c, b, a)`, the permutation of encryption, or that of decryption, made twice. -/
def quadReverse (q : Quad) : Quad := q.permuteEncr.permuteEncr

/-- The second run takes back the lines of the first, last line first: a line and the one that takes it back read the
same words, for the sum `b + c` under `e` is the same before and after `b + e` and `c − e`. -/
theorem beltRound_reverse_beltRound (q : Quad) (k : Nat → Word) (i : Nat) :
    beltRound (quadReverse (beltRound q k i)) (fun j => k (8 - j)) i = quadReverse q := by
  obtain ⟨a, b, c, d⟩ := q
  have hxor : ∀ x y : Word, x ^^^ y ^^^ y = x := xor_cancel_right
  have hsum : ∀ x y e : Word, y - e + (x + e) = x + y := fun x y e => by ring
  simp only [beltRound, quadReverse, Quad.permuteEncr, hxor, BitVec.add_sub_cancel, BitVec.sub_add_cancel, hsum]

/-- One round of decryption, between the permutations, takes back one round of encryption. -/
theorem decrRound_encrRound (key : Vector Word 8) (i : Nat) (q : Quad) :
    (beltRound (beltRound q (encrKeys key i) i).permuteEncr.permuteEncr (decrKeys key i) i).permuteDecr =
      q.permuteEncr := by
  have hround : beltRound (beltRound q (encrKeys key i) i).permuteEncr.permuteEncr (decrKeys key i) i = quadReverse q :=
    beltRound_reverse_beltRound q (encrKeys key i) i
  rw [hround]
  rfl

/-! ### The eight rounds (43_belt.md R307, R308, R311) -/

/-- A loop is taken back by the loop of the inverse steps in the reverse order; `p` stands between the two. -/
theorem foldl_reverse_foldl {α β : Type} {f g : α → β → α} {p : α → α} (h : ∀ x i, g (p (f x i)) i = p x) (is : List β)
    (x : α) : is.reverse.foldl g (p (is.foldl f x)) = p x := by
  induction is generalizing x with
  | nil => rfl
  | cons i is ih => rw [List.foldl_cons, List.reverse_cons, List.foldl_append, ih, List.foldl_cons, h, List.foldl_nil]

/-- `Decr` with its rounds listed downwards. -/
theorem beltDecr_eq_reverse (key : Vector Word 8) (y : Quad) :
    beltDecr key y =
      ((List.range 8).reverse.foldl (fun q i => (beltRound q (decrKeys key i) i).permuteDecr) y).permuteDecr := by
  have hdown : (List.range 8).reverse = (List.range 8).map (7 - ·) := by decide
  rw [hdown, List.foldl_map, beltDecr]

theorem beltDecr_beltEncr (key : Vector Word 8) (x : Quad) : beltDecr key (beltEncr key x) = x := by
  rw [beltDecr_eq_reverse, beltEncr,
    foldl_reverse_foldl (p := Quad.permuteEncr) (fun q i => decrRound_encrRound key i q)]
  rfl

/-! ### The two commands (43_belt.md R300, R309, R310) -/

@[simp] theorem quadOf_quadBlock (q : Quad) : quadOf (quadBlock q) = q := rfl

@[simp] theorem quadBlock_quadOf (b : Vector Word 4) : quadBlock (quadOf b) = b :=
  array_ext fun i hi => by
    match i, hi with
    | 0, _ | 1, _ | 2, _ | 3, _ => rfl

theorem exec_beltEnc (s : State) : exec .beltEnc s = .next { s with blk := quadBlock (beltEncr s.key (quadOf s.blk)) } :=
  exec_pass rfl

theorem exec_beltDec (s : State) : exec .beltDec s = .next { s with blk := quadBlock (beltDecr s.key (quadOf s.blk)) } :=
  exec_pass rfl

/-- Settles O55: each command writes the transform of BLK, whose words are read back as written. -/
theorem beltCommandsTransformTheBlock : Obligations.BeltCommandsTransformTheBlock := by
  rintro s x rfl
  exact ⟨⟨_, exec_beltEnc s, (quadOf_quadBlock _).symm⟩, ⟨_, exec_beltDec s, (quadOf_quadBlock _).symm⟩⟩

/-- Settles O56: decryption takes back the eight rounds, and BELT_ENC leaves KEY for BELT_DEC. -/
theorem beltDecryptionInvertsEncryption : Obligations.BeltDecryptionInvertsEncryption := by
  refine ⟨beltDecr_beltEncr, fun s => ⟨_, exec_beltEnc s, ?_⟩⟩
  rw [exec_beltDec]
  simp only [quadOf_quadBlock, beltDecr_beltEncr, quadBlock_quadOf]

/-! ### The G-functions (43_belt.md R302 to R304) -/

theorem getLsbD_rotl32 (x : Word) (r : Nat) {i : Nat} (hi : i < 32) :
    (rotl32 x r).getLsbD i = x.getLsbD ((i + (32 - r % 32)) % 32) := by
  rw [rotl32, BitVec.getLsbD_rotateLeft]
  by_cases h : i < r % 32
  · rw [decide_eq_true h, cond_true, show 32 - r % 32 + i = (i + (32 - r % 32)) % 32 by omega]
  · rw [decide_eq_false h, decide_eq_true hi, cond_false, Bool.true_and,
      show i - r % 32 = (i + (32 - r % 32)) % 32 by omega]

theorem rotl32_or (x y : Word) (r : Nat) : rotl32 (x ||| y) r = rotl32 x r ||| rotl32 y r := by
  refine BitVec.eq_of_getLsbD_eq fun i hi => ?_
  simp only [BitVec.getLsbD_or, getLsbD_rotl32 _ _ hi]

theorem rotl32_rotl32 (x : Word) (r t : Nat) : rotl32 (rotl32 x r) t = rotl32 x (r + t) := by
  refine BitVec.eq_of_getLsbD_eq fun i hi => ?_
  rw [getLsbD_rotl32 _ _ hi, getLsbD_rotl32 _ _ hi, getLsbD_rotl32 _ _ (Nat.mod_lt _ (by decide))]
  congr 1
  omega

/-- Shifting a byte to a place inside the word loses no bit of it. -/
theorem shiftLeft_byte_eq_rotl32 (b : Byte) {r : Nat} (hr : r ≤ 24) : b.setWidth 32 <<< r = rotl32 (b.setWidth 32) r := by
  refine BitVec.eq_of_getLsbD_eq fun i hi => ?_
  rw [getLsbD_rotl32 _ _ hi, BitVec.getLsbD_shiftLeft]
  by_cases h : i < r
  · have hout : 8 ≤ (i + (32 - r % 32)) % 32 := by omega
    simp [h, BitVec.getLsbD_of_ge b _ hout]
  · rw [show (i + (32 - r % 32)) % 32 = i - r by omega]
    simp [h, hi]

/-- `H_r[x]`, the substituted byte rotated left by `r` (43_belt.md R302). -/
def tableEntry (r : Nat) (x : Byte) : Word := rotl32 ((sboxH x).setWidth 32) r

theorem tableH5_eq (x : Byte) : tableH5 x = tableEntry 5 x := rfl
theorem tableH13_eq (x : Byte) : tableH13 x = tableEntry 13 x := rotl32_rotl32 _ 5 8
theorem tableH21_eq (x : Byte) : tableH21 x = tableEntry 21 x := rotl32_rotl32 _ 5 16
theorem tableH29_eq (x : Byte) : tableH29 x = tableEntry 29 x := rotl32_rotl32 _ 5 24

theorem tableEntry_add_32 (r : Nat) (x : Byte) : tableEntry (32 + r) x = tableEntry r x := by
  rw [tableEntry, rotl32, ← BitVec.rotateLeft_mod_eq_rotateLeft, Nat.add_mod_left, BitVec.rotateLeft_mod_eq_rotateLeft,
    tableEntry, rotl32]

/-- Byte `k` of the substituted word, rotated by `r`, is the table entry `H_(r+8k)` (43_belt.md R304). -/
theorem rotl32_substituteBytes (u : Word) (r : Nat) :
    rotl32 (substituteBytes u) r = tableEntry r (leByte u 0) ||| tableEntry (8 + r) (leByte u 1) |||
      tableEntry (16 + r) (leByte u 2) ||| tableEntry (24 + r) (leByte u 3) := by
  have hplace : ∀ (x : Byte) (m : Nat), m ≤ 24 → rotl32 ((sboxH x).setWidth 32 <<< m) r = tableEntry (m + r) x := by
    intro x m hm
    rw [shiftLeft_byte_eq_rotl32 _ hm, rotl32_rotl32, tableEntry]
  rw [substituteBytes, rotl32_or, rotl32_or, rotl32_or, hplace _ 8 (by decide), hplace _ 16 (by decide),
    hplace _ 24 (by decide)]
  rfl

/-- Settles O57: the entries of the three G-functions are those of the rotated word, `H_(r+8k)` taken mod 32. -/
theorem gFunctionsAreRotatedSubstitutions : Obligations.GFunctionsAreRotatedSubstitutions := by
  intro u
  have hg5 : g5 u = rotl32 (substituteBytes u) 5 := by
    rw [rotl32_substituteBytes, g5, tableH5_eq, tableH13_eq, tableH21_eq, tableH29_eq]
  have hg13 : g13 u = rotl32 (substituteBytes u) 13 := by
    rw [rotl32_substituteBytes, g13, tableH13_eq, tableH21_eq, tableH29_eq, tableH5_eq, tableEntry_add_32 5]
  have hg21 : g21 u = rotl32 (substituteBytes u) 21 := by
    rw [rotl32_substituteBytes, g21, tableH21_eq, tableH29_eq, tableH5_eq, tableH13_eq, tableEntry_add_32 5,
      tableEntry_add_32 13]
  exact ⟨hg5, hg13, hg21⟩

end Sys2Proof.Proofs
end

section
/-! PROOFS of the statements of 44_control.md. The three commands have no check, so each has its effect in every state.
A word that fails has written `err` and `errop` alone, the two fields CLRERR writes. -/

namespace Sys2Proof.Proofs

open Sys2Proof Sys2Proof.Machine Sys2Proof.Claims Sys2Proof.Laws

/-! ### The three commands (44_control.md R340 to R342) -/

theorem exec_nop (s : State) : exec .nop s = .next s := exec_pass rfl

theorem exec_clrerr (s : State) : exec .clrerr s = .next (clearError s) := exec_pass rfl

theorem exec_sreset (s : State) : exec .sreset s = .next (resetEngine s) := exec_pass rfl

theorem engineReset_resetEngine (s : State) : EngineReset (resetEngine s) := by
  unfold EngineReset SameEngine
  simp

/-- Settles O27: each command has its effect; that of CLRERR writes `err` and `errop`, that of SRESET every element of
the engine and nothing of the host's. -/
theorem controlCommandEffects : Obligations.ControlCommandEffects := fun s =>
  ⟨exec_nop s, exec_clrerr s, resetEngine s, exec_sreset s, engineReset_resetEngine s, rfl, rfl, rfl⟩

/-! ### CLRERR after a failed command (44_control.md R341, 60_exceptions.md R365) -/

/-- From a state without error, a word that leaves an error has recorded it and done nothing else: no effect of a
command brings an error about. -/
theorem execWord_failed {w : Word} {s t : State} (herr : s.err = .ok) (h : execWord w s = .next t) (hfail : t.err ≠ .ok) :
    t = setErr t.err (opByte w) s := by
  rcases execWord_cases h with ⟨i, -, -, rfl⟩ | ⟨code, -, rfl⟩
  · have hok : (effectOf i s).err = .ok := by
      rcases effectOf_err i s with ⟨hkept, -⟩ | ⟨hcleared, -⟩
      · exact hkept.trans herr
      · exact hcleared
    exact absurd hok hfail
  · rfl

/-- Clearing overwrites whatever error was recorded. -/
theorem clearError_setErr (code : ErrCode) (op : Byte) (s : State) : clearError (setErr code op s) = clearError s := rfl

/-- Without an error there is nothing to clear. -/
theorem clearError_of_noError {s : State} (herr : s.err = .ok) (herrop : s.errop = 0) : clearError s = s := by
  rw [clearError, setErr, ← herr, ← herrop]

/-- Settles O24: the failed word is undone by clearing the error it recorded. -/
theorem clrerrUndoesAFailedCommand : Obligations.ClrerrUndoesAFailedCommand := by
  intro w s t herr herrop h hfail
  rw [exec_clrerr, execWord_failed herr h hfail, clearError_setErr, clearError_of_noError herr herrop]

end Sys2Proof.Proofs
end

section
/-! PROOFS of the statements of 60_exceptions.md. The checks of a command are the error its rules expect, so what a word
reports is read off the two tables of 10_state.md's part. While a command waits, an action that is no access error and
no reset leaves the engine as it is, and the wait is an induction over the steps left. -/

namespace Sys2Proof.Proofs

open Sys2Proof Sys2Proof.Machine Sys2Proof.Claims Sys2Proof.Laws

/-! ### A write of CMD (60_exceptions.md R361) -/

/-- While nothing is pending, the step of a write of CMD is the acceptance test on the word. -/
theorem step_cmdWrite {s : State} {w : Word} {rest : List HostEvent} (hi : s.inbox = .write 0x004 32 w :: rest)
    (hp : s.pending = none) (hb : s.busy = false) : step s = .next (issue w { s with inbox := rest }) := by
  have hwrite : busWrite 0x004 w { s with inbox := rest } = issue w { s with inbox := rest } := busWrite_idle _ _ _ hb
  rw [step_idle hp, surroundings_cons s _ rest hi, hostAction, if_pos (accessDefined_word rfl), hwrite]

/-- Settles O7: an idle engine takes the word exactly when the acceptance test holds; while busy this is a write like
any other, which O8 says is ignored. -/
theorem cmdWriteIssuesACommand : Obligations.CmdWriteIssuesACommand := by
  refine ⟨fun s w rest hi hp hb => ?idle, fun s w w' rest hi hp hb hd => ?busy⟩
  case idle =>
    rw [step_cmdWrite hi hp hb]
    rcases issue_cases w { s with inbox := rest } with ⟨-, hw, he⟩ | ⟨hno, he⟩ <;> rw [he]
    · exact ⟨fun _ => ⟨_, rfl⟩, fun hno => absurd hw hno⟩
    · exact ⟨fun hw => absurd ⟨hb, hw⟩ hno, fun _ => rfl⟩
  case busy => exact writesWhileBusyAreIgnored s w' w 0x004 rest hb hp hd rfl hi

/-! ### Execution and completion (60_exceptions.md R362) -/

/-- Settles O6: the word's execution is that of its command, and the step completes it. -/
theorem stepRunsThePendingCommand : Obligations.StepRunsThePendingCommand := by
  intro s t w i hp hd hdec hexec
  rw [step_due hp hd, execWord_ok hdec, hexec]
  rfl

theorem sameEngine_refl (s : State) : SameEngine s s := ⟨rfl, rfl, rfl, rfl, rfl, rfl, rfl, rfl, rfl, rfl, rfl⟩

theorem sameEngine_trans {s t u : State} (hst : SameEngine s t) (htu : SameEngine t u) : SameEngine s u := by
  unfold SameEngine at *
  simp [hst, htu]

theorem sameEngine_busy {s t : State} (h : SameEngine s t) : t.busy = s.busy := h.1

theorem sameEngine_pending {s t : State} (h : SameEngine s t) : t.pending = s.pending := by
  obtain ⟨-, -, -, -, -, -, -, -, -, -, hpending⟩ := h
  exact hpending

/-- The next `n` actions are harmless. -/
def HarmlessFor (n : Nat) (actions : List HostEvent) : Prop := ∀ e ∈ actions.take n, harmless e = true

theorem harmlessFor_succ_cons {n : Nat} {e : HostEvent} {rest : List HostEvent} :
    HarmlessFor (n + 1) (e :: rest) ↔ harmless e = true ∧ HarmlessFor n rest := List.forall_mem_cons

theorem HarmlessFor.mono {m n : Nat} {actions : List HostEvent} (h : HarmlessFor n actions) (hmn : m ≤ n) :
    HarmlessFor m actions := fun e he => h e (List.take_subset_take_left actions hmn he)

/-- A poll put back at the head is harmless too. -/
theorem HarmlessFor.wait_cons {n : Nat} {actions : List HostEvent} (h : HarmlessFor n actions) :
    HarmlessFor n (.wait :: actions) := by
  cases n with
  | zero => exact fun _ he => absurd he (by simp)
  | succ n => exact harmlessFor_succ_cons.2 ⟨rfl, h.mono (Nat.le_succ n)⟩

/-- A harmless action on a busy engine: writes are ignored and reads have no effect on it (20_memory.md R88, R93), and
at most a poll is put back. -/
theorem hostAction_busy {e : HostEvent} {s : State} (he : harmless e = true) (hb : s.busy = true) :
    ∃ u, hostAction e s = .next u ∧ SameEngine s u ∧ u.delay = s.delay ∧
      (u.inbox = s.inbox ∨ u.inbox = .wait :: s.inbox) := by
  cases e with
  | idle => exact ⟨s, rfl, sameEngine_refl s, rfl, .inl rfl⟩
  | read off width => exact ⟨_, if_pos he, sameEngine_busRead off s, rfl, .inl rfl⟩
  | write off width v =>
    exact ⟨s, (if_pos he).trans (by rw [busWrite_busy off v s hb]), sameEngine_refl s, rfl, .inl rfl⟩
  | wait =>
    refine ⟨_, rfl, ?_⟩
    rw [pollStatus_eq, hb]
    exact ⟨sameEngine_busRead 0x008 s, rfl, .inr rfl⟩
  | hwReset => exact absurd he (by decide)

/-- A step of the wait: the engine is unchanged, the latency is one less, and the actions left are still harmless. -/
theorem step_wait {s : State} {w : Word} {d : Nat} (hp : s.pending = some w) (hb : s.busy = true)
    (hd : s.delay = d + 1) (hharmless : HarmlessFor (d + 1) s.inbox) :
    ∃ u, step s = .next u ∧ SameEngine s u ∧ u.delay = d ∧ HarmlessFor d u.inbox := by
  have hstep : step s = surroundings { s with delay := d } := by
    rw [step_waiting hp (by omega), hd, Nat.add_sub_cancel]
  cases hi : s.inbox with
  | nil =>
    have hnone : HarmlessFor d s.inbox := by simp [HarmlessFor, hi]
    exact ⟨_, hstep.trans (surroundings_nil { s with delay := d } hi), sameEngine_refl s, rfl, hnone⟩
  | cons e rest =>
    rw [hstep, surroundings_cons { s with delay := d } e rest hi]
    rw [hi, harmlessFor_succ_cons] at hharmless
    obtain ⟨he, hrest⟩ := hharmless
    obtain ⟨u, hu, hsame, hdelay, hinbox⟩ := hostAction_busy (s := { s with delay := d, inbox := rest }) he hb
    refine ⟨u, hu, hsame, hdelay, ?_⟩
    rcases hinbox with hinbox | hinbox <;> rw [hinbox]
    · exact hrest
    · exact hrest.wait_cons

/-- The wait: after its latency a pending command is due, and the engine is as it was; the run goes on from there. -/
theorem run_wait {w : Word} (d : Nat) {s : State} (hp : s.pending = some w) (hb : s.busy = true) (hd : s.delay = d)
    (hharmless : HarmlessFor d s.inbox) :
    ∃ u, SameEngine s u ∧ u.delay = 0 ∧ ∀ m, core.run (d + m) s = core.run m u := by
  induction d generalizing s with
  | zero => exact ⟨s, sameEngine_refl s, hd, fun m => by rw [Nat.zero_add]⟩
  | succ d ih =>
    obtain ⟨t, hstep, hst, hdelay, hrest⟩ := step_wait hp hb hd hharmless
    have hpending := (sameEngine_pending hst).trans hp
    have hbusy := (sameEngine_busy hst).trans hb
    obtain ⟨u, htu, hdue, hrun⟩ := ih hpending hbusy hdelay hrest
    refine ⟨u, sameEngine_trans hst htu, hdue, fun m => ?_⟩
    rw [Nat.add_right_comm, run_succ hstep, hrun]

/-- Settles O20: the wait, and then the step of a due word, whose execution always answers. -/
theorem acceptedCommandCompletes : Obligations.AcceptedCommandCompletes := by
  intro s w hp hb hharmless
  obtain ⟨u, hsame, hdue, hrun⟩ := run_wait s.delay hp hb rfl hharmless
  have hpending : u.pending = some w := (sameEngine_pending hsame).trans hp
  obtain ⟨v, hv⟩ := execWord_next w u
  have hstep : step u = .next (complete v) := by rw [step_due hpending hdue, hv, completed]
  exact ⟨u, v, complete v, hrun 0, hsame, hdue, hv, rfl, (hrun 1).trans (run_succ hstep 0)⟩

/-! ### The checks in their order (60_exceptions.md R363) -/

/-- The checks of a step command of a Prg context, with a key-mode check or without (42_prg.md R246). -/
theorem firstFailure_prgStep (s : State) (n : Nat) :
    firstFailure [needPrg s, needCount n] = prgStepError n false s.ctx ∧
    firstFailure [needPrg s, needCount n, needKeyMode s] = prgStepError n true s.ctx := by
  by_cases hm : s.ctx.mode = .prg
  · by_cases hn : n ≤ 192
    · by_cases hk : KeyMode s.ctx
      · simp [firstFailure_needPrg hm, firstFailure_needCount hn, firstFailure_needKeyMode hk, prgStepError, hm, hn,
          hk]
      · simp [firstFailure_needPrg hm, firstFailure_needCount hn, prgStepError, hm, hn, hk, needKeyMode, keyMode_iff]
    · simp [firstFailure_needPrg hm, prgStepError, hm, hn, needCount, countFits]
  · simp [prgStepError, hm, needPrg]

/-- The first check that fails is the error the rules expect, a function of the command and CTX. -/
theorem firstFailure_checksOf (i : Instr) (s : State) : firstFailure (checksOf i s) = expectedError i s.ctx := by
  cases i with
  | nop | clrerr | sreset | bashf | beltEnc | beltDec => rfl
  | hashInit l => simp [checksOf, expectedError, hashLevel]
  | hashStep n =>
    by_cases hm : s.ctx.mode = .hash
    · by_cases hn : n ≤ 192 <;> simp [checksOf, expectedError, needHash, needCount, countFits, hm, hn]
    · simp [checksOf, expectedError, needHash, hm]
  | hashFinal | hashVerify => simp [checksOf, expectedError, needHash]
  | prgStart l d ann key => simp [checksOf, expectedError, startLengths_iff]
  | prgRestart ann key => simp [checksOf, expectedError, needPrg, headerLengths_iff]
  | prgAbsorbStart | prgSqueezeStart | prgRatchet => exact (firstFailure_prgStep s 0).1
  | prgAbsorb n | prgSqueeze n => exact (firstFailure_prgStep s n).1
  | prgEncrStart | prgDecrStart => exact (firstFailure_prgStep s 0).2
  | prgEncr n | prgDecr n => exact (firstFailure_prgStep s n).2

/-- The error fields are left by every effect but those of CLRERR and SRESET. -/
theorem effectOf_keepsError {i : Instr} (s : State) (hclrerr : i ≠ .clrerr) (hsreset : i ≠ .sreset) :
    (effectOf i s).err = s.err ∧ (effectOf i s).errop = s.errop := by
  rcases effectOf_cases i s with ⟨A, X, D, c, ht⟩ | rfl | rfl | rfl | rfl | rfl
  · rw [ht]
    exact ⟨rfl, rfl⟩
  · exact absurd rfl hclrerr
  · exact absurd rfl hsreset
  all_goals exact ⟨rfl, rfl⟩

/-- Settles O23: by O5 a word that hits no row does not decode; a word that decodes makes its command's checks, and then
has its effect, which brings no error about. -/
theorem checksFailInTheirOrder : Obligations.ChecksFailInTheirOrder := by
  refine ⟨fun w s hmiss => ?undecoded, fun w i s hdec => ?decoded⟩
  case undecoded =>
    obtain ⟨-, hreserved⟩ := illegalWordRaisesIllegalCommand
    obtain ⟨r, hdec⟩ := (reserved_iff_decode_error w).1 ((hreserved w).2 hmiss)
    exact execWord_error hdec s
  case decoded =>
    rw [execWord_ok hdec, exec_eq_checked, ← firstFailure_checksOf]
    refine ⟨fun hfail => ?_, fun hpass => ⟨_, checked_pass hpass, effectOf_keepsError s⟩⟩
    rw [checked_fail hfail, opcode_of_decode hdec]
    rfl

/-! ### A failed command (60_exceptions.md R364, R365) -/

/-- Settles O22: a failed word has recorded its error, which writes the two fields. -/
theorem failedCommandChangesOnlyErrAndErrop : Obligations.FailedCommandChangesOnlyErrAndErrop :=
  fun _ _ _ herr h hfail => execWord_failed herr h hfail

end Sys2Proof.Proofs
end

section
/-! PROOFS of the statements of 70_reset_and_hazards.md. A hardware reset and SRESET are one effect on the engine. The
run that `runToEnd` makes ends where `RunEndsAt` says, step by step: here, or after a step that answers a next state. -/

namespace Sys2Proof.Proofs

open Sys2Proof Sys2Proof.Machine Sys2Proof.Claims Sys2Proof.Laws

/-! ### Reset (70_reset_and_hazards.md R400, R401) -/

/-- A hardware reset takes one step; the latency counter, which that step may run down, is itself reset. -/
theorem step_hwReset {s : State} (h : Served s) {rest : List HostEvent} (hi : s.inbox = .hwReset :: rest) :
    step s = .next (resetEngine { s with inbox := rest }) := by
  obtain ⟨d, hstep⟩ := step_served_cons h hi
  exact hstep

/-- Settles O15: both leave what `resetEngine` leaves, which keeps the fields of the host. -/
theorem resetAndSresetGiveTheResetState : Obligations.ResetAndSresetGiveTheResetState := fun s =>
  ⟨fun _ hserved hi => ⟨_, step_hwReset hserved hi, engineReset_resetEngine _, rfl, rfl, rfl⟩,
    _, exec_sreset s, engineReset_resetEngine s, rfl, rfl, rfl⟩

/-! ### The end of a run (70_reset_and_hazards.md R412) -/

/-- The model's test for the end of a run and the statements' word for it say the same. -/
theorem runEnded_eq_ended : RunEnded = Ended := funext fun s => propext (runEnded_iff s)

/-- A run of one step more answers a next state through a first step that does (`run_succ` for a known step). -/
theorem run_succ_eq_next_iff {s t : State} (k : Nat) :
    core.run (k + 1) s = .next t ↔ ∃ u, step s = .next u ∧ core.run k u = .next t := by
  have hcore : core.step s = step s := rfl
  simp only [Host.Core.run, hcore]
  cases step s <;> simp

theorem runToEnd_succ_eq_some_iff {s t : State} (h : ¬ RunEnded s) (fuel : Nat) :
    runToEnd (fuel + 1) s = some t ↔ ∃ u, step s = .next u ∧ runToEnd fuel u = some t := by
  have hended : runEnded s = false := Bool.eq_false_iff.2 h
  rw [runToEnd, hended]
  cases step s <;> simp

theorem runEndsAt_zero_iff {s t : State} : RunEndsAt s 0 t ↔ t = s ∧ RunEnded s := by
  constructor
  · rintro ⟨hrun, hended, -⟩
    obtain rfl : s = t := Host.Outcome.next.inj hrun
    exact ⟨rfl, hended⟩
  · rintro ⟨rfl, hended⟩
    exact ⟨rfl, hended, fun j hj => absurd hj (Nat.not_lt_zero j)⟩

/-- A run that has not ended ends one step later than the run from its next state. -/
theorem runEndsAt_succ_iff {s t : State} (k : Nat) :
    RunEndsAt s (k + 1) t ↔ ¬ RunEnded s ∧ ∃ u, step s = .next u ∧ RunEndsAt u k t := by
  constructor
  · rintro ⟨hrun, hended, hfirst⟩
    obtain ⟨u, hstep, hrest⟩ := (run_succ_eq_next_iff k).1 hrun
    exact ⟨hfirst 0 k.succ_pos s rfl, u, hstep, hrest, hended, fun j hj v hv =>
      hfirst (j + 1) (Nat.succ_lt_succ hj) v ((run_succ hstep j).trans hv)⟩
  · rintro ⟨hnow, u, hstep, hrest, hended, hfirst⟩
    refine ⟨(run_succ hstep k).trans hrest, hended, fun j hj v hv => ?_⟩
    cases j with
    | zero =>
      obtain rfl : s = v := Host.Outcome.next.inj hv
      exact hnow
    | succ j => exact hfirst j (Nat.lt_of_succ_lt_succ hj) v ((run_succ hstep j).symm.trans hv)

/-- A run that has ended ends at its start, and nowhere later. -/
theorem runEndsAt_of_runEnded {s t : State} (h : RunEnded s) (k : Nat) : RunEndsAt s k t ↔ k = 0 ∧ t = s := by
  cases k with
  | zero => simp [runEndsAt_zero_iff, h]
  | succ k => simp [runEndsAt_succ_iff, h]

/-- `runToEnd` finds the state in which the run ends, exactly when it ends within the fuel. -/
theorem runToEnd_eq_some_iff (fuel : Nat) {s t : State} :
    runToEnd fuel s = some t ↔ ∃ k ≤ fuel, RunEndsAt s k t := by
  induction fuel generalizing s with
  | zero =>
    by_cases h : RunEnded s
    · simp [runToEnd_ended 0 h, runEndsAt_zero_iff, h, eq_comm]
    · simp [runToEnd_zero (Bool.eq_false_iff.2 h), runEndsAt_zero_iff, h]
  | succ fuel ih =>
    by_cases h : RunEnded s
    · simp [runToEnd_ended (fuel + 1) h, runEndsAt_of_runEnded h, eq_comm]
    · rw [runToEnd_succ_eq_some_iff h]
      constructor
      · rintro ⟨u, hstep, hrest⟩
        obtain ⟨k, hk, hends⟩ := ih.1 hrest
        exact ⟨k + 1, Nat.succ_le_succ hk, (runEndsAt_succ_iff k).2 ⟨h, u, hstep, hends⟩⟩
      · rintro ⟨k, hk, hends⟩
        cases k with
        | zero => exact absurd (runEndsAt_zero_iff.1 hends).2 h
        | succ k =>
          obtain ⟨-, u, hstep, hrest⟩ := (runEndsAt_succ_iff k).1 hends
          exact ⟨u, hstep, ih.2 ⟨k, Nat.le_of_succ_le_succ hk, hrest⟩⟩

/-- An outcome is the one at `t` when its seven parts are. -/
theorem outcomeAt_eq_iff (s t : State) (o : RunOutcome) :
    outcomeAt s t = o ↔
      o.status = statusWord t ∧ o.ctx = t.ctx.toWord ∧ o.S = t.S ∧ o.dbuf = t.dbuf ∧ o.key = t.key ∧ o.blk = t.blk ∧
      o.reads = t.readLog.drop s.readLog.length := by
  obtain ⟨status, ctx, S, dbuf, key, blk, reads⟩ := o
  simp only [outcomeAt, RunOutcome.mk.injEq, eq_comm]

/-- Settles O59: an outcome is one at the state `runToEnd` finds, and that is the first one that has ended. -/
theorem outcomeIsTakenAtTheFirstEndedState : Obligations.OutcomeIsTakenAtTheFirstEndedState := by
  intro fuel s o
  simp only [runOutcome, Option.map_eq_some_iff, runToEnd_eq_some_iff, outcomeAt_eq_iff, RunEndsAt,
    runEnded_eq_ended]
  constructor
  · rintro ⟨t, ⟨k, hk, hrun, hended, hfirst⟩, hparts⟩
    exact ⟨k, t, hk, hrun, hended, hfirst, hparts⟩
  · rintro ⟨k, t, hk, hrun, hended, hfirst, hparts⟩
    exact ⟨t, ⟨k, hk, hrun, hended, hfirst⟩, hparts⟩

end Sys2Proof.Proofs
end
